-- ==== Sys2Proof/Word.lean ====
section
/-! DEFINITION. The word types of HTB: the bus word and its address, the symbol, and the widths R6 fixes. -/

namespace Sys2Proof

/-- A bus word, a register and a command word: 32 bits (00_scope.md R6, 20_memory.md R35). -/
abbrev Word := BitVec 32

/-- A bus word address: `AW` = 23 bits (R6, R34). -/
abbrev Addr := BitVec 23

/-- A symbol: one 16-bit code unit, ordered as an unsigned number (R6, R8). -/
abbrev Symbol := BitVec 16

/-- A cell of the frequency table: `CW` = 32 bits, unsigned (R6, 10_state.md R18). -/
abbrev Count := BitVec 32

/-- The frequency of a tree node: `FW` = 48 bits, unsigned (R6, R19). -/
abbrev NodeFreq := BitVec 48

/-- A node index, and the registers that count nodes and entries: `IW` = 17 bits (R6, R19, R20). -/
abbrev NodeIx := BitVec 17

/-- A bit-string: its first bit (nearest the root, first emitted) is the head of the list; `ε` is `[]` (R10). -/
abbrev BitString := List Bool

/-- The size of the alphabet, `NSYM` = 2^16 (R6). -/
abbrev numSymbols : Nat := 65536

end Sys2Proof
end

