-- ==== Sys2Proof/Config.lean ====
section
/-! DEFINITION. What an instance of HTB fixes (R7), and the free values the spec writes `any` (R11). -/

namespace Sys2Proof

/-- The open parameters of an instance (00_scope.md R7). They are carried in State and no step changes them
(DESIGN CHOICE, log entry 5). -/
structure Config where
  /-- `TEXT_MAX`: the capacity of the text buffer in symbols, the largest legal `TLEN`. -/
  textMax : Nat
  /-- `LEN_MAX`: the longest code, in bits, that a code table entry can hold. -/
  lenMax : Nat
deriving DecidableEq, Repr

/-- `OUT_MAX` = `TEXT_MAX` · `LEN_MAX`: derived, not free (R7). -/
def Config.outMax (c : Config) : Nat := c.textMax * c.lenMax

/-- The default instance, HTB(2^20, 64) (R7). -/
def Config.defaultInstance : Config := { textMax := 1048576, lenMax := 64 }

/-- The `n`-th free value where the spec says `any` and means a 16-bit symbol: a read of an unwritten `TXT` cell
(10_state.md R16, 93_implementation_defined.md U11). No body: nothing can be proved of it (log entry 4). -/
opaque Config.anySymbol : Nat → Symbol

/-- The `n`-th free value where the spec says `any` and means a bus word: a host read of anything but `STATUS` while
a command is in flight (20_memory.md R39, U12). No body: nothing can be proved of it (log entry 4). -/
opaque Config.anyWord : Nat → Word

end Sys2Proof
end

