-- ==== Sys2Proof/Syntax.lean ====
section
/-! DEFINITION. The eight commands, one constructor per row of the opcode table (30_encoding.md R55). -/

namespace Sys2Proof

/-- ENCODE's operand `TSEL`, the only operand of any command (R56): which of the two code tables it uses. -/
inductive TableSel where
  /-- `TSEL` = 0, written `S`: the standard table `SCODE`. -/
  | standard
  /-- `TSEL` = 1, written `C`: the canonical table `CCODE`. -/
  | canonical
deriving DecidableEq, Repr

/-- A command (R54, R55): HTB's analogue of an instruction. -/
inductive Instr where
  /-- Nothing (R68). -/
  | nop
  /-- Empty every derived table (R69). -/
  | clear
  /-- Count the text's symbols into `FREQ` (R74). -/
  | freq
  /-- Build the tree from `FREQ` (R80). -/
  | build
  /-- Walk the tree into `SCODE` (R88). -/
  | derive
  /-- Canonical codes of `SCODE`'s lengths into `CCODE` (R96). -/
  | canon
  /-- Encode the text with the selected table into `OUT` (R105). -/
  | encode (tsel : TableSel)
  /-- Acknowledge a fault and clear the sticky flags (R70). -/
  | clrf
deriving DecidableEq, Repr

end Sys2Proof
end

