-- ==== Sys2Proof/WellFormed.lean ====
section
/-! DEFINITION. Well-formedness: legal parameters (R7), legal command words (R57), well-formed commands. -/

namespace Sys2Proof

/-- The legal ranges of the open parameters (00_scope.md R7). -/
abbrev Config.wf (c : Config) : Prop :=
  1 ≤ c.textMax ∧ c.textMax ≤ 1048576 ∧ 1 ≤ c.lenMax ∧ c.lenMax ≤ 64

/-- A command word is legal iff its reserved bits are zero, its opcode is assigned, and `TSEL` is set on ENCODE only
(30_encoding.md R57). Written apart from the decoder, so that the two can be compared. -/
abbrev Word.legal (w : Word) : Prop :=
  w.extractLsb' 9 23 = 0 ∧ (w.extractLsb' 0 8).toNat ≤ 0x07 ∧ (w.getLsbD 8 = false ∨ w.extractLsb' 0 8 = 0x06#8)

/-- A command is well formed iff its operand is one the encoding can hold (R56).
ENCODE's operand is a `TableSel`, one of two, so every command is well formed by its type; the check is kept as the
place where a command with a wider operand would be refused. -/
def Instr.wf : Instr → Bool
  | .nop => true
  | .clear => true
  | .freq => true
  | .build => true
  | .derive => true
  | .canon => true
  | .encode .standard => true
  | .encode .canonical => true
  | .clrf => true

end Sys2Proof
end

