-- ==== Sys2Proof/Decode.lean ====
section
/-! DEFINITION. The decoder, total on 32-bit words (30_encoding.md R59), and its inverse, the encoder (R63). -/

namespace Sys2Proof

/-- The opcode field `OPC`, bits 7:0 (R54). -/
def opcodeOf (w : Word) : BitVec 8 := w.extractLsb' 0 8

/-- The table-select bit `TSEL`, bit 8 (R54, R56). -/
def tselOf (w : Word) : Bool := w.getLsbD 8

/-- The reserved field `RSV`, bits 31:9, which must be 0 (R54). -/
def reservedOf (w : Word) : BitVec 23 := w.extractLsb' 9 23

/-- The operand of ENCODE read from its bit (R56). -/
def tableSelOf (b : Bool) : TableSel := if b then .canonical else .standard

/-- The decoder of R59; `none` is `Illegal` (R57). -/
def decode (w : Word) : Option Instr :=
  if reservedOf w ≠ 0 then none
  else if opcodeOf w = 0x06#8 then some (.encode (tableSelOf (tselOf w)))
  else if tselOf w = true then none
  else if opcodeOf w = 0x00#8 then some .nop
  else if opcodeOf w = 0x01#8 then some .clear
  else if opcodeOf w = 0x02#8 then some .freq
  else if opcodeOf w = 0x03#8 then some .build
  else if opcodeOf w = 0x04#8 then some .derive
  else if opcodeOf w = 0x05#8 then some .canon
  else if opcodeOf w = 0x07#8 then some .clrf
  else none

/-- The opcode number of a command (R55). -/
def opcodeNumber : Instr → BitVec 8
  | .nop => 0x00#8
  | .clear => 0x01#8
  | .freq => 0x02#8
  | .build => 0x03#8
  | .derive => 0x04#8
  | .canon => 0x05#8
  | .encode _ => 0x06#8
  | .clrf => 0x07#8

/-- The `TSEL` bit of a command: ENCODE's operand, 0 for every other command (R56, R57). -/
def tselBit : Instr → BitVec 1
  | .encode .canonical => 1#1
  | .encode .standard => 0#1
  | .nop | .clear | .freq | .build | .derive | .canon | .clrf => 0#1

/-- The encoder: the fields of R54 put together, `RSV` in the higher bits. -/
def encode (i : Instr) : Word := 0#23 ++ tselBit i ++ opcodeNumber i

/-- The decoder on an opcode-table word: the low `nbits` bits of `w`, every bit above them 0. -/
def decodeTableWord (nbits w : Nat) : Option Instr := decode (BitVec.ofNat 32 (w % 2 ^ nbits))

end Sys2Proof
end

