-- ==== Sys2Proof/Machine/State.lean ====
section
/-! DEFINITION. The state of HTB (10_state.md R13), whole, as plain data, its value after reset (R33), and the ways a
step can stop. -/

namespace Sys2Proof.Machine

/-- A memory of HTB, sparse: the listed cells with their indices. A cell is a whole element (a symbol, a count, a code
entry), since HTB moves whole words and has no byte order (20_memory.md R36); an index not listed is an unwritten
`TXT` cell, a zero count, an absent code (log entry 1). -/
abbrev Memory (α : Type) := List (Nat × α)

/-- The canonical form of a memory: indices strictly rising, so that equal memories are equal lists. -/
abbrev Memory.wf {α : Type} (m : Memory α) : Prop := m.Pairwise (fun x y => x.1 < y.1)

/-- A Huffman node (R19): the document's tagged variant. -/
inductive Node where
  /-- A leaf owns a symbol and its frequency. -/
  | leaf (sym : Symbol) (freq : NodeFreq)
  /-- An internal node owns its frequency and its two children, by index. -/
  | internal (freq : NodeFreq) (left right : NodeIx)
deriving DecidableEq, Repr

/-- A code as HTB stores it (00_scope.md R10): its length `L` and its value `v`, the first bit most significant. -/
structure Code where
  /-- `L`, 0 to `LEN_MAX`. -/
  len : Nat
  /-- `v`, below 2^`L`. -/
  val : Nat
deriving DecidableEq, Repr

/-- One act on the machine (R5, R34, R128): a host transaction, an instant of the engine, or a reset. -/
inductive Event where
  /-- `MemRead(a, 4)`. -/
  | read (a : Addr)
  /-- `MemWrite(a, 4, v)`. -/
  | write (a : Addr) (v : Word)
  /-- The engine's step, where it is enabled (40_command_execution_and_control.md R65). -/
  | engine
  /-- The reset event (70_reset_and_hazards.md R128). -/
  | rst
deriving DecidableEq, Repr

/-- How the machine itself can stop. A fault of the SPEC (60_exceptions.md R112) is no stop: it is a next state with the
fault record written. -/
inductive Fault where
  /-- Raised by DERIVE alone, in a state whose tree breaks R21 (a child index that names no entry of `NODE`, or a
  cycle), which no run reaches: entries with `k ≥ NNODE` do not exist (R19). Safe (log entry 7). -/
  | nodeAbsent
deriving DecidableEq, Repr

/-- Why a step can have no meaning. -/
inductive Refusal where
  /-- Raised by exec's arm of an instruction that has no meaning yet. Safe. -/
  | notModelled (mnemonic : String)
  /-- Raised by CANON alone, when the running value does not fit the length it is rendered in, which needs lengths with a
  Kraft sum above 1, which no run reaches (44_canonicalizer.md R99; 93_implementation_defined.md U9: such tables are to
  be refused). Safe (log entry 6). -/
  | canonValueTooWide
deriving DecidableEq, Repr

/-- The whole state of HTB (R13), then the model's own fields. -/
structure State where
  /-- The instance's parameters; no step changes them (R7, log entry 5). -/
  cfg : Config
  /-- `TXT`: the written cells; an index not listed is an unwritten cell (R16). -/
  txt : Memory Symbol
  /-- `TLEN` (R17). -/
  tlen : BitVec 21
  /-- `FREQ`: the non-zero counts; a symbol not listed has count 0, no entry (R18). -/
  freq : Memory Count
  /-- `NODE[0..NNODE-1]` (R19). -/
  node : List Node
  /-- `NLEAF` (R20). -/
  nleaf : NodeIx
  /-- `NNODE` (R20). -/
  nnode : NodeIx
  /-- `ROOT` (R20). -/
  root : NodeIx
  /-- `SCODE`: the present entries of the standard code table (R22). -/
  scode : Memory Code
  /-- `SCNT` (R22). -/
  scnt : BitVec 17
  /-- `CCODE`: the present entries of the canonical code table (R23). -/
  ccode : Memory Code
  /-- `CCNT` (R23). -/
  ccnt : BitVec 17
  /-- `OUT`, the encoded bitstream (R24). -/
  out : BitString
  /-- `OUTLEN` (R24). -/
  outlen : BitVec 27
  /-- `STATUS.BUSY` (R25). -/
  stBusy : Bool
  /-- `STATUS.DONE` (R25). -/
  stDone : Bool
  /-- `STATUS.FAULT` (R25). -/
  stFault : Bool
  /-- `STATUS.DROP` (R25). -/
  stDrop : Bool
  /-- `CMDLAT`, the command word last issued (R26). -/
  cmdlat : Word
  /-- `CTRL.SLZ`, the single-leaf policy (R27). -/
  slz : Bool
  /-- `FCODE` (R28). -/
  fcode : BitVec 3
  /-- `FINFO0` (R28). -/
  finfo0 : Word
  /-- `FINFO1` (R28). -/
  finfo1 : Word
  /-- The acts to come, in the one total order of 20_memory.md R50 (the model's own, log entry 2). -/
  agenda : List Event
  /-- The words the port has returned to the host, newest first (the model's own, log entry 3). -/
  reads : List Word
  /-- How many free values have been drawn (the model's own, log entry 4). -/
  freeIx : Nat
deriving DecidableEq, Repr

/-- The machine right after reset (R33), of the default instance (R7): everything empty or zero, every `TXT` cell
unwritten. -/
def State.reset : State where
  cfg := Config.defaultInstance
  txt := []
  tlen := 0
  freq := []
  node := []
  nleaf := 0
  nnode := 0
  root := 0
  scode := []
  scnt := 0
  ccode := []
  ccnt := 0
  out := []
  outlen := 0
  stBusy := false
  stDone := false
  stFault := false
  stDrop := false
  cmdlat := 0
  slz := false
  fcode := 0
  finfo0 := 0
  finfo1 := 0
  agenda := []
  reads := []
  freeIx := 0

end Sys2Proof.Machine
end

