-- ==== Sys2Proof/Machine/Ops.lean ====
section
/-! DEFINITION. The named operations over memories, bit-strings and the control state: reading and writing one cell in
canonical form, R10's value of a bit-string, issue (R64), completion (R65), taking a fault (R119) and returning from it
(R70), dropping a write (R44). -/

namespace Sys2Proof.Machine

/-! ### One cell of a memory -/

/-- The cell at index `k`; `none` is a cell that is not listed. -/
def cellAt {α : Type} : Memory α → Nat → Option α
  | [], _ => none
  | (i, v) :: m, k => if k = i then some v else cellAt m k

/-- Write the cell at index `k`, keeping the indices in rising order. -/
def setCell {α : Type} : Memory α → Nat → α → Memory α
  | [], k, v => [(k, v)]
  | (i, w) :: m, k, v =>
    if k < i then (k, v) :: (i, w) :: m
    else if k = i then (k, v) :: m
    else (i, w) :: setCell m k v

/-- Make the cell at index `k` unlisted. -/
def clearCell {α : Type} (m : Memory α) (k : Nat) : Memory α := m.filter (fun e => e.1 != k)

/-- The memory that lists exactly the given cells (the first one given wins where an index is given twice). -/
def tableOf {α : Type} (l : List (Nat × α)) : Memory α := l.foldr (fun e m => setCell m e.1 e.2) []

/-- `FREQ[s]` (10_state.md R18): a symbol not listed has count 0. -/
def freqAt (m : Memory Count) (s : Nat) : Count := (cellAt m s).getD 0

/-- `FREQ[s] <- c`: writing 0 removes the symbol's entry (20_memory.md R48). -/
def setFreq (m : Memory Count) (s : Nat) (c : Count) : Memory Count :=
  if c = 0 then clearCell m s else setCell m s c

/-! ### Bit-strings (00_scope.md R10) -/

/-- `val(b)`: the first bit is the most significant. -/
def bitsVal (b : BitString) : Nat := b.foldl (fun a x => 2 * a + x.toNat) 0

/-- `bits_L(v)`: the numeral of `v` in exactly `L` bits; `bits_0(0)` is the empty one. -/
def bitsOf : Nat → Nat → BitString
  | 0, _ => []
  | L + 1, v => v.testBit L :: bitsOf L v

/-- The bit-string a stored code names: `bits_L(v)`. -/
def codeBits (c : Code) : BitString := bitsOf c.len c.val

/-- The pair `(|b|, val(b))` by which HTB stores a code. -/
def codeOf (b : BitString) : Code := { len := b.length, val := bitsVal b }

/-! ### The outputs of the commands, each replaced whole (40_command_execution_and_control.md R67, R72) -/

/-- FREQ's output: the frequency table. -/
def putFreq (m : Memory Count) (s : State) : State := { s with freq := m }

/-- BUILD's output: a tree of `n` leaves, with `NNODE` = 2n - 1 and `ROOT` = 2n - 2 (42_tree_builder.md R80). -/
def putTree (nodes : List Node) (n : Nat) (s : State) : State :=
  { s with
    node := nodes, nleaf := BitVec.ofNat 17 n, nnode := BitVec.ofNat 17 (2 * n - 1)
    root := BitVec.ofNat 17 (2 * n - 2) }

/-- DERIVE's output: the standard code table and its entry count. -/
def putScode (m : Memory Code) (n : BitVec 17) (s : State) : State := { s with scode := m, scnt := n }

/-- CANON's output: the canonical code table and its entry count. -/
def putCcode (m : Memory Code) (n : BitVec 17) (s : State) : State := { s with ccode := m, ccnt := n }

/-- ENCODE's output: the bitstream and its length. -/
def putOut (b : BitString) (s : State) : State := { s with out := b, outlen := BitVec.ofNat 27 b.length }

/-! ### What the host writes (20_memory.md R47, R48) -/

/-- `CTRL.SLZ <- b`. -/
def putSlz (b : Bool) (s : State) : State := { s with slz := b }

/-- `TLEN <- n`. -/
def putTlen (n : BitVec 21) (s : State) : State := { s with tlen := n }

/-- `TXT[i] <- sym`; the cell becomes written. -/
def putTxtCell (i : Nat) (sym : Symbol) (s : State) : State := { s with txt := setCell s.txt i sym }

/-- `FREQ[k] <- c`. -/
def putFreqCell (k : Nat) (c : Count) (s : State) : State := { s with freq := setFreq s.freq k c }

/-! ### The control state -/

/-- The six fault causes (60_exceptions.md R112). -/
inductive Cause where
  | illegalCommand
  | emptyFreq
  | noTree
  | lenOverflow
  | emptyCodes
  | missingSymbol
deriving DecidableEq, Repr

/-- The code `FCODE` takes for each cause (R112); 0 and 7 are never produced by a fault. -/
def causeCode : Cause → BitVec 3
  | .illegalCommand => 1
  | .emptyFreq => 2
  | .noTree => 3
  | .lenOverflow => 4
  | .emptyCodes => 5
  | .missingSymbol => 6

/-- A host write of `w` to `CMD` issues a command iff the block is idle and no fault is recorded, or `w` is CLRF's word
(40_command_execution_and_control.md R64, R120). -/
def issueAllowed (w : Word) (s : State) : Bool := !s.stBusy && (!s.stFault || w == 0x00000007#32)

/-- Issue (R64): latch the word, set `BUSY`, clear `DONE`, and nothing else. -/
def issue (w : Word) (s : State) : State := { s with cmdlat := w, stBusy := true, stDone := false }

/-- Completion without fault (R65): `BUSY <- 0`, `DONE <- 1`; the command's own writes are made by its meaning. -/
def completeOk (s : State) : State := { s with stBusy := false, stDone := true }

/-- Taking a fault (R119), the one operation every faulting command ends in: the flags and the fault record, and nothing
else. -/
def takeFault (c : Cause) (info0 info1 : Word) (s : State) : State :=
  { s with
    stBusy := false, stDone := false, stFault := true
    fcode := causeCode c, finfo0 := info0, finfo1 := info1 }

/-- The return from a fault: CLRF's writes (R70, R121). Nothing is restored, because a fault changed nothing. -/
def clearFault (s : State) : State :=
  { s with stFault := false, stDrop := false, fcode := 0, finfo0 := 0, finfo1 := 0 }

/-- A dropped host write (20_memory.md R44): `DROP <- 1` and nothing else. -/
def dropWrite (s : State) : State := { s with stDrop := true }

/-- Count `n` free values as drawn (the model's own, log entry 4). -/
def drawFree (n : Nat) (s : State) : State := { s with freeIx := s.freeIx + n }

/-- The reset event (70_reset_and_hazards.md R128): every piece of the machine's state at its reset value, whatever it
held; a command in flight is abandoned. The instance is the same one, and what the host has seen and will do is not the
machine's (log entry 8). -/
def applyReset (s : State) : State :=
  { State.reset with cfg := s.cfg, agenda := s.agenda, reads := s.reads, freeIx := s.freeIx }

end Sys2Proof.Machine
end

