-- ==== Sys2Proof/Machine/Flags.lean ====
section
/-! DEFINITION. The status word and the four flags it shows (10_state.md R25, R32). HTB computes no arithmetic flag. -/

namespace Sys2Proof.Machine

/-- A bit-string as one bus word, its first bit in bit 31 (a string of up to 32 bits, zero-filled on the right by the
caller; 20_memory.md R46). -/
def wordOfBits (b : BitString) : Word := BitVec.ofNat 32 (bitsVal b)

/-- A flag as one bit. -/
def flagBit (b : Bool) : BitVec 1 := BitVec.ofBool b

/-- The `STATUS` word: `{28'b0, DROP, FAULT, DONE, BUSY}` (20_memory.md R40). -/
def statusWord (s : State) : Word :=
  0#28 ++ flagBit s.stDrop ++ flagBit s.stFault ++ flagBit s.stDone ++ flagBit s.stBusy

/-- `CTRL` as the host reads it: `SLZ` in bit 0, the reserved bits 0 (R27, R40). -/
def ctrlWord (s : State) : Word := 0#31 ++ flagBit s.slz

end Sys2Proof.Machine
end

