-- ==== Sys2Proof/Machine/Operands.lean ====
section
/-! DEFINITION. The operands of the commands: ENCODE's table (R56), and the text FREQ and ENCODE read (R16, R17). -/

namespace Sys2Proof.Machine

/-- The table `TSEL` selects (30_encoding.md R56, 45_encoder.md R106). -/
def selectTable (t : TableSel) (s : State) : Memory Code :=
  match t with
  | .standard => s.scode
  | .canonical => s.ccode

/-- One read of `TXT[i]`, the `n`-th free value if the cell is unwritten (10_state.md R16). -/
def readTxt (m : Memory Symbol) (n i : Nat) : Symbol := (cellAt m i).getD (Config.anySymbol n)

/-- The text `TXT[0..TLEN-1]` as one command reads it: one read per position, an unwritten cell giving a free value of
its own at each read (R16, 41_frequency_counter.md R74, R76). Position `i` draws the free value of number
`freeIx + i` (log entry 4). -/
def readText (s : State) : List Symbol :=
  (List.range s.tlen.toNat).map (fun i => readTxt s.txt (s.freeIx + i) i)

/-- The state after a command has read the text: the free values are spent, `TXT` and `TLEN` are unchanged. -/
def afterText (s : State) : State := drawFree s.tlen.toNat s

end Sys2Proof.Machine
end

