-- ==== Sys2Proof/Machine/Bus.lean ====
section
/-! DEFINITION. The host bus (20_memory.md): the address map (R38), the host's view of every location (R39 to R46), and
what a write does (R44, R47, R48). -/

namespace Sys2Proof.Machine

/-- The registers of 10_state.md R29, in address order; `reserved` stands for 0xD to 0xF. -/
inductive Reg where
  | cmd | status | ctrl | tlen | fcode | finfo0 | finfo1 | nleaf | nnode | root | scnt | ccnt | outlen
  | reserved (n : Nat)
deriving DecidableEq, Repr

/-- A location of the address map (R38). -/
inductive Location where
  | reg (r : Reg)
  /-- `FREQ[s]`. -/
  | freq (s : Nat)
  /-- Word `w` of `SCODE[s]`. -/
  | scode (s w : Nat)
  /-- Word `w` of `CCODE[s]`. -/
  | ccode (s w : Nat)
  /-- Word `w` of `NODE[k]`. -/
  | node (k w : Nat)
  /-- `TXT[i]`. -/
  | txt (i : Nat)
  /-- Word `j` of `OUT`. -/
  | out (j : Nat)
  | unmapped
deriving DecidableEq, Repr

/-- The register at word address `a`, 0x0 to 0xF (R29). -/
def regAt (a : Nat) : Reg :=
  match a with
  | 0x0 => .cmd
  | 0x1 => .status
  | 0x2 => .ctrl
  | 0x3 => .tlen
  | 0x4 => .fcode
  | 0x5 => .finfo0
  | 0x6 => .finfo1
  | 0x7 => .nleaf
  | 0x8 => .nnode
  | 0x9 => .root
  | 0xA => .scnt
  | 0xB => .ccnt
  | 0xC => .outlen
  | n => .reserved n

/-- The word address of a register (R29). -/
def regNumber : Reg → Nat
  | .cmd => 0x0
  | .status => 0x1
  | .ctrl => 0x2
  | .tlen => 0x3
  | .fcode => 0x4
  | .finfo0 => 0x5
  | .finfo1 => 0x6
  | .nleaf => 0x7
  | .nnode => 0x8
  | .root => 0x9
  | .scnt => 0xA
  | .ccnt => 0xB
  | .outlen => 0xC
  | .reserved n => n

/-- The address map of R38. `TXT` addresses with `i ≥ TEXT_MAX` are unmapped. -/
def locate (cfg : Config) (addr : Addr) : Location :=
  let a := addr.toNat
  if a < 0x000010 then .reg (regAt a)
  else if a < 0x010000 then .unmapped
  else if a < 0x020000 then .freq (a - 0x010000)
  else if a < 0x040000 then .unmapped
  else if a < 0x080000 then .scode ((a - 0x040000) / 4) ((a - 0x040000) % 4)
  else if a < 0x0C0000 then .ccode ((a - 0x080000) / 4) ((a - 0x080000) % 4)
  else if a < 0x100000 then .unmapped
  else if a < 0x200000 then .node ((a - 0x100000) / 8) ((a - 0x100000) % 8)
  else if a < 0x300000 then (if a - 0x200000 < cfg.textMax then .txt (a - 0x200000) else .unmapped)
  else if a < 0x400000 then .unmapped
  else if a < 0x600000 then .out (a - 0x400000)
  else .unmapped

/-- The word address of a location, by the formulas of R38 (and of R60's `<loc>` notation); `unmapped` has none. -/
def addrOf : Location → Option Addr
  | .reg r => some (BitVec.ofNat 23 (regNumber r))
  | .freq s => some (BitVec.ofNat 23 (0x010000 + s))
  | .scode s w => some (BitVec.ofNat 23 (0x040000 + 4 * s + w))
  | .ccode s w => some (BitVec.ofNat 23 (0x080000 + 4 * s + w))
  | .node k w => some (BitVec.ofNat 23 (0x100000 + 8 * k + w))
  | .txt i => some (BitVec.ofNat 23 (0x200000 + i))
  | .out j => some (BitVec.ofNat 23 (0x400000 + j))
  | .unmapped => none

/-! ### The host's view of a location (what a read of it returns while idle) -/

/-- The registers (R40). -/
def regView (s : State) : Reg → Word
  | .cmd => s.cmdlat
  | .status => statusWord s
  | .ctrl => ctrlWord s
  | .tlen => s.tlen.setWidth 32
  | .fcode => s.fcode.setWidth 32
  | .finfo0 => s.finfo0
  | .finfo1 => s.finfo1
  | .nleaf => s.nleaf.setWidth 32
  | .nnode => s.nnode.setWidth 32
  | .root => s.root.setWidth 32
  | .scnt => s.scnt.setWidth 32
  | .ccnt => s.ccnt.setWidth 32
  | .outlen => s.outlen.setWidth 32
  | .reserved _ => 0

/-- Word `w` of a code table entry (R42): `VALID` in bit 31 and `LEN` in bits 6:0; then the value, low word first; an
absent entry reads 0. -/
def codeView (e : Option Code) (w : Nat) : Word :=
  match e with
  | none => 0
  | some c =>
    match w with
    | 0 => 1#1 ++ 0#24 ++ BitVec.ofNat 7 c.len
    | 1 => BitVec.ofNat 32 c.val
    | 2 => BitVec.ofNat 32 (c.val / 2 ^ 32)
    | _ => 0

/-- Word `w` of a node entry (R43); an entry that does not exist reads 0. -/
def nodeView (e : Option Node) (w : Nat) : Word :=
  match e with
  | none => 0
  | some (.leaf sym f) =>
    match w with
    | 0 => 1#1 ++ 1#1 ++ 0#14 ++ sym
    | 1 => f.setWidth 32
    | 2 => 0#16 ++ f.extractLsb' 32 16
    | _ => 0
  | some (.internal f l r) =>
    match w with
    | 0 => 1#1 ++ 0#31
    | 1 => f.setWidth 32
    | 2 => 0#16 ++ f.extractLsb' 32 16
    | 3 => l.setWidth 32
    | 4 => r.setWidth 32
    | _ => 0

/-- Entry `k` of `NODE` as the host sees it: entries with `k ≥ NNODE` do not exist (R19, R43). -/
def nodeEntry (s : State) (k : Nat) : Option Node := if k < s.nnode.toNat then s.node[k]? else none

/-- Bit `t` of the stream, 0 from `OUTLEN` on (R46). -/
def outBit (s : State) (t : Nat) : Bool := decide (t < s.outlen.toNat) && s.out.getD t false

/-- Word `j` of `OUT`: stream bits `32·j` to `32·j + 31`, the first in bit 31 (R46). -/
def outView (s : State) (j : Nat) : Word := wordOfBits ((List.range 32).map (fun p => outBit s (32 * j + p)))

/-- The view of a location (R38 to R46); an unwritten `TXT` cell reads a free value (R45). -/
def view (s : State) : Location → Word
  | .reg r => regView s r
  | .freq sym => freqAt s.freq sym
  | .scode sym w => codeView (cellAt s.scode sym) w
  | .ccode sym w => codeView (cellAt s.ccode sym) w
  | .node k w => nodeView (nodeEntry s k) w
  | .txt i => (readTxt s.txt s.freeIx i).setWidth 32
  | .out j => outView s j
  | .unmapped => 0

/-- What `MemRead(a, 4)` returns (R39): `STATUS` at all times; any other location only while idle, else a free value. -/
def memRead (s : State) (a : Addr) : Word :=
  if a = 0x000001#23 then statusWord s
  else if s.stBusy then Config.anyWord s.freeIx
  else view s (locate s.cfg a)

/-- The transaction `MemRead(a, 4)`: the machine's state is unchanged; the host has one more word (log entry 3), and the
free value it may have shown is spent (log entry 4). -/
def busRead (a : Addr) (s : State) : State :=
  { drawFree 1 s with reads := memRead s a :: s.reads }

/-! ### Writes -/

/-- A write to a register while idle (R47): `CMD` issues, `CTRL` and `TLEN` are writable, the rest is dropped. -/
def writeReg (r : Reg) (v : Word) (s : State) : State :=
  match r with
  | .cmd => if issueAllowed v s then issue v s else dropWrite s
  | .ctrl => putSlz (v.getLsbD 0) s
  | .tlen => if v.toNat ≤ s.cfg.textMax then putTlen (v.setWidth 21) s else dropWrite s
  | .status | .fcode | .finfo0 | .finfo1 | .nleaf | .nnode | .root | .scnt | .ccnt | .outlen | .reserved _ =>
    dropWrite s

/-- A write to a location while idle (R44, R47, R48): `TXT` and `FREQ` are writable; code tables, nodes, the bitstream and
unmapped addresses are not. -/
def writeLocation (l : Location) (v : Word) (s : State) : State :=
  match l with
  | .reg r => writeReg r v s
  | .txt i => putTxtCell i (v.setWidth 16) s
  | .freq sym => putFreqCell sym v s
  | .scode _ _ | .ccode _ _ | .node _ _ | .out _ | .unmapped => dropWrite s

/-- The transaction `MemWrite(a, 4, v)` (R44): dropped, at any address, while a command is in flight. -/
def busWrite (a : Addr) (v : Word) (s : State) : State :=
  if s.stBusy then dropWrite s else writeLocation (locate s.cfg a) v s

end Sys2Proof.Machine
end

