-- ==== Sys2Proof/Machine/Builder.lean ====
section
/-! DEFINITION. The tree builder, command BUILD: the min-priority-queue merge (42_tree_builder.md). -/

namespace Sys2Proof.Machine

/-- A node in the queue, by its key: its frequency, exact, and its index (R78). Working storage, not state (R31). -/
structure QEntry where
  freq : Nat
  ix : Nat
deriving DecidableEq, Repr

/-- The priority order of R78: lower frequency first, then lower index. -/
def keyLt (x y : QEntry) : Bool := x.freq < y.freq || (x.freq == y.freq && x.ix < y.ix)

/-- The entry of least key among `m` and the list. -/
def leastKey : QEntry → List QEntry → QEntry
  | m, [] => m
  | m, x :: q => leastKey (if keyLt x m then x else m) q

/-- `extract_min(Q)` (R78): the node of least key, and the queue without it. How the queue is stored is not observable;
only the order in which it yields nodes is. -/
def extractMin : List QEntry → Option (QEntry × List QEntry)
  | [] => none
  | x :: q => some (leastKey x q, (x :: q).erase (leastKey x q))

/-- The leaves, one per symbol with an entry, in ascending symbol order, the count zero-extended to 48 bits (R79). -/
def leavesOf (m : Memory Count) : List Node :=
  m.map (fun e => .leaf (BitVec.ofNat 16 e.1) (e.2.setWidth 48))

/-- The queue of the leaves: leaf `j` has index `j` (R79, R80). -/
def leafQueue (m : Memory Count) : List QEntry :=
  m.zipIdx.map (fun e => { freq := e.1.2.toNat, ix := e.2 })

/-- The new node of one pass: first extracted = left, second = right, frequency their exact sum (R80, R82, R84). -/
def mergeNode (a b : QEntry) : Node :=
  .internal (BitVec.ofNat 48 (a.freq + b.freq)) (BitVec.ofNat 17 a.ix) (BitVec.ofNat 17 b.ix)

/-- The merge loop of R80: while two nodes are left, extract two, append their parent under the next index, put it back.
Each pass shortens the queue by one, so the queue's length is fuel enough. -/
def mergeLoop : Nat → List QEntry → List Node → List Node
  | 0, _, nodes => nodes
  | fuel + 1, q, nodes =>
    match extractMin q with
    | none => nodes
    | some (a, q₁) =>
      match extractMin q₁ with
      | none => nodes
      | some (b, q₂) =>
        mergeLoop fuel ({ freq := a.freq + b.freq, ix := nodes.length } :: q₂) (nodes ++ [mergeNode a b])

/-- The nodes of the tree BUILD makes of a frequency table (R80). -/
def buildTree (m : Memory Count) : List Node := mergeLoop m.length (leafQueue m) (leavesOf m)

/-- `BUILD` (R80, R86): EMPTY_FREQ on the empty table, else the tree replaced whole. -/
def execBuild (s : State) : Host.Outcome State Fault Refusal :=
  if s.freq.length = 0 then .next (takeFault .emptyFreq 0 0 s)
  else .next (completeOk (putTree (buildTree s.freq) s.freq.length s))

end Sys2Proof.Machine
end

