-- ==== Sys2Proof/Machine/Canonicalizer.lean ====
section
/-! DEFINITION. The canonical-code indexer, command CANON (44_canonicalizer.md). -/

namespace Sys2Proof.Machine

/-- One entry of the code length table: a symbol and its code's length (R96 step 1). -/
structure LenEntry where
  sym : Nat
  len : Nat
deriving DecidableEq, Repr

/-- The sort order of R97: by length, then by symbol. -/
def lenLt (x y : LenEntry) : Bool := x.len < y.len || (x.len == y.len && x.sym < y.sym)

/-- Put an entry at its place in a sorted sequence. -/
def insertByLen (x : LenEntry) : List LenEntry → List LenEntry
  | [] => [x]
  | y :: l => if lenLt x y then x :: y :: l else y :: insertByLen x l

/-- R96 step 2: the sequence sorted by R97's order. The order is strict and total, so the sorted sequence is unique and
the sorting method cannot matter. -/
def sortByLen (l : List LenEntry) : List LenEntry := l.foldr insertByLen []

/-- R96 step 1: the lengths of the present entries; the code values are not used. -/
def lengthsOf (t : Memory Code) : List LenEntry := t.map (fun e => { sym := e.1, len := e.2.len })

/-- R96 step 4, with the running value `code` and the running length `cur`, on exact numbers (R98). -/
def assignCodes : Nat → Nat → List LenEntry → List (Nat × Code)
  | _, _, [] => []
  | code, cur, x :: l =>
    let code' := if cur < x.len then code <<< (x.len - cur) else code
    let cur' := if cur < x.len then x.len else cur
    (x.sym, { len := x.len, val := code' }) :: assignCodes (code' + 1) cur' l

/-- R96 steps 2 to 4: the running length starts at the shortest length. -/
def canonicalCodes (t : Memory Code) : List (Nat × Code) :=
  match sortByLen (lengthsOf t) with
  | [] => []
  | x :: l => assignCodes 0 x.len (x :: l)

/-- Every assigned value can be rendered in exactly its length (R99). -/
def codesFit (l : List (Nat × Code)) : Bool := l.all (fun e => decide (e.2.val < 2 ^ e.2.len))

/-- `CANON` (R96): EMPTY_CODES on the empty table (R100), else the canonical table replaced whole. Tables with a Kraft sum
above 1, which no run reaches, are refused (U9, log entry 6). -/
def execCanon (s : State) : Host.Outcome State Fault Refusal :=
  if s.scnt = 0 then .next (takeFault .emptyCodes 0 0 s)
  else if codesFit (canonicalCodes s.scode) then
    .next (completeOk
      (putCcode (tableOf (canonicalCodes s.scode)) (BitVec.ofNat 17 (canonicalCodes s.scode).length) s))
  else .refused .canonValueTooWide

end Sys2Proof.Machine
end

