-- ==== Sys2Proof/Machine/Control.lean ====
section
/-! DEFINITION. The control commands NOP, CLEAR and CLRF (40_command_execution_and_control.md R68 to R70). -/

namespace Sys2Proof.Machine

/-- Every derived table in its reset value: CLEAR's writes (R69). The text, `TLEN` and `CTRL` are untouched. -/
def emptyTables (s : State) : State :=
  { s with
    freq := [], node := [], nleaf := 0, nnode := 0, root := 0
    scode := [], scnt := 0, ccode := [], ccnt := 0, out := [], outlen := 0 }

/-- `NOP` (R68): completes, and nothing else. -/
def execNop (s : State) : Host.Outcome State Fault Refusal := .next (completeOk s)

/-- `CLEAR` (R69). -/
def execClear (s : State) : Host.Outcome State Fault Refusal := .next (completeOk (emptyTables s))

/-- `CLRF` (R70, 60_exceptions.md R121): the return from a fault; it never faults. -/
def execClrf (s : State) : Host.Outcome State Fault Refusal := .next (completeOk (clearFault s))

end Sys2Proof.Machine
end

