-- ==== Sys2Proof/Machine/Counter.lean ====
section
/-! DEFINITION. The frequency counter, command FREQ (41_frequency_counter.md). -/

namespace Sys2Proof.Machine

/-- One more occurrence of `t`. -/
def countSymbol (t : Symbol) (m : Memory Count) : Memory Count := setFreq m t.toNat (freqAt m t.toNat + 1)

/-- The frequency table of a text (R74): every symbol's number of occurrences, from the empty table. The scan order is
not observable (R76). -/
def countSymbols (text : List Symbol) : Memory Count := text.foldr countSymbol []

/-- `FREQ` (R74): the whole table is replaced by the text's counts; it never faults. -/
def execFreq (s : State) : Host.Outcome State Fault Refusal :=
  .next (completeOk (putFreq (countSymbols (readText s)) (afterText s)))

end Sys2Proof.Machine
end

