-- ==== Sys2Proof/Machine/Deriver.lean ====
section
/-! DEFINITION. Code derivation, command DERIVE: the depth-first walk (43_code_derivation.md). -/

namespace Sys2Proof.Machine

/-- A leaf visited by the walk: its index, its symbol, and the path from the root to it. -/
structure Visit where
  ix : Nat
  sym : Symbol
  path : BitString
deriving DecidableEq, Repr

/-- The walk of R89 from node `k`, whose own path is `p`: '0' for left, '1' for right; each leaf emits the accumulated
path. `none`: the walk met an index that names no entry, or ran past `fuel` levels, which a tree of R21 never makes it do
(log entry 7). -/
def walk (nodes : List Node) : Nat → Nat → BitString → Option (List Visit)
  | 0, _, _ => none
  | fuel + 1, k, p =>
    match nodes[k]? with
    | none => none
    | some (.leaf sym _) => some [{ ix := k, sym := sym, path := p }]
    | some (.internal _ l r) =>
      match walk nodes fuel l.toNat (p ++ [false]), walk nodes fuel r.toNat (p ++ [true]) with
      | some xs, some ys => some (xs ++ ys)
      | _, _ => none

/-- The single-leaf policy (R90): with one leaf and `SLZ` = 1, its code is "0". -/
def applySlz (s : State) (vs : List Visit) : List Visit :=
  if s.nleaf.toNat = 1 && s.slz then vs.map (fun v => { v with path := [false] }) else vs

/-- The leaf of least index among those whose code is longer than `lenMax` (R91). -/
def leastOffender (lenMax : Nat) : List Visit → Option Visit
  | [] => none
  | v :: vs =>
    match leastOffender lenMax vs with
    | none => if lenMax < v.path.length then some v else none
    | some u => if lenMax < v.path.length && v.ix < u.ix then some v else some u

/-- The standard code table of the visited leaves (R88). -/
def standardTable (vs : List Visit) : Memory Code := tableOf (vs.map (fun v => (v.sym.toNat, codeOf v.path)))

/-- DERIVE on a tree: LEN_OVERFLOW if some code is too long (R91), else the table replaced whole (R88). -/
def deriveFrom (vs : List Visit) (s : State) : State :=
  match leastOffender s.cfg.lenMax vs with
  | some v => takeFault .lenOverflow (v.sym.setWidth 32) (BitVec.ofNat 32 v.path.length) s
  | none => completeOk (putScode (standardTable vs) s.nleaf s)

/-- `DERIVE` (R88): NO_TREE without a tree (R92), else the walk from the root. -/
def execDerive (s : State) : Host.Outcome State Fault Refusal :=
  if s.nnode = 0 then .next (takeFault .noTree 0 0 s)
  else
    match walk s.node s.node.length s.root.toNat [] with
    | none => .fault .nodeAbsent
    | some vs => .next (deriveFrom (applySlz s vs) s)

end Sys2Proof.Machine
end

