-- ==== Sys2Proof/Machine/Encoder.lean ====
section
/-! DEFINITION. The symbol-to-bitstring encoder, command ENCODE (45_encoder.md). -/

namespace Sys2Proof.Machine

/-- What encoding a text from position `i` on gives. -/
inductive Encoded where
  /-- The concatenated codes. -/
  | bits (b : BitString)
  /-- The least position whose symbol has no entry, and that symbol (R108). -/
  | missing (i : Nat) (sym : Symbol)
deriving DecidableEq, Repr

/-- Put one code before an encoded rest. -/
def Encoded.prepend (b : BitString) : Encoded → Encoded
  | .bits rest => .bits (b ++ rest)
  | .missing i sym => .missing i sym

/-- The loop of R105 over the text, in text order, from position `i` on. -/
def encodeText (t : Memory Code) : Nat → List Symbol → Encoded
  | _, [] => .bits []
  | i, sym :: rest =>
    match cellAt t sym.toNat with
    | none => .missing i sym
    | some c => (encodeText t (i + 1) rest).prepend (codeBits c)

/-- `ENCODE` (R105, R106): MISSING_SYMBOL at the least offending position, nothing emitted (R108), else the bitstream
replaced whole. -/
def execEncode (tsel : TableSel) (s : State) : Host.Outcome State Fault Refusal :=
  match encodeText (selectTable tsel s) 0 (readText s) with
  | .missing i sym => .next (takeFault .missingSymbol (BitVec.ofNat 32 i) (sym.setWidth 32) (afterText s))
  | .bits b => .next (completeOk (putOut b (afterText s)))

end Sys2Proof.Machine
end

