-- ==== Sys2Proof/Machine/Dispatch.lean ====
section
/-! DEFINITION. One arm per command: the meaning of each, as R65 lists them. -/

namespace Sys2Proof.Machine

/-- `exec` of 40_command_execution_and_control.md R65, with the completion's own writes. -/
def exec (i : Instr) (s : State) : Host.Outcome State Fault Refusal :=
  match i with
  | .nop => Sys2Proof.Machine.execNop s
  | .clear => Sys2Proof.Machine.execClear s
  | .freq => Sys2Proof.Machine.execFreq s
  | .build => Sys2Proof.Machine.execBuild s
  | .derive => Sys2Proof.Machine.execDerive s
  | .canon => Sys2Proof.Machine.execCanon s
  | .encode tsel => Sys2Proof.Machine.execEncode tsel s
  | .clrf => Sys2Proof.Machine.execClrf s

end Sys2Proof.Machine
end

