-- ==== Sys2Proof/Machine/Sequencer.lean ====
section
/-! DEFINITION. What moves the machine: the engine's completion step (40_command_execution_and_control.md R65), the host's
transactions and the reset event, in the one total order of 20_memory.md R50. -/

namespace Sys2Proof.Machine

/-- The completion step of R65: decode the latched word and execute it; an illegal word raises ILLEGAL_COMMAND with the
word as its information (30_encoding.md R57, 60_exceptions.md R113). -/
def complete (s : State) : Host.Outcome State Fault Refusal :=
  match decode s.cmdlat with
  | some i => exec i s
  | none => .next (takeFault .illegalCommand s.cmdlat 0 s)

/-- An instant of the engine: its step is enabled only while `BUSY` = 1 (R65). -/
def engineAct (s : State) : Host.Outcome State Fault Refusal := if s.stBusy then complete s else .next s

/-- One act on the machine. -/
def act (e : Event) (s : State) : Host.Outcome State Fault Refusal :=
  match e with
  | .read a => .next (busRead a s)
  | .write a v => .next (busWrite a v s)
  | .engine => engineAct s
  | .rst => .next (applyReset s)

/-- The next act: the first of the agenda, taken off it; with nothing on the agenda the engine moves, so that a command in
flight completes (R66), and an idle machine stays as it is (log entry 2). -/
def advance (s : State) : Host.Outcome State Fault Refusal :=
  match s.agenda with
  | [] => engineAct s
  | e :: rest => act e { s with agenda := rest }

/-- Whether the next act is the engine's. -/
def engineNext (s : State) : Bool :=
  match s.agenda with
  | [] => true
  | .engine :: _ => true
  | .read _ :: _ | .write _ _ :: _ | .rst :: _ => false

/-- The state with the next act taken off the agenda. -/
def popAgenda (s : State) : State := { s with agenda := s.agenda.tail }

/-- The state in which the command word `w` is in flight and the engine moves next: what a write of `w` to `CMD` and the
engine's turn make (R64), whatever the agenda held before, which stays behind it (log entry 9). -/
def withCommand (w : Word) (s : State) : State :=
  { issue w s with agenda := if engineNext s then s.agenda else .engine :: s.agenda }

end Sys2Proof.Machine
end

