-- ==== Sys2Proof/Machine/Step.lean ====
section
/-! DEFINITION. The machine's step, and the state in which the next step runs a given command word. -/

namespace Sys2Proof.Machine

/-- One step: the next act in the total order of 20_memory.md R50. -/
def step (s : State) : Host.Outcome State Fault Refusal := advance s

/-- `s` with the command word `w` (its low `nbits` bits, the rest 0) latched and in flight and the engine to move: the next
step completes exactly it (log entry 9). HTB has no program counter (10_state.md R15); the command it runs is `CMDLAT`. -/
def State.withFetchWord (s : State) (nbits w : Nat) : State := withCommand (BitVec.ofNat 32 (w % 2 ^ nbits)) s

end Sys2Proof.Machine
end

