-- ==== Sys2Proof/Machine/Script.lean ====
section
/-! DEFINITION. Host programs: the notation of 30_encoding.md R60 to R62, each statement as the acts it expands to. -/

namespace Sys2Proof.Machine

/-- `WR <loc>, <value>` (R60); a location without an address expands to nothing. -/
def scriptWr (l : Location) (v : Word) : List Event :=
  match addrOf l with
  | some a => [.write a v]
  | none => []

/-- `RD <loc>` (R60). -/
def scriptRd (l : Location) : List Event :=
  match addrOf l with
  | some a => [.read a]
  | none => []

/-- `CMD <mnemonic> [<operand>]` (R60): `WR CMD, <word>`. -/
def scriptCmd (i : Instr) : List Event := scriptWr (.reg .cmd) (encode i)

/-- `WAIT` (R61) in a run where `polls` reads of `STATUS` come before the engine's instant: R66 leaves their number open,
any number from zero up; the last read sees `BUSY` = 0. -/
def scriptWait (polls : Nat) : List Event :=
  (List.replicate polls (scriptRd (.reg .status))).flatten ++ [.engine] ++ scriptRd (.reg .status)

/-- `RUN <mnemonic> [<operand>]` (R61). -/
def scriptRun (polls : Nat) (i : Instr) : List Event := scriptCmd i ++ scriptWait polls

/-- `LOADTXT "c0 c1 …"` (R61): the symbols, then `TLEN`. -/
def scriptLoadTxt (text : List Symbol) : List Event :=
  (text.zipIdx.map (fun e => scriptWr (.txt e.2) (e.1.setWidth 32))).flatten ++
    scriptWr (.reg .tlen) (BitVec.ofNat 32 text.length)

/-- `LOADFREQ {s1:c1, …}` (R61): it does not zero the other cells. -/
def scriptLoadFreq (l : List (Symbol × Count)) : List Event :=
  (l.map (fun e => scriptWr (.freq e.1.toNat) e.2)).flatten

/-- `PIPELINE <tsel>` (R61): the document's whole control flow. -/
def scriptPipeline (polls : Nat) (t : TableSel) : List Event :=
  scriptRun polls .freq ++ scriptRun polls .build ++ scriptRun polls .derive ++ scriptRun polls .canon ++
    scriptRun polls (.encode t)

/-- The operand of ENCODE as it is written: `S` or `0`, `C` or `1` (R62). -/
def parseOperand (s : String) : Option TableSel :=
  if s = "S" then some .standard
  else if s = "0" then some .standard
  else if s = "C" then some .canonical
  else if s = "1" then some .canonical
  else none

/-- A command as it is written (R62): upper-case mnemonics; ENCODE's operand is mandatory and no other command takes
one. -/
def parseCommand (mnemonic : String) (operand : Option String) : Option Instr :=
  match operand with
  | some o => if mnemonic = "ENCODE" then (parseOperand o).map .encode else none
  | none =>
    if mnemonic = "NOP" then some .nop
    else if mnemonic = "CLEAR" then some .clear
    else if mnemonic = "FREQ" then some .freq
    else if mnemonic = "BUILD" then some .build
    else if mnemonic = "DERIVE" then some .derive
    else if mnemonic = "CANON" then some .canon
    else if mnemonic = "CLRF" then some .clrf
    else none

/-- The state with a host program's acts put on the agenda, after those already there: how a program comes to run
(log entry 9). -/
def withScript (l : List Event) (s : State) : State := { s with agenda := s.agenda ++ l }

end Sys2Proof.Machine
end

