-- ==== Sys2Proof/Safety.lean ====
section
/-! DEFINITION. What a safe state of HTB is: the invariants of 10_state.md R20 to R30 as predicates on State, in the terms
the claims use. -/

namespace Sys2Proof.Machine

/-! ### The tree (R20, R21) -/

/-- The frequency of a node. -/
def nodeFreq : Node → Nat
  | .leaf _ f => f.toNat
  | .internal f _ _ => f.toNat

/-- The children of a node, left first. -/
def nodeChildren : Node → List Nat
  | .leaf _ _ => []
  | .internal _ l r => [l.toNat, r.toNat]

/-- Whether a node is a leaf. -/
def nodeIsLeaf : Node → Bool
  | .leaf _ _ => true
  | .internal _ _ _ => false

/-- The symbol of a leaf, as a number; 0 of an internal node. -/
def nodeSym : Node → Nat
  | .leaf sym _ => sym.toNat
  | .internal _ _ _ => 0

/-- All `left` and `right` fields of a tree. -/
def childrenOf (nodes : List Node) : List Nat := nodes.flatMap nodeChildren

/-- `NODE[k].freq`; 0 where there is no entry. -/
def freqOf (nodes : List Node) (k : Nat) : Nat := (nodes[k]?.map nodeFreq).getD 0

/-- `NODE[k].sym`; 0 where there is no leaf. -/
def symOf (nodes : List Node) (k : Nat) : Nat := (nodes[k]?.map nodeSym).getD 0

/-- `[NODE[k].left, NODE[k].right]`; empty where there is no internal node. -/
def kidsOf (nodes : List Node) (k : Nat) : List Nat := (nodes[k]?.map nodeChildren).getD []

/-- The tree invariant R21, of a tree with `n` leaves. That every frequency is below 2^48 is the type of `Node`. -/
structure TreeInv (nodes : List Node) (n : Nat) : Prop where
  /-- R20: a tree has 1 to 65536 leaves … -/
  pos : 1 ≤ n
  le : n ≤ 65536
  /-- … and `NNODE` = 2n - 1 nodes. -/
  length : nodes.length = 2 * n - 1
  /-- R21 item 1: `NODE[0..n-1]` are leaves … -/
  leaf : ∀ j, j < n → nodes[j]?.map nodeIsLeaf = some true
  /-- … in strictly ascending symbol order. -/
  sorted : ∀ j, j + 1 < n → symOf nodes j < symOf nodes (j + 1)
  /-- R21 item 2: `NODE[n..2n-2]` are internal … -/
  internal : ∀ k, k < 2 * n - 1 → n ≤ k → nodes[k]?.map nodeIsLeaf = some false
  /-- … with children of lower index … -/
  below : ∀ k, k < 2 * n - 1 → ∀ c ∈ kidsOf nodes k, c < k
  /-- … that differ … -/
  apart : ∀ k, k < 2 * n - 1 → (kidsOf nodes k).Nodup
  /-- … and whose frequencies add up to the node's. -/
  sum : ∀ k, k < 2 * n - 1 → n ≤ k → freqOf nodes k = ((kidsOf nodes k).map (freqOf nodes)).sum
  /-- R21 item 3: every index but the root's occurs exactly once among the children … -/
  once : ∀ j, j < 2 * n - 2 → (childrenOf nodes).count j = 1
  /-- … and the root's in none. -/
  root : (childrenOf nodes).count (2 * n - 2) = 0
  /-- R21 item 4: every leaf frequency is at least 1. -/
  freqPos : ∀ j, j < n → 1 ≤ freqOf nodes j

/-- R20: no tree, or a tree of `NLEAF` leaves. -/
def TreeState (s : State) : Prop :=
  (s.nleaf = 0 ∧ s.nnode = 0 ∧ s.root = 0 ∧ s.node = []) ∨
    (TreeInv s.node s.nleaf.toNat ∧ s.nnode.toNat = 2 * s.nleaf.toNat - 1 ∧ s.root.toNat = 2 * s.nleaf.toNat - 2)

/-! ### The tables -/

/-- `FREQ` in canonical form: its indices are symbols, rising, and no listed count is 0 (R18). -/
structure FreqTable (m : Memory Count) : Prop where
  wf : Memory.wf m
  sym : ∀ e ∈ m, e.1 < numSymbols
  nonzero : ∀ e ∈ m, e.2 ≠ 0

/-- A code table in canonical form: its indices are symbols, rising (R22, R23). -/
structure CodeTable (m : Memory Code) : Prop where
  wf : Memory.wf m
  sym : ∀ e ∈ m, e.1 < numSymbols

/-- `TXT` in canonical form: its indices are those of cells, rising (R16). -/
structure TextTable (textMax : Nat) (m : Memory Symbol) : Prop where
  wf : Memory.wf m
  cell : ∀ e ∈ m, e.1 < textMax

/-- R30 item 4: every entry's length is at most `LEN_MAX` and its value fits its length. -/
def CodesFit (lenMax : Nat) (m : Memory Code) : Prop := ∀ e ∈ m, e.2.len ≤ lenMax ∧ e.2.val < 2 ^ e.2.len

/-- Neither code is a prefix of the other (00_scope.md R10). -/
def CodesApart (c d : Code) : Prop := ¬ codeBits c <+: codeBits d ∧ ¬ codeBits d <+: codeBits c

/-- R30 item 5: the codes of different symbols are no prefixes of each other. -/
def PrefixFree (m : Memory Code) : Prop :=
  ∀ a b c d, a ≠ b → cellAt m a = some c → cellAt m b = some d → CodesApart c d

/-- `Σ_s 2^(lenMax - len(s))`: the Kraft sum of R94, scaled by 2^`lenMax` so that it is a natural number where every
length is at most `lenMax`. -/
def kraftSum (lenMax : Nat) (m : Memory Code) : Nat := (m.map (fun e => 2 ^ (lenMax - e.2.len))).sum

/-! ### The invariants -/

/-- R30 items 7 and 8: the flags and the fault record. -/
structure StatusInv (s : State) : Prop where
  busy : s.stBusy = true → s.stDone = false
  fault : s.stFault = true → s.stDone = false
  clrf : s.stBusy = true → s.stFault = true → s.cmdlat = 0x00000007#32
  noRecord : s.stFault = false → s.fcode = 0 ∧ s.finfo0 = 0 ∧ s.finfo1 = 0
  record : s.stFault = true → 1 ≤ s.fcode.toNat ∧ s.fcode.toNat ≤ 6

/-- Every memory of the machine is in canonical form, so that equal memories are equal data. -/
structure MemoryInv (s : State) : Prop where
  txt : TextTable s.cfg.textMax s.txt
  freq : FreqTable s.freq
  scode : CodeTable s.scode
  ccode : CodeTable s.ccode

/-- R30 items 1, 4 and 6, and legal parameters (R7): every value is within its bound. -/
structure BoundsInv (s : State) : Prop where
  cfg : s.cfg.wf
  tlen : s.tlen.toNat ≤ s.cfg.textMax
  scode : CodesFit s.cfg.lenMax s.scode
  ccode : CodesFit s.cfg.lenMax s.ccode
  outlen : s.outlen.toNat = s.out.length
  out : s.out.length ≤ s.cfg.outMax

/-- R30, all eight items, with what makes it inductive: the canonical forms, and the Kraft sum of the standard table,
at most 1 (R94), on which CANON relies (R99). -/
structure MachineInv (s : State) : Prop where
  status : StatusInv s
  memory : MemoryInv s
  bounds : BoundsInv s
  /-- R30 item 2. -/
  tree : TreeState s
  /-- R30 item 3. -/
  scnt : s.scnt.toNat = s.scode.length
  ccnt : s.ccnt.toNat = s.ccode.length
  /-- R30 item 5. -/
  sprefix : PrefixFree s.scode
  cprefix : PrefixFree s.ccode
  kraft : kraftSum s.cfg.lenMax s.scode ≤ 2 ^ s.cfg.lenMax

/-- The machine's own state (R13), without the model's own fields: what a transaction that "never changes any state"
leaves as it was. -/
def SameMachine (s t : State) : Prop := { t with agenda := s.agenda, reads := s.reads, freeIx := s.freeIx } = s

/-- Everything but the flags, the fault record and the model's count of free values is unchanged: what a faulting command
leaves (R67, R119). -/
def SameButFaultRecord (s t : State) : Prop :=
  { t with
    stBusy := s.stBusy, stDone := s.stDone, stFault := s.stFault
    fcode := s.fcode, finfo0 := s.finfo0, finfo1 := s.finfo1, freeIx := s.freeIx } = s

/-- Path functions of a tree (R89): the root's path is `ε`, a left child's is its parent's and "0", a right child's its
parent's and "1". -/
structure PathOf (nodes : List Node) (root : Nat) (path : Nat → BitString) : Prop where
  root : path root = []
  left : ∀ (k : Nat) f l r, nodes[k]? = some (.internal f l r) → path l.toNat = path k ++ [false]
  right : ∀ (k : Nat) f l r, nodes[k]? = some (.internal f l r) → path r.toNat = path k ++ [true]

/-- The code DERIVE gives leaf `j` whose path is `p`: `p`, but "0" for the only leaf under `SLZ` = 1 (R88, R90). -/
def standardCode (s : State) (p : BitString) : BitString :=
  if s.nleaf.toNat = 1 && s.slz then [false] else p

end Sys2Proof.Machine
end

