-- ==== Sys2Proof/Certificates/Slice0/Obligations.lean ====
section
/-! DEFINITION. The statements about the model, for the provers: each formalises rules of the spec, cited in its
docstring. Nothing is proved here. -/

open Sys2Proof Sys2Proof.Machine

/-! ### Reset -/

/-- R33: after reset every flag, register, count and fault word is 0, every table is empty, every `TXT` cell is
unwritten, and the machine is idle and stays so while the agenda is empty (an empty agenda is the model's own, log
entry 2). -/
def Obligations.ResetLeavesEverythingEmpty : Prop :=
  (State.reset.stBusy = false ∧ State.reset.stDone = false ∧ State.reset.stFault = false ∧
    State.reset.stDrop = false) ∧
  State.reset.cmdlat = 0 ∧ State.reset.slz = false ∧ State.reset.tlen = 0 ∧
  (State.reset.fcode = 0 ∧ State.reset.finfo0 = 0 ∧ State.reset.finfo1 = 0) ∧
  (State.reset.nleaf = 0 ∧ State.reset.nnode = 0 ∧ State.reset.root = 0 ∧ State.reset.node = []) ∧
  (∀ sym, freqAt State.reset.freq sym = 0) ∧
  (∀ sym, cellAt State.reset.scode sym = none ∧ cellAt State.reset.ccode sym = none) ∧
  State.reset.scnt = 0 ∧ State.reset.ccnt = 0 ∧ State.reset.out = [] ∧ State.reset.outlen = 0 ∧
  (∀ i, cellAt State.reset.txt i = none) ∧
  step State.reset = .next State.reset

/-- R128: the reset event makes exactly the reset state of the same instance, whatever the machine was doing; a command in
flight is abandoned without any of its writes and without a fault. The acts to come and what the host has read are not
the machine's (log entry 8). -/
def Obligations.ResetEventRestoresResetState : Prop :=
  ∀ (s : State) (rest : List Event), s.agenda = .rst :: rest →
    step s = .next { State.reset with cfg := s.cfg, agenda := rest, reads := s.reads, freeIx := s.freeIx }

/-- R30 at reset, of every legal instance (R7), whatever is on the agenda. -/
def Obligations.ResetMeetsMachineInvariant : Prop :=
  ∀ (cfg : Config) (agenda : List Event), cfg.wf → MachineInv { State.reset with cfg := cfg, agenda := agenda }

/-! ### Invariants that every step keeps -/

/-- R30 items 7 and 8: `BUSY` or `FAULT` excludes `DONE`, only a CLRF is in flight while a fault is recorded, and the fault
record is zero exactly when none is. -/
def Obligations.StepKeepsFlagsAndFaultRecord : Prop :=
  ∀ s t, StatusInv s → step s = .next t → StatusInv t

/-- Every step keeps every memory in canonical form: indices rising and in range, no listed zero count (log entry 1). -/
def Obligations.StepKeepsMemoriesCanonical : Prop :=
  ∀ s t, MemoryInv s → step s = .next t → MemoryInv t

/-- R30 items 1, 4 and 6: `TLEN`, every code, `OUTLEN` and `OUT` stay within their bounds (R7, R107). -/
def Obligations.StepKeepsBounds : Prop :=
  ∀ s t, BoundsInv s → step s = .next t → BoundsInv t

/-- R30 item 2: no step leaves anything but no tree or a tree of R21 (R85). -/
def Obligations.StepKeepsTree : Prop :=
  ∀ s t, MemoryInv s → TreeState s → step s = .next t → TreeState t

/-- R30, all eight items: every step keeps the machine invariant. -/
def Obligations.StepKeepsMachineInvariant : Prop :=
  ∀ s t, MachineInv s → step s = .next t → MachineInv t

/-- The machine invariant in every state reached from reset, of any legal instance, under any host transactions, engine
instants and resets, in any order. It holds the eight items of R30 and two clauses more: the canonical form of the memories,
which is the model's own (log entry 1), and R94's bound on the Kraft sum of the standard table. -/
def Obligations.ReachableStatesMeetMachineInvariant : Prop :=
  ∀ (cfg : Config) (agenda : List Event) (k : Nat) (t : State), cfg.wf →
    Host.Core.run Sys2Proof.core k { State.reset with cfg := cfg, agenda := agenda } = .next t → MachineInv t

/-- R66, R53, R99: from a state that meets the invariant a step never stops, and when the engine moves the command in flight
completes: `BUSY` falls, and either `DONE` or `FAULT` is set, not both. -/
def Obligations.NothingHangs : Prop :=
  ∀ s, MachineInv s →
    ∃ t, step s = .next t ∧
      (s.stBusy = true → engineNext s = true → t.stBusy = false ∧ t.stDone = !t.stFault)

/-! ### Encoding -/

/-- R59: decoding the encoding of a command gives it back. -/
def Obligations.DecodeInvertsEncode : Prop :=
  ∀ i, Instr.wf i = true → decode (encode i) = some i

/-- R59: each legal word has one meaning: encoding what a word decodes to gives the word back, so no bit is ignored. -/
def Obligations.EncodeInvertsDecode : Prop :=
  ∀ w i, decode w = some i → encode i = w

/-- R57: a word decodes to a command exactly when its reserved bits are zero, its opcode is at most 0x07, and `TSEL` is 0 or
the opcode is ENCODE's; every other word is illegal. -/
def Obligations.DecodeAcceptsExactlyLegalWords : Prop :=
  ∀ w, (decode w).isSome = true ↔
    (w.extractLsb' 9 23 = 0 ∧ (w.extractLsb' 0 8).toNat ≤ 0x07 ∧
      (w.getLsbD 8 = false ∨ w.extractLsb' 0 8 = 0x06#8))

/-- R63: exactly nine words are legal, and what each stands for. -/
def Obligations.NineWordsAreLegal : Prop :=
  ∀ w i, decode w = some i ↔
    (w = 0x00000000#32 ∧ i = .nop) ∨ (w = 0x00000001#32 ∧ i = .clear) ∨ (w = 0x00000002#32 ∧ i = .freq) ∨
    (w = 0x00000003#32 ∧ i = .build) ∨ (w = 0x00000004#32 ∧ i = .derive) ∨ (w = 0x00000005#32 ∧ i = .canon) ∨
    (w = 0x00000006#32 ∧ i = .encode .standard) ∨ (w = 0x00000106#32 ∧ i = .encode .canonical) ∨
    (w = 0x00000007#32 ∧ i = .clrf)

/-- R63: words written out bit by bit from R54's fields decode to the commands they stand for, and their nearest
neighbours do not decode. -/
def Obligations.SampleWordsDecode : Prop :=
  decode 0b00000000000000000000000000000011#32 = some .build ∧
  decode 0b00000000000000000000000100000110#32 = some (.encode .canonical) ∧
  decode 0b00000000000000000000000000000111#32 = some .clrf ∧
  decode 0b00000000000000000000000100000011#32 = none ∧
  decode 0b00000000000000000000001000000110#32 = none ∧
  decode 0b00000000000000000000000000001000#32 = none

/-! ### The life of a command -/

/-- R65: with a command in flight and the engine to move, the step is `exec` of the command the latched word decodes to, in
the state with the engine's instant taken off the agenda; while idle an engine instant does nothing else. -/
def Obligations.StepRunsDecodedCommand : Prop :=
  (∀ s i, s.stBusy = true → engineNext s = true → decode s.cmdlat = some i → step s = exec i (popAgenda s)) ∧
  (∀ s, s.stBusy = false → engineNext s = true → step s = .next (popAgenda s))

/-- R57, R113: the completion of an illegal word raises ILLEGAL_COMMAND with the word in `FINFO0`, and changes nothing
else. -/
def Obligations.IllegalWordRaisesIllegalCommand : Prop :=
  ∀ s, s.stBusy = true → engineNext s = true → decode s.cmdlat = none →
    step s = .next { popAgenda s with
      stBusy := false, stDone := false, stFault := true, fcode := 1, finfo0 := s.cmdlat, finfo1 := 0 }

/-- R64, R120: a host write to `CMD` issues its word, legal or not, iff the machine is idle and no fault is recorded or the
word is CLRF's; otherwise it is dropped: no issue, `CMDLAT` and the fault record unchanged. -/
def Obligations.CommandWriteIssuesOrIsDropped : Prop :=
  ∀ (s : State) (w : Word) (rest : List Event), s.agenda = .write 0x000000#23 w :: rest →
    ((s.stBusy = false ∧ (s.stFault = false ∨ w = 0x00000007#32)) →
      step s = .next { s with agenda := rest, cmdlat := w, stBusy := true, stDone := false }) ∧
    (¬ (s.stBusy = false ∧ (s.stFault = false ∨ w = 0x00000007#32)) →
      step s = .next { s with agenda := rest, stDrop := true })

/-- R67, R119, R122: whatever the command, a completion is without fault (`DONE` set, `FAULT` not raised), or with a fault,
and then nothing changed but the flags and the fault record, whose code is that of one of the command's own causes. -/
def Obligations.CompletionIsOkOrCleanFault : Prop :=
  ∀ i s t, exec i s = .next t →
    t.stBusy = false ∧
    ((t.stDone = true ∧ (t.stFault = true → s.stFault = true)) ∨
      (t.stDone = false ∧ t.stFault = true ∧ SameButFaultRecord s t ∧
        ((i = .build ∧ t.fcode = 2 ∧ t.finfo0 = 0 ∧ t.finfo1 = 0) ∨
          (i = .derive ∧ t.fcode = 3 ∧ t.finfo0 = 0 ∧ t.finfo1 = 0) ∨
          (i = .derive ∧ t.fcode = 4) ∨
          (i = .canon ∧ t.fcode = 5 ∧ t.finfo0 = 0 ∧ t.finfo1 = 0) ∨
          (∃ tsel, i = .encode tsel ∧ t.fcode = 6))))

/-- R72: no command writes anything but its own outputs, the flags and the fault record: not the text, not `TLEN`, not
`CTRL`, not `CMDLAT`, not its own input, not another command's output (CLEAR and CLRF have the outputs R72 lists). -/
def Obligations.CommandsWriteOnlyTheirOutputs : Prop :=
  ∀ i s t, exec i s = .next t →
    (t.cfg = s.cfg ∧ t.txt = s.txt ∧ t.tlen = s.tlen ∧ t.slz = s.slz ∧ t.cmdlat = s.cmdlat ∧ t.agenda = s.agenda ∧
      t.reads = s.reads) ∧
    (i ≠ .clear → i ≠ .freq → t.freq = s.freq) ∧
    (i ≠ .clear → i ≠ .build → t.node = s.node ∧ t.nleaf = s.nleaf ∧ t.nnode = s.nnode ∧ t.root = s.root) ∧
    (i ≠ .clear → i ≠ .derive → t.scode = s.scode ∧ t.scnt = s.scnt) ∧
    (i ≠ .clear → i ≠ .canon → t.ccode = s.ccode ∧ t.ccnt = s.ccnt) ∧
    (i ≠ .clear → (∀ tsel, i ≠ .encode tsel) → t.out = s.out ∧ t.outlen = s.outlen) ∧
    (i ≠ .clrf → t.stDrop = s.stDrop ∧
      (t.stDone = true → t.stFault = s.stFault ∧ t.fcode = s.fcode ∧ t.finfo0 = s.finfo0 ∧ t.finfo1 = s.finfo1))

/-- R25, R121, R123: a recorded fault ends only by the completion of CLRF or by reset, and until then its record does not
change: no second fault can overwrite it. -/
def Obligations.FaultEndsOnlyByClrfOrReset : Prop :=
  ∀ s t, StatusInv s → s.stFault = true → step s = .next t →
    (t.stFault = true ∧ t.fcode = s.fcode ∧ t.finfo0 = s.finfo0 ∧ t.finfo1 = s.finfo1) ∨
    (engineNext s = true ∧ s.stBusy = true ∧ s.cmdlat = 0x00000007#32) ∨
    (∃ rest, s.agenda = .rst :: rest)

/-- R44: no host transaction alters a table that a command produced (but `FREQ`): the tree, the code tables and the
bitstream, their counts, and the fault record are unchanged, and the state is as it was but for the location written. -/
def Obligations.HostActsLeaveProducedTables : Prop :=
  ∀ s t, (∃ a, s.agenda.head? = some (.read a)) ∨ (∃ a v, s.agenda.head? = some (.write a v)) → step s = .next t →
    { t with
      agenda := s.agenda, reads := s.reads, freeIx := s.freeIx, txt := s.txt, tlen := s.tlen, freq := s.freq
      slz := s.slz, cmdlat := s.cmdlat, stBusy := s.stBusy, stDone := s.stDone, stDrop := s.stDrop } = s

/-- R50, R52, R65: between issue and completion nothing but `DROP` can change: with a command in flight and a host
transaction to come, the state after the step is the state before it, but for `DROP` and the model's own fields. So a
command completes on the state of its issue. -/
def Obligations.BusyFreezesState : Prop :=
  ∀ s t, s.stBusy = true → engineNext s = false → s.agenda.head? ≠ some .rst → step s = .next t →
    { t with agenda := s.agenda, reads := s.reads, freeIx := s.freeIx, stDrop := s.stDrop } = s ∧
      t.agenda = s.agenda.tail

/-! ### The control commands -/

/-- R68: NOP completes and changes nothing else; it does not clear `DROP`. -/
def Obligations.NopOnlyCompletes : Prop :=
  ∀ s, exec .nop s = .next { s with stBusy := false, stDone := true }

/-- R69: CLEAR empties every derived table and leaves the text, `TLEN`, `CTRL`, `CMDLAT`, `DROP` and the fault record as they
were. -/
def Obligations.ClearEmptiesTables : Prop :=
  ∀ s, ∃ t, exec .clear s = .next t ∧ t.stBusy = false ∧ t.stDone = true ∧
    (∀ sym, freqAt t.freq sym = 0 ∧ cellAt t.scode sym = none ∧ cellAt t.ccode sym = none) ∧
    t.nleaf = 0 ∧ t.nnode = 0 ∧ t.root = 0 ∧ (∀ k, nodeEntry t k = none) ∧ t.scnt = 0 ∧ t.ccnt = 0 ∧
    t.out = [] ∧ t.outlen = 0 ∧
    { t with
      stBusy := s.stBusy, stDone := s.stDone, freq := s.freq, node := s.node, nleaf := s.nleaf, nnode := s.nnode
      root := s.root, scode := s.scode, scnt := s.scnt, ccode := s.ccode, ccnt := s.ccnt, out := s.out
      outlen := s.outlen } = s

/-- R70: CLRF clears `FAULT`, `DROP` and the fault record and completes; nothing else changes. -/
def Obligations.ClrfClearsFaultRecord : Prop :=
  ∀ s, exec .clrf s = .next { s with
    stBusy := false, stDone := true, stFault := false, stDrop := false, fcode := 0, finfo0 := 0, finfo1 := 0 }

/-! ### The host bus -/

/-- R39: a read changes no state of the machine; it returns the `STATUS` word at all times, and the view of its location
while idle (what it returns of another location while busy is a free value, of which nothing is said). -/
def Obligations.ReadReturnsViewAndChangesNothing : Prop :=
  ∀ (s : State) (a : Addr) (rest : List Event), s.agenda = .read a :: rest →
    ∃ t w, step s = .next t ∧ t.agenda = rest ∧ t.reads = w :: s.reads ∧ SameMachine s t ∧
      (a = 0x000001#23 → w = statusWord s) ∧
      (a ≠ 0x000001#23 → s.stBusy = false → w = view s (locate s.cfg a))

/-- R40: the registers as the host reads them while idle, and the places of the four flags in `STATUS`. -/
def Obligations.RegisterViews : Prop :=
  ∀ s, (∀ p, (memRead s 0x1#23).getLsbD p =
      ((decide (p = 0) && s.stBusy) || (decide (p = 1) && s.stDone) || (decide (p = 2) && s.stFault) ||
        (decide (p = 3) && s.stDrop))) ∧
    (s.stBusy = false →
      memRead s 0x0#23 = s.cmdlat ∧ memRead s 0x2#23 = (if s.slz then 1 else 0) ∧
      (memRead s 0x3#23).toNat = s.tlen.toNat ∧ (memRead s 0x4#23).toNat = s.fcode.toNat ∧
      memRead s 0x5#23 = s.finfo0 ∧ memRead s 0x6#23 = s.finfo1 ∧
      (memRead s 0x7#23).toNat = s.nleaf.toNat ∧ (memRead s 0x8#23).toNat = s.nnode.toNat ∧
      (memRead s 0x9#23).toNat = s.root.toNat ∧ (memRead s 0xA#23).toNat = s.scnt.toNat ∧
      (memRead s 0xB#23).toNat = s.ccnt.toNat ∧ (memRead s 0xC#23).toNat = s.outlen.toNat ∧
      memRead s 0xD#23 = 0 ∧ memRead s 0xE#23 = 0 ∧ memRead s 0xF#23 = 0)

/-- R41, R45: `FREQ[s]` reads as its count, a written `TXT` cell as its symbol zero-extended, an unwritten one as some
16-bit value zero-extended, a `TXT` address past `TEXT_MAX` as 0. -/
def Obligations.FreqAndTextViews : Prop :=
  ∀ s, s.cfg.wf → s.stBusy = false →
    (∀ sym : Symbol, memRead s (BitVec.ofNat 23 (0x010000 + sym.toNat)) = freqAt s.freq sym.toNat) ∧
    (∀ (i : Nat) (sym : Symbol), i < s.cfg.textMax → cellAt s.txt i = some sym →
      (memRead s (BitVec.ofNat 23 (0x200000 + i))).toNat = sym.toNat) ∧
    (∀ i, i < s.cfg.textMax → (memRead s (BitVec.ofNat 23 (0x200000 + i))).toNat < 2 ^ 16) ∧
    (∀ i, s.cfg.textMax ≤ i → i < 0x100000 → memRead s (BitVec.ofNat 23 (0x200000 + i)) = 0)

/-- R42: an entry of either code table as the host reads it: bit 31 set and the length in bits 6:0 of word 0, the 64-bit
value in words 1 and 2, word 3 zero; an absent entry reads four zeros. -/
def Obligations.CodeEntryView : Prop :=
  ∀ (s : State) (base : Nat) (table : Memory Code) (sym : Symbol), s.stBusy = false →
    (base = 0x040000 ∧ table = s.scode) ∨ (base = 0x080000 ∧ table = s.ccode) →
    (cellAt table sym.toNat = none → ∀ w, w < 4 → memRead s (BitVec.ofNat 23 (base + 4 * sym.toNat + w)) = 0) ∧
    (∀ c, cellAt table sym.toNat = some c → c.len ≤ 64 → c.val < 2 ^ c.len →
      (memRead s (BitVec.ofNat 23 (base + 4 * sym.toNat))).toNat = 2 ^ 31 + c.len ∧
      (memRead s (BitVec.ofNat 23 (base + 4 * sym.toNat + 1))).toNat +
        2 ^ 32 * (memRead s (BitVec.ofNat 23 (base + 4 * sym.toNat + 2))).toNat = c.val ∧
      memRead s (BitVec.ofNat 23 (base + 4 * sym.toNat + 3)) = 0)

/-- R43: a node entry as the host reads it, word by word; an entry from `NNODE` on reads eight zeros. -/
def Obligations.NodeEntryView : Prop :=
  ∀ (s : State) (k : Nat), s.stBusy = false → k < 131072 →
    (s.nnode.toNat ≤ k → ∀ w, w < 8 → memRead s (BitVec.ofNat 23 (0x100000 + 8 * k + w)) = 0) ∧
    (∀ sym f, k < s.nnode.toNat → s.node[k]? = some (.leaf sym f) →
      (memRead s (BitVec.ofNat 23 (0x100000 + 8 * k))).toNat = 2 ^ 31 + 2 ^ 30 + sym.toNat ∧
      (memRead s (BitVec.ofNat 23 (0x100000 + 8 * k + 1))).toNat +
        2 ^ 32 * (memRead s (BitVec.ofNat 23 (0x100000 + 8 * k + 2))).toNat = f.toNat ∧
      ∀ w, 3 ≤ w → w < 8 → memRead s (BitVec.ofNat 23 (0x100000 + 8 * k + w)) = 0) ∧
    (∀ f l r, k < s.nnode.toNat → s.node[k]? = some (.internal f l r) →
      (memRead s (BitVec.ofNat 23 (0x100000 + 8 * k))).toNat = 2 ^ 31 ∧
      (memRead s (BitVec.ofNat 23 (0x100000 + 8 * k + 1))).toNat +
        2 ^ 32 * (memRead s (BitVec.ofNat 23 (0x100000 + 8 * k + 2))).toNat = f.toNat ∧
      (memRead s (BitVec.ofNat 23 (0x100000 + 8 * k + 3))).toNat = l.toNat ∧
      (memRead s (BitVec.ofNat 23 (0x100000 + 8 * k + 4))).toNat = r.toNat ∧
      ∀ w, 5 ≤ w → w < 8 → memRead s (BitVec.ofNat 23 (0x100000 + 8 * k + w)) = 0)

/-- R46: stream bit `t` is in word `t div 32` of the `OUT` window at bit position `31 - (t mod 32)`; every bit past the end
reads 0. -/
def Obligations.OutViewBitByBit : Prop :=
  ∀ (s : State) (j p : Nat), s.stBusy = false → s.outlen.toNat = s.out.length → j < 2097152 → p < 32 →
    (memRead s (BitVec.ofNat 23 (0x400000 + j))).getLsbD p = (s.out[32 * j + (31 - p)]?).getD false

/-- R38, R44: an unmapped address reads 0 while idle, and a write to it is always dropped. -/
def Obligations.UnmappedAddresses : Prop :=
  ∀ (s : State) (a : Addr), s.cfg.wf →
    (0x000010 ≤ a.toNat ∧ a.toNat ≤ 0x00FFFF) ∨ (0x020000 ≤ a.toNat ∧ a.toNat ≤ 0x03FFFF) ∨
      (0x0C0000 ≤ a.toNat ∧ a.toNat ≤ 0x0FFFFF) ∨ (0x300000 ≤ a.toNat ∧ a.toNat ≤ 0x3FFFFF) ∨
      (0x600000 ≤ a.toNat ∧ a.toNat ≤ 0x7FFFFF) ∨ (0x200000 + s.cfg.textMax ≤ a.toNat ∧ a.toNat ≤ 0x2FFFFF) →
    (s.stBusy = false → memRead s a = 0) ∧ ∀ v, busWrite a v s = { s with stDrop := true }

/-- R44: a host write is dropped, setting `DROP` and changing nothing else, when a command is in flight, or when its
address is none of the writable locations: `CMD`, `CTRL`, `TLEN`, the `FREQ` window, the `TXT` window below `TEXT_MAX`. -/
def Obligations.WritesDropped : Prop :=
  ∀ (s : State) (a : Addr) (v : Word) (rest : List Event), s.cfg.wf → s.agenda = .write a v :: rest →
    (s.stBusy = true ∨
      ¬ (a.toNat = 0 ∨ a.toNat = 2 ∨ a.toNat = 3 ∨ (0x010000 ≤ a.toNat ∧ a.toNat ≤ 0x01FFFF) ∨
        (0x200000 ≤ a.toNat ∧ a.toNat < 0x200000 + s.cfg.textMax))) →
    step s = .next { s with agenda := rest, stDrop := true }

/-- R47: while idle, `CTRL` takes bit 0 of any word, `TLEN` takes any value up to `TEXT_MAX` (all 32 bits compared) and drops
a larger one, and the other registers but `CMD` drop every write. -/
def Obligations.RegisterWrites : Prop :=
  ∀ (s : State) (v : Word) (rest : List Event), s.cfg.wf → s.stBusy = false →
    (s.agenda = .write 0x2#23 v :: rest → step s = .next { s with agenda := rest, slz := v.getLsbD 0 }) ∧
    (s.agenda = .write 0x3#23 v :: rest →
      (v.toNat ≤ s.cfg.textMax →
        ∃ n, n.toNat = v.toNat ∧ step s = .next { s with agenda := rest, tlen := n }) ∧
      (s.cfg.textMax < v.toNat → step s = .next { s with agenda := rest, stDrop := true })) ∧
    (∀ a : Addr, a.toNat = 1 ∨ (4 ≤ a.toNat ∧ a.toNat ≤ 15) → s.agenda = .write a v :: rest →
      step s = .next { s with agenda := rest, stDrop := true })

/-- R48: while idle, faulted or not, a write to `TXT[i]` writes that cell with bits 15:0 and no other, and a write to
`FREQ[sym]` writes that count with all 32 bits and no other; nothing else changes. -/
def Obligations.TextAndFreqCellWrites : Prop :=
  ∀ (s : State) (v : Word) (rest : List Event), s.cfg.wf → s.stBusy = false →
    (∀ i, i < s.cfg.textMax → s.agenda = .write (BitVec.ofNat 23 (0x200000 + i)) v :: rest →
      ∃ t, step s = .next t ∧ cellAt t.txt i = some (v.setWidth 16) ∧
        (∀ j, j ≠ i → cellAt t.txt j = cellAt s.txt j) ∧ { t with agenda := s.agenda, txt := s.txt } = s ∧
        t.agenda = rest) ∧
    (∀ sym : Symbol, s.agenda = .write (BitVec.ofNat 23 (0x010000 + sym.toNat)) v :: rest →
      ∃ t, step s = .next t ∧ freqAt t.freq sym.toNat = v ∧
        (∀ j, j ≠ sym.toNat → freqAt t.freq j = freqAt s.freq j) ∧
        { t with agenda := s.agenda, freq := s.freq } = s ∧ t.agenda = rest)

/-! ### FREQ -/

/-- R16: the text a command reads has `TLEN` symbols, and a written cell is read as what was written in it (an unwritten
one gives a free value, of which nothing is said). -/
def Obligations.TextReadsWrittenCells : Prop :=
  ∀ s, (readText s).length = s.tlen.toNat ∧
    ∀ i sym, i < s.tlen.toNat → cellAt s.txt i = some sym → (readText s)[i]? = some sym

/-- R74: FREQ completes, with every symbol's count the number of its occurrences in the text, exactly, whatever `FREQ` held;
nothing else of the machine changes. -/
def Obligations.FreqCountsTheText : Prop :=
  ∀ s, ∃ t, exec .freq s = .next t ∧ t.stBusy = false ∧ t.stDone = true ∧
    (∀ sym : Symbol, (freqAt t.freq sym.toNat).toNat = (readText s).count sym) ∧
    { t with freq := s.freq, freeIx := s.freeIx, stBusy := s.stBusy, stDone := s.stDone } = s

/-- R75: after FREQ the counts add up to the text's length, a symbol has an entry exactly when it occurs, and there are at
most min(`TLEN`, 65536) entries. -/
def Obligations.FreqTableSumsToTextLength : Prop :=
  ∀ s t, exec .freq s = .next t →
    (∑ k ∈ Finset.range numSymbols, (freqAt t.freq k).toNat) = s.tlen.toNat ∧
    (∀ sym : Symbol, freqAt t.freq sym.toNat ≠ 0 ↔ sym ∈ readText s) ∧
    ((Finset.range numSymbols).filter (fun k => freqAt t.freq k ≠ 0)).card ≤ min s.tlen.toNat numSymbols

/-! ### BUILD -/

/-- R78: `extract_min` of a non-empty queue of distinct nodes takes one of them out, the one whose key (frequency, then
index) is below every other's. -/
def Obligations.ExtractMinTakesLeastKey : Prop :=
  ∀ q : List QEntry, q ≠ [] → (q.map QEntry.ix).Nodup →
    ∃ m r, extractMin q = some (m, r) ∧ q.Perm (m :: r) ∧
      ∀ x ∈ r, m.freq < x.freq ∨ (m.freq = x.freq ∧ m.ix < x.ix)

/-- R86: BUILD on the empty table raises EMPTY_FREQ and changes nothing else; an earlier tree stays. -/
def Obligations.BuildEmptyTableFaults : Prop :=
  ∀ s, FreqTable s.freq → (∀ sym, freqAt s.freq sym = 0) →
    exec .build s = .next { s with
      stBusy := false, stDone := false, stFault := true, fcode := 2, finfo0 := 0, finfo1 := 0 }

/-- R80, R85 (a), (b): BUILD on a table with entries completes with a tree of R21, of as many leaves as the table has
entries, its root the highest index; nothing but the tree changes. -/
def Obligations.BuildMakesTheTree : Prop :=
  ∀ s, FreqTable s.freq → (∃ sym, freqAt s.freq sym ≠ 0) →
    ∃ t, exec .build s = .next t ∧ t.stBusy = false ∧ t.stDone = true ∧
      TreeInv t.node t.nleaf.toNat ∧
      t.nleaf.toNat = ((Finset.range numSymbols).filter (fun k => freqAt s.freq k ≠ 0)).card ∧
      t.nnode.toNat = 2 * t.nleaf.toNat - 1 ∧ t.root.toNat = 2 * t.nleaf.toNat - 2 ∧
      { t with
        node := s.node, nleaf := s.nleaf, nnode := s.nnode, root := s.root
        stBusy := s.stBusy, stDone := s.stDone } = s

/-- R79, R85 (c): the leaves BUILD makes are exactly the symbols with an entry, each with its count as frequency. -/
def Obligations.BuildLeavesAreTheSymbols : Prop :=
  ∀ s t, FreqTable s.freq → exec .build s = .next t → t.stDone = true →
    ∀ (sym : Symbol) (f : NodeFreq),
      (∃ j, j < t.nleaf.toNat ∧ t.node[j]? = some (.leaf sym f)) ↔
        (freqAt s.freq sym.toNat ≠ 0 ∧ f.toNat = (freqAt s.freq sym.toNat).toNat)

/-- R80, R82: each pass merges the two nodes of least key, the lesser to the left. Of the node `k` a pass makes, the left
child's key is below the right child's, and the right child's is below that of every other node the queue then holds: every
node made before `k` that is no child of a node made before `k`. -/
def Obligations.BuildMergesTheTwoLeast : Prop :=
  ∀ s t, FreqTable s.freq → exec .build s = .next t → t.stDone = true →
    ∀ (k : Nat) (f : NodeFreq) (l r : NodeIx), t.node[k]? = some (.internal f l r) →
      (freqOf t.node l.toNat < freqOf t.node r.toNat ∨
        (freqOf t.node l.toNat = freqOf t.node r.toNat ∧ l.toNat < r.toNat)) ∧
      ∀ j, j < k → j ∉ childrenOf (t.node.take k) → j ≠ l.toNat → j ≠ r.toNat →
        (freqOf t.node r.toNat < freqOf t.node j ∨ (freqOf t.node r.toNat = freqOf t.node j ∧ r.toNat < j))

/-- R84, R85 (d): the root's frequency is the sum of all counts, exactly, and internal frequencies do not fall with the
index. -/
def Obligations.BuildFrequenciesAddUp : Prop :=
  ∀ s t, FreqTable s.freq → exec .build s = .next t → t.stDone = true →
    freqOf t.node t.root.toNat = ∑ k ∈ Finset.range numSymbols, (freqAt s.freq k).toNat ∧
    ∀ k, t.nleaf.toNat ≤ k → k < t.root.toNat → freqOf t.node k ≤ freqOf t.node (k + 1)

/-! ### DERIVE -/

/-- R92: DERIVE without a tree raises NO_TREE and changes nothing else. -/
def Obligations.DeriveWithoutTreeFaults : Prop :=
  ∀ s, s.nnode = 0 →
    exec .derive s = .next { s with
      stBusy := false, stDone := false, stFault := true, fcode := 3, finfo0 := 0, finfo1 := 0 }

/-- R89: on a tree of R21 the equations for `path` have a solution, and only one: every node has one path. -/
def Obligations.TreesHaveOnePathFunction : Prop :=
  ∀ (nodes : List Node) (n : Nat), TreeInv nodes n →
    (∃ path, PathOf nodes (2 * n - 2) path) ∧
    ∀ p q, PathOf nodes (2 * n - 2) p → PathOf nodes (2 * n - 2) q → ∀ k, k < 2 * n - 1 → p k = q k

/-- R88, R89: DERIVE on a tree whose codes all fit completes with exactly one entry per leaf, its path from the root ("0"
for the only leaf under `SLZ` = 1), and none for any other symbol; nothing else changes. -/
def Obligations.DeriveRecordsPaths : Prop :=
  ∀ (s : State) (path : Nat → BitString), TreeState s → s.nnode ≠ 0 → PathOf s.node s.root.toNat path →
    (∀ j, j < s.nleaf.toNat → (standardCode s (path j)).length ≤ s.cfg.lenMax) →
    ∃ t, exec .derive s = .next t ∧ t.stBusy = false ∧ t.stDone = true ∧ t.scnt = s.nleaf ∧
      (∀ sym c, cellAt t.scode sym = some c ↔
        ∃ j, j < s.nleaf.toNat ∧ symOf s.node j = sym ∧ c.len = (standardCode s (path j)).length ∧
          c.val = bitsVal (standardCode s (path j))) ∧
      { t with scode := s.scode, scnt := s.scnt, stBusy := s.stBusy, stDone := s.stDone } = s

/-- R91: DERIVE on a tree with a code longer than `LEN_MAX` raises LEN_OVERFLOW with the symbol and the code length of the
offending leaf of least index, and changes nothing else. -/
def Obligations.DeriveReportsLeastLongCode : Prop :=
  ∀ (s : State) (path : Nat → BitString) (j : Nat), TreeState s → s.nnode ≠ 0 →
    PathOf s.node s.root.toNat path → j < s.nleaf.toNat →
    s.cfg.lenMax < (standardCode s (path j)).length →
    (∀ i, i < j → (standardCode s (path i)).length ≤ s.cfg.lenMax) →
    exec .derive s = .next { s with
      stBusy := false, stDone := false, stFault := true, fcode := 4
      finfo0 := BitVec.ofNat 32 (symOf s.node j), finfo1 := BitVec.ofNat 32 (standardCode s (path j)).length } ∧
    (standardCode s (path j)).length < 2 ^ 32

/-- R90: on the single-leaf tree the only code is the empty one under `SLZ` = 0 and "0" under `SLZ` = 1; with two leaves or
more `SLZ` has no effect. -/
def Obligations.DeriveSingleLeafPolicy : Prop :=
  (∀ (s : State) (sym : Symbol) (f : NodeFreq), s.cfg.wf → s.node = [.leaf sym f] → s.nleaf = 1 → s.nnode = 1 →
    s.root = 0 →
    ∃ t, exec .derive s = .next t ∧ t.scnt = 1 ∧
      cellAt t.scode sym.toNat = some (if s.slz then { len := 1, val := 0 } else { len := 0, val := 0 }) ∧
      ∀ k, k ≠ sym.toNat → cellAt t.scode k = none) ∧
  (∀ (s t : State) (b : Bool), 2 ≤ s.nleaf.toNat → exec .derive s = .next t →
    exec .derive { s with slz := b } = .next { t with slz := b })

/-- R93: after a successful DERIVE the standard table is prefix-free. -/
def Obligations.DeriveTableIsPrefixFree : Prop :=
  ∀ s t, TreeState s → exec .derive s = .next t → t.stDone = true → PrefixFree t.scode

/-- R94: after a successful DERIVE of two leaves or more the Kraft sum is exactly 1 and every length is between 1 and
n - 1; of one leaf it is 1 under `SLZ` = 0 and 1/2 under `SLZ` = 1. The sum is scaled by 2^`LEN_MAX`. -/
def Obligations.DeriveLengthsMeetKraft : Prop :=
  ∀ s t, s.cfg.wf → TreeState s → exec .derive s = .next t → t.stDone = true →
    (2 ≤ s.nleaf.toNat → kraftSum s.cfg.lenMax t.scode = 2 ^ s.cfg.lenMax ∧
      ∀ e ∈ t.scode, 1 ≤ e.2.len ∧ e.2.len ≤ s.nleaf.toNat - 1) ∧
    (s.nleaf.toNat = 1 → (if s.slz then 2 else 1) * kraftSum s.cfg.lenMax t.scode = 2 ^ s.cfg.lenMax)

/-! ### CANON -/

/-- R100: CANON on the empty standard table raises EMPTY_CODES and changes nothing else. -/
def Obligations.CanonEmptyTableFaults : Prop :=
  ∀ s, s.scnt = 0 →
    exec .canon s = .next { s with
      stBusy := false, stDone := false, stFault := true, fcode := 5, finfo0 := 0, finfo1 := 0 }

/-- R99, R101: CANON on a non-empty standard table whose lengths have a Kraft sum of at most 1 (R94) completes: the same
symbols have entries, each of the same length, with a value that fits it, and `CCNT` = `SCNT`; nothing else changes. -/
def Obligations.CanonConservesLengths : Prop :=
  ∀ s, CodeTable s.scode → s.scnt.toNat = s.scode.length → s.scnt ≠ 0 →
    (∀ e ∈ s.scode, e.2.len ≤ s.cfg.lenMax) → kraftSum s.cfg.lenMax s.scode ≤ 2 ^ s.cfg.lenMax →
    ∃ t, exec .canon s = .next t ∧ t.stBusy = false ∧ t.stDone = true ∧
      (∀ sym, (cellAt t.ccode sym).map Code.len = (cellAt s.scode sym).map Code.len) ∧
      (∀ sym c, cellAt t.ccode sym = some c → c.val < 2 ^ c.len) ∧ t.ccnt = s.scnt ∧
      { t with ccode := s.ccode, ccnt := s.ccnt, stBusy := s.stBusy, stDone := s.stDone } = s

/-- R102: the canonical table is a function of the pairs (symbol, length) alone: two machines whose standard tables give each
symbol the same length get the same canonical table, whatever the standard codes' bits and whatever else differs. -/
def Obligations.CanonDependsOnLengthsOnly : Prop :=
  ∀ s₁ s₂ t₁ t₂, CodeTable s₁.scode → CodeTable s₂.scode →
    (∀ sym, (cellAt s₁.scode sym).map Code.len = (cellAt s₂.scode sym).map Code.len) →
    exec .canon s₁ = .next t₁ → t₁.stDone = true → exec .canon s₂ = .next t₂ → t₂.stDone = true →
    t₁.ccode = t₂.ccode

/-- R97, R98, R99, R103: the value of each canonical code. In units of its own length it is the sum of `2^(-len)` over the
entries before it in the order (length, then symbol), here scaled by 2^`LEN_MAX`; so a later entry's value is at least the
earlier one's plus 1, shifted left by the difference of their lengths. -/
def Obligations.CanonValueFormula : Prop :=
  ∀ s t, CodeTable s.scode → (∀ e ∈ s.scode, e.2.len ≤ s.cfg.lenMax) → exec .canon s = .next t → t.stDone = true →
    (∀ sym c, cellAt t.ccode sym = some c →
      c.val * 2 ^ (s.cfg.lenMax - c.len) =
        ((s.scode.filter (fun e => decide (e.2.len < c.len ∨ (e.2.len = c.len ∧ e.1 < sym)))).map
          (fun e => 2 ^ (s.cfg.lenMax - e.2.len))).sum) ∧
    (∀ a b c d, cellAt t.ccode a = some c → cellAt t.ccode b = some d →
      (c.len < d.len ∨ (c.len = d.len ∧ a < b)) → (c.val + 1) * 2 ^ (d.len - c.len) ≤ d.val)

/-- R104: after a successful CANON the canonical table is prefix-free. -/
def Obligations.CanonTableIsPrefixFree : Prop :=
  ∀ s t, CodeTable s.scode → exec .canon s = .next t → t.stDone = true → PrefixFree t.ccode

/-! ### ENCODE -/

/-- R105, R106, R107: ENCODE of a text all of whose symbols have entries in the selected table completes: `OUT` is the
concatenation of their codes in text order, of at most `OUT_MAX` bits, and `OUTLEN` its length; nothing else changes. With
`TLEN` = 0 this is R110 (a): it succeeds whatever the table. -/
def Obligations.EncodeConcatenatesCodes : Prop :=
  ∀ s tsel table, (tsel = .standard ∧ table = s.scode) ∨ (tsel = .canonical ∧ table = s.ccode) → BoundsInv s →
    (∀ x ∈ readText s, cellAt table x.toNat ≠ none) →
    ∃ t, exec (.encode tsel) s = .next t ∧ t.stBusy = false ∧ t.stDone = true ∧
      t.out = ((readText s).map (fun x => ((cellAt table x.toNat).map (fun c => bitsOf c.len c.val)).getD [])).flatten ∧
      t.outlen.toNat = t.out.length ∧ t.out.length ≤ s.cfg.outMax ∧
      { t with
        out := s.out, outlen := s.outlen, freeIx := s.freeIx, stBusy := s.stBusy, stDone := s.stDone } = s

/-- R108: ENCODE of a text with a symbol that has no entry raises MISSING_SYMBOL with the least such position and its symbol,
and emits nothing: nothing changes but the flags and the fault record. -/
def Obligations.EncodeReportsFirstMissing : Prop :=
  ∀ s tsel table (i : Nat) (x : Symbol),
    (tsel = .standard ∧ table = s.scode) ∨ (tsel = .canonical ∧ table = s.ccode) →
    (readText s)[i]? = some x → cellAt table x.toNat = none →
    (∀ (k : Nat) y, k < i → (readText s)[k]? = some y → cellAt table y.toNat ≠ none) →
    ∃ t, exec (.encode tsel) s = .next t ∧ t.stBusy = false ∧ t.stDone = false ∧ t.stFault = true ∧ t.fcode = 6 ∧
      t.finfo0.toNat = i ∧ t.finfo1.toNat = x.toNat ∧ SameButFaultRecord s t

/-- R109: the bitstream's length is the sum over the text of the codes' lengths, and the code of the symbol at position `i`
occupies the stream from the sum of the lengths before it on. -/
def Obligations.EncodeLengthIsSum : Prop :=
  ∀ s t tsel table, (tsel = .standard ∧ table = s.scode) ∨ (tsel = .canonical ∧ table = s.ccode) →
    exec (.encode tsel) s = .next t → t.stDone = true →
    t.out.length = ((readText s).map (fun x => ((cellAt table x.toNat).map Code.len).getD 0)).sum ∧
    ∀ (i : Nat) x c, (readText s)[i]? = some x → cellAt table x.toNat = some c →
      (t.out.drop (((readText s).take i).map (fun y => ((cellAt table y.toNat).map Code.len).getD 0)).sum).take c.len =
        bitsOf c.len c.val
end

