-- ==== Sys2Proof/Laws/Bits.lean ====
section
/-! SUPPORT. The laws of bit-strings and their values (00_scope.md R10). -/

namespace Sys2Proof.Machine

@[simp] theorem bitsOf_length (L v : Nat) : (bitsOf L v).length = L := by
  induction L with
  | zero => rfl
  | succ L ih => simp [bitsOf, ih]

theorem foldl_bits (b : BitString) (a : Nat) :
    b.foldl (fun a x => 2 * a + x.toNat) a = a * 2 ^ b.length + bitsVal b := by
  induction b generalizing a with
  | nil => simp [bitsVal]
  | cons x b ih =>
    simp only [List.foldl_cons, bitsVal, List.length_cons]
    rw [ih, ih]
    simp only [pow_succ]; ring

@[simp] theorem bitsVal_nil : bitsVal [] = 0 := rfl

theorem bitsVal_cons (x : Bool) (b : BitString) : bitsVal (x :: b) = x.toNat * 2 ^ b.length + bitsVal b := by
  have := foldl_bits b x.toNat
  simpa [bitsVal] using this

theorem bitsVal_append (b c : BitString) : bitsVal (b ++ c) = bitsVal b * 2 ^ c.length + bitsVal c := by
  rw [bitsVal, List.foldl_append, foldl_bits]; rfl

theorem bitsVal_lt (b : BitString) : bitsVal b < 2 ^ b.length := by
  induction b with
  | nil => simp
  | cons x b ih =>
    rw [bitsVal_cons, List.length_cons, pow_succ]
    cases x <;> simp <;> omega

/-- Bit `p` of the value, counted from the last bit of the string (bit 0). -/
theorem testBit_bitsVal (b : BitString) (p : Nat) :
    (bitsVal b).testBit p = (decide (p < b.length) && b.getD (b.length - 1 - p) false) := by
  induction b with
  | nil => simp
  | cons x b ih =>
    have hlt := bitsVal_lt b
    rw [bitsVal_cons, Nat.mul_comm, Nat.testBit_two_pow_mul_add _ hlt, ih]
    split
    · next h =>
      have h1 : (x :: b).length - 1 - p = (b.length - 1 - p) + 1 := by simp; omega
      rw [h1]
      simp [h]; omega
    · next h =>
      by_cases hp : p = b.length
      · subst hp; cases x <;> simp
      · have : ¬ p < b.length + 1 := by omega
        have h2 : Nat.testBit 1 (p - b.length) = false := Nat.testBit_lt_two_pow (Nat.one_lt_two_pow (by omega))
        cases x <;> simp [this, h2]

theorem bitsVal_bitsOf (L v : Nat) : bitsVal (bitsOf L v) = v % 2 ^ L := by
  induction L with
  | zero => simp [bitsOf, Nat.mod_one]
  | succ L ih =>
    rw [bitsOf, bitsVal_cons, bitsOf_length, ih, Nat.mod_pow_succ, Nat.testBit_eq_decide_div_mod_eq]
    rcases Nat.mod_two_eq_zero_or_one (v / 2 ^ L) with h | h <;> simp [h] <;> omega

theorem bitsVal_bitsOf_of_lt {L v : Nat} (h : v < 2 ^ L) : bitsVal (bitsOf L v) = v := by
  rw [bitsVal_bitsOf, Nat.mod_eq_of_lt h]

/-- `bits_L(v)` is the unique bit-string of length `L` with value `v`. -/
theorem bits_ext {b c : BitString} (hl : b.length = c.length) (hv : bitsVal b = bitsVal c) : b = c := by
  induction b generalizing c with
  | nil => exact (List.length_eq_zero_iff.1 hl.symm).symm
  | cons x b ih =>
    cases c with
    | nil => simp at hl
    | cons y c =>
      have hl' : b.length = c.length := by simpa using hl
      rw [bitsVal_cons, bitsVal_cons, hl'] at hv
      have h1 := bitsVal_lt b
      have h2 := bitsVal_lt c
      rw [hl'] at h1
      have hxy : x = y := by
        cases x <;> cases y <;> simp_all <;> omega
      subst hxy
      rw [ih hl' (by omega)]

theorem bitsOf_bitsVal (b : BitString) : bitsOf b.length (bitsVal b) = b :=
  bits_ext (by simp) (by rw [bitsVal_bitsOf_of_lt (bitsVal_lt b)])

/-- Storing a bit-string as `(|b|, val(b))` loses nothing. -/
@[simp] theorem codeBits_codeOf (b : BitString) : codeBits (codeOf b) = b := bitsOf_bitsVal b

@[simp] theorem codeBits_length (c : Code) : (codeBits c).length = c.len := bitsOf_length _ _

@[simp] theorem codeOf_len (b : BitString) : (codeOf b).len = b.length := rfl

/-- The first `a` bits of a numeral of `a + d` bits are the numeral of the value shifted right by `d`. -/
theorem bitsOf_add (a d v : Nat) : bitsOf (a + d) v = bitsOf a (v / 2 ^ d) ++ bitsOf d v := by
  refine bits_ext (by simp) ?_
  rw [bitsVal_append, bitsVal_bitsOf, bitsVal_bitsOf, bitsVal_bitsOf, bitsOf_length, Nat.add_comm a d, pow_add,
    Nat.mod_mul]
  ring

/-- When a stored code is a prefix of another: exactly when its value is the other's, shifted right. -/
theorem codeBits_prefix_iff {c d : Code} (hc : c.val < 2 ^ c.len) (hd : d.val < 2 ^ d.len) :
    codeBits c <+: codeBits d ↔ c.len ≤ d.len ∧ c.val = d.val / 2 ^ (d.len - c.len) := by
  constructor
  · intro h
    have hle : c.len ≤ d.len := by simpa using h.length_le
    refine ⟨hle, ?_⟩
    obtain ⟨e, he⟩ : ∃ e, d.len = c.len + e := ⟨d.len - c.len, by omega⟩
    have hsplit : codeBits d = bitsOf c.len (d.val / 2 ^ e) ++ bitsOf e d.val := by
      rw [codeBits, he, bitsOf_add]
    rw [hsplit, List.prefix_iff_eq_take, codeBits_length, List.take_left' (by simp)] at h
    have := congrArg bitsVal h
    rw [codeBits, bitsVal_bitsOf_of_lt hc, bitsVal_bitsOf_of_lt] at this
    · rw [this]; congr 2; omega
    · rw [Nat.div_lt_iff_lt_mul (by positivity), ← pow_add, ← he]; exact hd
  · rintro ⟨hle, hv⟩
    obtain ⟨e, he⟩ : ∃ e, d.len = c.len + e := ⟨d.len - c.len, by omega⟩
    have hsplit : codeBits d = bitsOf c.len (d.val / 2 ^ e) ++ bitsOf e d.val := by
      rw [codeBits, he, bitsOf_add]
    have : d.len - c.len = e := by omega
    rw [this] at hv
    rw [hsplit, codeBits, hv]
    exact List.prefix_append _ _

end Sys2Proof.Machine
end

