-- ==== Sys2Proof/Laws/Cells.lean ====
section
/-! SUPPORT. The laws of one cell of a memory: read after write, the frame of a write, and that every operation keeps the
canonical form. -/

namespace Sys2Proof.Machine

variable {α : Type}

@[simp] theorem cellAt_nil (k : Nat) : cellAt ([] : Memory α) k = none := rfl

theorem cellAt_cons (i : Nat) (v : α) (m : Memory α) (k : Nat) :
    cellAt ((i, v) :: m) k = if k = i then some v else cellAt m k := rfl

@[simp] theorem cellAt_cons_self (i : Nat) (v : α) (m : Memory α) : cellAt ((i, v) :: m) i = some v := by
  simp [cellAt_cons]

@[simp] theorem cellAt_head (e : Nat × α) (m : Memory α) : cellAt (e :: m) e.1 = some e.2 := by
  simp [cellAt]

theorem cellAt_cons_ne {i k : Nat} (h : k ≠ i) (v : α) (m : Memory α) : cellAt ((i, v) :: m) k = cellAt m k := by
  simp [cellAt_cons, h]

/-- A listed cell is an element of the list. -/
theorem mem_of_cellAt {m : Memory α} {k : Nat} {v : α} (h : cellAt m k = some v) : (k, v) ∈ m := by
  induction m with
  | nil => simp at h
  | cons e m ih =>
    obtain ⟨i, w⟩ := e
    rw [cellAt_cons] at h
    split at h
    · next hk => simp_all
    · exact List.mem_cons_of_mem _ (ih h)

theorem cellAt_eq_none {m : Memory α} {k : Nat} (h : ∀ e ∈ m, e.1 ≠ k) : cellAt m k = none := by
  cases hc : cellAt m k with
  | none => rfl
  | some v => exact absurd rfl (h _ (mem_of_cellAt hc))

/-- In canonical form every element is its index's cell. -/
theorem cellAt_of_mem {m : Memory α} (hm : Memory.wf m) {k : Nat} {v : α} (h : (k, v) ∈ m) :
    cellAt m k = some v := by
  induction m with
  | nil => simp at h
  | cons e m ih =>
    obtain ⟨i, w⟩ := e
    rw [Memory.wf, List.pairwise_cons] at hm
    rcases List.mem_cons.1 h with h | h
    · cases h; simp
    · have hlt : i < k := hm.1 _ h
      rw [cellAt_cons_ne (by omega)]
      exact ih hm.2 h

theorem cellAt_iff_mem {m : Memory α} (hm : Memory.wf m) (k : Nat) (v : α) :
    cellAt m k = some v ↔ (k, v) ∈ m := ⟨mem_of_cellAt, cellAt_of_mem hm⟩

/-- Two memories in canonical form that read alike are equal. -/
theorem memory_ext {m n : Memory α} (hm : Memory.wf m) (hn : Memory.wf n) (h : ∀ k, cellAt m k = cellAt n k) : m = n := by
  induction m generalizing n with
  | nil =>
    cases n with
    | nil => rfl
    | cons e n => exact absurd (h e.1) (by simp)
  | cons e m ih =>
    cases n with
    | nil => exact absurd (h e.1) (by simp)
    | cons f n =>
      obtain ⟨i, v⟩ := e
      obtain ⟨j, w⟩ := f
      have hm' := List.pairwise_cons.1 hm
      have hn' := List.pairwise_cons.1 hn
      have hij : i = j := by
        have h1 : (i, v) ∈ (j, w) :: n := mem_of_cellAt (by rw [← h]; simp)
        have h2 : (j, w) ∈ (i, v) :: m := mem_of_cellAt (by rw [h]; simp)
        rcases List.mem_cons.1 h1 with h1 | h1
        · exact (Prod.mk.inj h1).1
        · rcases List.mem_cons.1 h2 with h2 | h2
          · exact (Prod.mk.inj h2).1.symm
          · have a := hn'.1 _ h1; have b := hm'.1 _ h2
            simp at a b; omega
      subst hij
      have hv : v = w := by simpa using h i
      subst hv
      refine congrArg _ (ih hm'.2 hn'.2 fun k => ?_)
      by_cases hk : k = i
      · subst hk
        rw [cellAt_eq_none fun e he => Nat.ne_of_gt (hm'.1 e he), cellAt_eq_none fun e he => Nat.ne_of_gt (hn'.1 e he)]
      · simpa [cellAt_cons, hk] using h k

/-! ### setCell -/

theorem cellAt_setCell (m : Memory α) (k i : Nat) (v : α) :
    cellAt (setCell m k v) i = if i = k then some v else cellAt m i := by
  induction m with
  | nil => simp [setCell, cellAt_cons]
  | cons e m ih =>
    obtain ⟨j, w⟩ := e
    simp only [setCell]
    split
    · simp [cellAt_cons]
    · split
      · next h => subst h; simp only [cellAt_cons]; split <;> simp_all
      · simp only [cellAt_cons, ih]; split <;> split <;> simp_all

@[simp] theorem cellAt_setCell_self (m : Memory α) (k : Nat) (v : α) : cellAt (setCell m k v) k = some v := by
  simp [cellAt_setCell]

theorem cellAt_setCell_ne {i k : Nat} (h : i ≠ k) (m : Memory α) (v : α) :
    cellAt (setCell m k v) i = cellAt m i := by simp [cellAt_setCell, h]

theorem mem_setCell {m : Memory α} {k : Nat} {v : α} {e : Nat × α} (h : e ∈ setCell m k v) : e = (k, v) ∨ e ∈ m := by
  induction m with
  | nil => simpa [setCell] using h
  | cons f m ih =>
    obtain ⟨j, w⟩ := f
    simp only [setCell] at h
    split at h
    · simpa using h
    · split at h
      · rcases List.mem_cons.1 h with h | h
        · exact .inl h
        · exact .inr (List.mem_cons_of_mem _ h)
      · rcases List.mem_cons.1 h with h | h
        · exact .inr (by simp [h])
        · rcases ih h with h | h
          · exact .inl h
          · exact .inr (List.mem_cons_of_mem _ h)

theorem setCell_wf {m : Memory α} (hm : Memory.wf m) (k : Nat) (v : α) : Memory.wf (setCell m k v) := by
  induction m with
  | nil => simp [setCell, Memory.wf]
  | cons e m ih =>
    obtain ⟨j, w⟩ := e
    have hm' := List.pairwise_cons.1 hm
    simp only [setCell]
    split
    · next h =>
      refine List.pairwise_cons.2 ⟨fun e he => ?_, hm⟩
      rcases List.mem_cons.1 he with he | he
      · simpa [he] using h
      · exact Nat.lt_trans h (hm'.1 e he)
    · split
      · next h => exact List.pairwise_cons.2 ⟨by simpa [h] using hm'.1, hm'.2⟩
      · next h1 h2 =>
        refine List.pairwise_cons.2 ⟨fun e he => ?_, ih hm'.2⟩
        rcases mem_setCell he with he | he
        · simp [he]; omega
        · exact hm'.1 e he

/-- Writing a cell that is not listed lists one more. -/
theorem length_setCell_new {m : Memory α} {k : Nat} (hk : cellAt m k = none) (v : α) :
    (setCell m k v).length = m.length + 1 := by
  induction m with
  | nil => rfl
  | cons e m ih =>
    obtain ⟨j, w⟩ := e
    have hne : k ≠ j := by rintro rfl; simp at hk
    rw [cellAt_cons_ne hne] at hk
    simp only [setCell]
    split
    · rfl
    · simp [ih hk]

theorem setCell_perm_new {m : Memory α} {k : Nat} (hk : cellAt m k = none) (v : α) :
    (setCell m k v).Perm ((k, v) :: m) := by
  induction m with
  | nil => exact .refl _
  | cons e m ih =>
    obtain ⟨j, w⟩ := e
    have hne : k ≠ j := by rintro rfl; simp at hk
    rw [cellAt_cons_ne hne] at hk
    simp only [setCell]
    split
    · exact .refl _
    · exact ((ih hk).cons _).trans (.swap _ _ _)

/-! ### clearCell -/

theorem mem_clearCell {m : Memory α} {k : Nat} {e : Nat × α} : e ∈ clearCell m k ↔ e ∈ m ∧ e.1 ≠ k := by
  simp [clearCell]

theorem clearCell_wf {m : Memory α} (hm : Memory.wf m) (k : Nat) : Memory.wf (clearCell m k) :=
  List.Pairwise.filter _ hm

theorem cellAt_clearCell (m : Memory α) (k i : Nat) :
    cellAt (clearCell m k) i = if i = k then none else cellAt m i := by
  induction m with
  | nil => simp [clearCell]
  | cons e m ih =>
    obtain ⟨j, w⟩ := e
    by_cases hj : j = k
    · subst hj
      have : clearCell ((j, w) :: m) j = clearCell m j := by simp [clearCell]
      rw [this, ih, cellAt_cons]; split <;> rfl
    · have : clearCell ((j, w) :: m) k = (j, w) :: clearCell m k := by simp [clearCell, hj]
      rw [this, cellAt_cons, cellAt_cons, ih]
      by_cases hi : i = j
      · subst hi; simp [hj]
      · simp [hi]

/-! ### tableOf -/

theorem tableOf_wf (l : List (Nat × α)) : Memory.wf (tableOf l) := by
  induction l with
  | nil => exact List.Pairwise.nil
  | cons e l ih => exact setCell_wf ih _ _

theorem mem_of_mem_tableOf {l : List (Nat × α)} {e : Nat × α} (h : e ∈ tableOf l) : e ∈ l := by
  induction l with
  | nil => simp [tableOf] at h
  | cons f l ih =>
    rcases mem_setCell (m := tableOf l) h with h | h
    · simp [h]
    · exact List.mem_cons_of_mem _ (ih h)

/-- The listed cells of a table made from cells of distinct indices are exactly those. -/
theorem tableOf_perm {l : List (Nat × α)} (h : (l.map Prod.fst).Nodup) : (tableOf l).Perm l := by
  induction l with
  | nil => exact .refl _
  | cons e l ih =>
    rw [List.map_cons, List.nodup_cons] at h
    have hnone : cellAt (tableOf l) e.1 = none :=
      cellAt_eq_none fun f hf hfe => h.1 (List.mem_map.2 ⟨f, mem_of_mem_tableOf hf, hfe⟩)
    exact (setCell_perm_new hnone _).trans ((ih h.2).cons _)

theorem cellAt_tableOf {l : List (Nat × α)} (h : (l.map Prod.fst).Nodup) (k : Nat) (v : α) :
    cellAt (tableOf l) k = some v ↔ (k, v) ∈ l := by
  rw [cellAt_iff_mem (tableOf_wf l), (tableOf_perm h).mem_iff]

/-! ### FREQ -/

theorem freqAt_setFreq (m : Memory Count) (k i : Nat) (c : Count) :
    freqAt (setFreq m k c) i = if i = k then c else freqAt m i := by
  unfold freqAt setFreq
  split
  · next h => rw [cellAt_clearCell]; split <;> simp [h]
  · rw [cellAt_setCell]; split <;> simp

theorem FreqTable.set {m : Memory Count} (h : FreqTable m) {k : Nat} (hk : k < numSymbols) (c : Count) :
    FreqTable (setFreq m k c) := by
  unfold setFreq
  split
  · exact ⟨clearCell_wf h.wf _, fun e he => h.sym e (mem_clearCell.1 he).1, fun e he => h.nonzero e (mem_clearCell.1 he).1⟩
  · next hc =>
    refine ⟨setCell_wf h.wf _ _, fun e he => ?_, fun e he => ?_⟩
    · rcases mem_setCell he with rfl | he
      · exact hk
      · exact h.sym e he
    · rcases mem_setCell he with rfl | he
      · exact hc
      · exact h.nonzero e he

theorem setFreq_wf {m : Memory Count} (hm : Memory.wf m) (k : Nat) (c : Count) : Memory.wf (setFreq m k c) := by
  unfold setFreq
  split
  · exact clearCell_wf hm k
  · exact setCell_wf hm k c

/-- The machine's memories are in canonical form after reset. -/
theorem reset_memories_wf : Memory.wf State.reset.txt ∧ Memory.wf State.reset.freq ∧ Memory.wf State.reset.scode ∧
    Memory.wf State.reset.ccode :=
  ⟨List.Pairwise.nil, List.Pairwise.nil, List.Pairwise.nil, List.Pairwise.nil⟩

theorem FreqTable.empty : FreqTable [] := ⟨List.Pairwise.nil, by simp, by simp⟩

theorem CodeTable.empty : CodeTable [] := ⟨List.Pairwise.nil, by simp⟩

/-- A memory in canonical form whose indices are symbols lists at most 65536 cells. -/
theorem length_le_numSymbols {m : Memory α} (hm : Memory.wf m) (hs : ∀ e ∈ m, e.1 < numSymbols) :
    m.length ≤ numSymbols := by
  have hnd : (m.map Prod.fst).Nodup := by
    rw [List.nodup_iff_pairwise_ne, List.pairwise_map]
    exact hm.imp fun h => Nat.ne_of_lt h
  have hsub : m.map Prod.fst ⊆ List.range numSymbols := by
    intro k hk
    obtain ⟨e, he, rfl⟩ := List.mem_map.1 hk
    exact List.mem_range.2 (hs e he)
  simpa using (hnd.subperm hsub).length_le

/-- In a canonical memory different positions hold different indices. -/
theorem wf_nodup {m : Memory α} (hm : Memory.wf m) : (m.map Prod.fst).Nodup := by
  rw [List.nodup_iff_pairwise_ne, List.pairwise_map]
  exact hm.imp fun h => Nat.ne_of_lt h

end Sys2Proof.Machine
end

