-- ==== Sys2Proof/Laws/Builder.lean ====
section
/-! SUPPORT. The laws of BUILD: what extracting the least key does, and the invariant of the merge loop
(42_tree_builder.md R78, R80, R84, R85). -/

namespace Sys2Proof.Machine

/-! ### The queue (R78) -/

/-- R78's order, spelt out. -/
theorem keyLt_iff (x y : QEntry) : keyLt x y = true ↔ x.freq < y.freq ∨ (x.freq = y.freq ∧ x.ix < y.ix) := by
  simp [keyLt]

theorem leastKey_mem (m : QEntry) (q : List QEntry) : leastKey m q ∈ m :: q := by
  induction q generalizing m with
  | nil => simp [leastKey]
  | cons x q ih =>
    simp only [leastKey]
    rcases List.mem_cons.1 (ih (if keyLt x m then x else m)) with h | h
    · rw [h]; split <;> simp
    · simp [h]

theorem leastKey_le (m : QEntry) (q : List QEntry) : ∀ x ∈ m :: q, keyLt x (leastKey m q) = false := by
  have irrefl : ∀ x, keyLt x x = false := by simp [keyLt]
  have trans : ∀ x y z, keyLt x y = false → keyLt y z = false → keyLt x z = false := by
    intro x y z h1 h2
    rw [Bool.eq_false_iff, ne_eq, keyLt_iff] at *
    omega
  have asymm : ∀ x y, keyLt x y = true → keyLt y x = false := by
    intro x y h
    rw [Bool.eq_false_iff, ne_eq, keyLt_iff] at *
    omega
  induction q generalizing m with
  | nil => simp [leastKey, irrefl]
  | cons y q ih =>
    intro x hx
    simp only [leastKey]
    split
    · next h =>
      rcases List.mem_cons.1 hx with rfl | hx
      · exact trans _ _ _ (asymm _ _ h) (ih y y (by simp))
      · rcases List.mem_cons.1 hx with rfl | hx
        · exact ih _ _ (by simp)
        · exact ih _ _ (by simp [hx])
    · next h =>
      rcases List.mem_cons.1 hx with rfl | hx
      · exact ih _ _ (by simp)
      · rcases List.mem_cons.1 hx with rfl | hx
        · exact trans _ _ _ (by simpa using h) (ih m m (by simp))
        · exact ih _ _ (by simp [hx])

/-- All that `extractMin` does: the extracted node is one of the queue, the rest is the queue without it, and no node of
the queue has a lesser key. -/
theorem extractMin_spec {q r : List QEntry} {a : QEntry} (h : extractMin q = some (a, r)) :
    a ∈ q ∧ r = q.erase a ∧ ∀ x ∈ q, keyLt x a = false := by
  cases q with
  | nil => simp [extractMin] at h
  | cons x q =>
    simp only [extractMin, Option.some.injEq, Prod.mk.injEq] at h
    obtain ⟨rfl, rfl⟩ := h
    exact ⟨leastKey_mem _ _, rfl, leastKey_le _ _⟩

theorem extractMin_perm {q r : List QEntry} {a : QEntry} (h : extractMin q = some (a, r)) : q.Perm (a :: r) := by
  obtain ⟨hm, rfl, -⟩ := extractMin_spec h
  exact List.perm_cons_erase hm

theorem extractMin_none {q : List QEntry} (h : extractMin q = none) : q = [] := by
  cases q with
  | nil => rfl
  | cons x q => simp [extractMin] at h

/-! ### The merge loop -/

/-- What holds before every pass of R80's loop, of a queue `q` and the nodes made so far, with `n` leaves. -/
structure MergeInv (n : Nat) (q : List QEntry) (nodes : List Node) : Prop where
  pos : 1 ≤ n
  le : n ≤ numSymbols
  ne : q ≠ []
  /-- Each pass shortens the queue by one and adds one node. -/
  count : nodes.length + q.length = 2 * n
  many : n ≤ nodes.length
  /-- Every node made is in the queue or is a child, and not both. -/
  perm : (q.map QEntry.ix ++ childrenOf nodes).Perm (List.range nodes.length)
  freq : ∀ x ∈ q, x.freq = freqOf nodes x.ix
  total : (q.map QEntry.freq).sum < 2 ^ 48
  leaf : ∀ j, j < n → nodes[j]?.map nodeIsLeaf = some true
  internal : ∀ k, k < nodes.length → n ≤ k → nodes[k]?.map nodeIsLeaf = some false
  below : ∀ k, k < nodes.length → ∀ c ∈ kidsOf nodes k, c < k
  /-- R82: the left child has the lesser key. -/
  ordered : ∀ (k : Nat) f l r, nodes[k]? = some (.internal f l r) →
    keyLt ⟨freqOf nodes l.toNat, l.toNat⟩ ⟨freqOf nodes r.toNat, r.toNat⟩ = true
  /-- R80: and no other node of the queue it was taken from had a key below the right child's. -/
  greedy : ∀ (k : Nat) f l r, nodes[k]? = some (.internal f l r) → ∀ j, j < k → j ∉ childrenOf (nodes.take k) →
    j ≠ l.toNat → j ≠ r.toNat → keyLt ⟨freqOf nodes r.toNat, r.toNat⟩ ⟨freqOf nodes j, j⟩ = true
  sum : ∀ k, k < nodes.length → n ≤ k → freqOf nodes k = ((kidsOf nodes k).map (freqOf nodes)).sum
  /-- R85 (d): internal frequencies never fall, and the next pass's node is no lighter than the last. -/
  mono : ∀ k, n ≤ k → k + 1 < nodes.length → freqOf nodes k ≤ freqOf nodes (k + 1)
  next : n < nodes.length → ∀ x ∈ q, ∀ y ∈ q, freqOf nodes (nodes.length - 1) ≤ x.freq + y.freq

theorem freqOf_append_lt {nodes : List Node} {k : Nat} (h : k < nodes.length) (x : List Node) :
    freqOf (nodes ++ x) k = freqOf nodes k := by simp [freqOf, List.getElem?_append_left h]

theorem kidsOf_append_lt {nodes : List Node} {k : Nat} (h : k < nodes.length) (x : List Node) :
    kidsOf (nodes ++ x) k = kidsOf nodes k := by simp [kidsOf, List.getElem?_append_left h]

theorem freqOf_append_self (nodes : List Node) (x : Node) : freqOf (nodes ++ [x]) nodes.length = nodeFreq x := by
  simp [freqOf]

theorem kidsOf_append_self (nodes : List Node) (x : Node) : kidsOf (nodes ++ [x]) nodes.length = nodeChildren x := by
  simp [kidsOf]

/-- One pass of the loop keeps the invariant. -/
theorem MergeInv.pass {n : Nat} {q q₁ q₂ : List QEntry} {nodes : List Node} {a b : QEntry} (h : MergeInv n q nodes)
    (ha : extractMin q = some (a, q₁)) (hb : extractMin q₁ = some (b, q₂)) :
    MergeInv n ({ freq := a.freq + b.freq, ix := nodes.length } :: q₂) (nodes ++ [mergeNode a b]) := by
  have hpq : q.Perm (a :: b :: q₂) := (extractMin_perm ha).trans ((extractMin_perm hb).cons a)
  have haq : a ∈ q := hpq.mem_iff.2 (by simp)
  have hbq : b ∈ q := hpq.mem_iff.2 (by simp)
  have hsub : ∀ x ∈ q₂, x ∈ q := fun x hx => hpq.mem_iff.2 (by simp [hx])
  have hlen : q.length = q₂.length + 2 := by simpa using hpq.length_eq
  have hperm : (a.ix :: b.ix :: (q₂.map QEntry.ix ++ childrenOf nodes)).Perm (List.range nodes.length) := by
    refine List.Perm.trans ?_ h.perm
    simpa using ((hpq.map QEntry.ix).append_right (childrenOf nodes)).symm
  have hbound : ∀ x ∈ q, x.ix < nodes.length := fun x hx =>
    List.mem_range.1 (h.perm.mem_iff.1 (List.mem_append_left _ (List.mem_map_of_mem hx)))
  have hab : a.ix ≠ b.ix := by
    have := hperm.nodup_iff.2 List.nodup_range
    simp only [List.nodup_cons, List.mem_cons, not_or] at this
    exact this.1.1
  have hsum : a.freq + b.freq + (q₂.map QEntry.freq).sum < 2 ^ 48 := by
    have := (hpq.map QEntry.freq).sum_eq
    have ht := h.total
    simp only [List.map_cons, List.sum_cons] at this
    omega
  have hn17 : nodes.length < 2 ^ 17 := by
    have h1 := h.count; have h2 : n ≤ 65536 := h.le; omega
  have hfreqNode : nodeFreq (mergeNode a b) = a.freq + b.freq := by
    simp only [mergeNode, nodeFreq, BitVec.toNat_ofNat]
    exact Nat.mod_eq_of_lt (by omega)
  have ha17 : (BitVec.ofNat 17 a.ix).toNat = a.ix := by
    rw [BitVec.toNat_ofNat, Nat.mod_eq_of_lt (Nat.lt_trans (hbound a haq) hn17)]
  have hb17 : (BitVec.ofNat 17 b.ix).toNat = b.ix := by
    rw [BitVec.toNat_ofNat, Nat.mod_eq_of_lt (Nat.lt_trans (hbound b hbq) hn17)]
  have hkids : nodeChildren (mergeNode a b) = [a.ix, b.ix] := by
    simp only [mergeNode, nodeChildren, ha17, hb17]
  have hchildren : childrenOf (nodes ++ [mergeNode a b]) = childrenOf nodes ++ [a.ix, b.ix] := by
    simp [childrenOf, hkids]
  have hmina := (extractMin_spec ha).2.2
  have hminb : ∀ x ∈ b :: q₂, keyLt x b = false := fun x hx =>
    (extractMin_spec hb).2.2 x ((extractMin_perm hb).mem_iff.2 hx)
  have hle : a.freq ≤ b.freq := by
    have := hmina b hbq
    rw [Bool.eq_false_iff, ne_eq, keyLt_iff] at this
    omega
  have hlt : keyLt a b = true := by
    have := hmina b hbq
    rw [Bool.eq_false_iff, ne_eq, keyLt_iff] at this
    rw [keyLt_iff]
    omega
  have hq₂ : ∀ x ∈ q₂, b.freq ≤ x.freq := fun x hx => by
    have := hminb x (by simp [hx])
    rw [Bool.eq_false_iff, ne_eq, keyLt_iff] at this
    omega
  have hfa : freqOf (nodes ++ [mergeNode a b]) a.ix = a.freq := by
    rw [freqOf_append_lt (hbound a haq), ← h.freq a haq]
  have hfb : freqOf (nodes ++ [mergeNode a b]) b.ix = b.freq := by
    rw [freqOf_append_lt (hbound b hbq), ← h.freq b hbq]
  have hlast : ∀ k, k < nodes.length + 1 → k < nodes.length ∨ k = nodes.length := fun k hk => by omega
  apply MergeInv.mk h.pos h.le (by simp)
  case count =>
    have := h.count; simp; omega
  case many =>
    have := h.many; simp; omega
  case perm =>
    rw [hchildren, List.length_append, List.length_singleton, List.range_succ]
    refine (List.perm_append_comm.trans ?_)
    simp only [List.map_cons]
    refine List.perm_append_comm.trans ?_
    rw [List.cons_append]
    refine (List.Perm.cons _ ?_).trans (List.perm_append_comm (l₁ := [nodes.length]))
    refine List.Perm.trans ?_ hperm
    rw [← List.append_assoc]
    exact List.perm_append_comm
  case freq =>
    intro x hx
    rcases List.mem_cons.1 hx with rfl | hx
    · simp only [freqOf_append_self, hfreqNode]
    · rw [freqOf_append_lt (hbound x (hsub x hx))]; exact h.freq x (hsub x hx)
  case total =>
    simpa using hsum
  case leaf =>
    intro j hj
    rw [List.getElem?_append_left (Nat.lt_of_lt_of_le hj h.many)]; exact h.leaf j hj
  case internal =>
    intro k hk hnk
    rw [List.length_append, List.length_singleton] at hk
    rcases hlast k hk with hk | rfl
    · rw [List.getElem?_append_left hk]; exact h.internal k hk hnk
    · simp [mergeNode, nodeIsLeaf]
  case below =>
    intro k hk c hc
    rw [List.length_append, List.length_singleton] at hk
    rcases hlast k hk with hk | rfl
    · rw [kidsOf_append_lt hk] at hc; exact h.below k hk c hc
    · rw [kidsOf_append_self, hkids] at hc
      simp only [List.mem_cons, List.not_mem_nil, or_false] at hc
      rcases hc with rfl | rfl
      · exact hbound a haq
      · exact hbound b hbq
  case ordered =>
    intro k f l r hk
    rcases Nat.lt_or_ge k nodes.length with hlt' | hge
    · rw [List.getElem?_append_left hlt'] at hk
      have hkd : kidsOf nodes k = [l.toNat, r.toNat] := by simp [kidsOf, hk, nodeChildren]
      have hl := h.below k hlt' l.toNat (by simp [hkd])
      have hr := h.below k hlt' r.toNat (by simp [hkd])
      rw [freqOf_append_lt (by omega), freqOf_append_lt (by omega)]
      exact h.ordered k f l r hk
    · have hk' : k = nodes.length := by
        have := (List.getElem?_eq_some_iff.1 hk).1
        simp at this; omega
      subst hk'
      simp only [List.getElem?_append_right (Nat.le_refl _), Nat.sub_self, List.getElem?_cons_zero, mergeNode,
        Option.some.injEq, Node.internal.injEq] at hk
      obtain ⟨-, rfl, rfl⟩ := hk
      rw [ha17, hb17, hfa, hfb]
      exact hlt
  case greedy =>
    intro k f l r hk j hj hjc hjl hjr
    rcases Nat.lt_or_ge k nodes.length with hlt' | hge
    · rw [List.getElem?_append_left hlt'] at hk
      rw [List.take_append_of_le_length (Nat.le_of_lt hlt')] at hjc
      have hkd : kidsOf nodes k = [l.toNat, r.toNat] := by simp [kidsOf, hk, nodeChildren]
      have hr := h.below k hlt' r.toNat (by simp [hkd])
      rw [freqOf_append_lt (by omega), freqOf_append_lt (by omega)]
      exact h.greedy k f l r hk j hj hjc hjl hjr
    · have hk' : k = nodes.length := by
        have := (List.getElem?_eq_some_iff.1 hk).1
        simp at this; omega
      subst hk'
      simp only [List.getElem?_append_right (Nat.le_refl _), Nat.sub_self, List.getElem?_cons_zero, mergeNode,
        Option.some.injEq, Node.internal.injEq] at hk
      obtain ⟨-, rfl, rfl⟩ := hk
      rw [ha17] at hjl
      rw [hb17] at hjr ⊢
      rw [List.take_left] at hjc
      have hjq : j ∈ q₂.map QEntry.ix := by
        have := hperm.mem_iff.2 (List.mem_range.2 hj)
        simp only [List.mem_cons, List.mem_append] at this
        exact ((this.resolve_left hjl).resolve_left hjr).resolve_right hjc
      obtain ⟨y, hy, rfl⟩ := List.mem_map.1 hjq
      have hle' := hminb y (by simp [hy])
      rw [hfb, freqOf_append_lt hj, ← h.freq y (hsub y hy)]
      rw [Bool.eq_false_iff, ne_eq, keyLt_iff] at hle'
      rw [keyLt_iff]
      simp only
      omega
  case sum =>
    intro k hk hnk
    rw [List.length_append, List.length_singleton] at hk
    rcases hlast k hk with hk | rfl
    · rw [freqOf_append_lt hk, kidsOf_append_lt hk, h.sum k hk hnk]
      refine congrArg List.sum (List.map_congr_left fun c hc => ?_)
      rw [freqOf_append_lt (Nat.lt_trans (h.below k hk c hc) hk)]
    · rw [freqOf_append_self, kidsOf_append_self, hfreqNode, hkids]
      simp [hfa, hfb]
  case mono =>
    intro k hnk hk
    rw [List.length_append, List.length_singleton] at hk
    rcases Nat.lt_or_ge (k + 1) nodes.length with hlt' | hge
    · rw [freqOf_append_lt (by omega), freqOf_append_lt hlt']; exact h.mono k hnk hlt'
    · have hk' : k + 1 = nodes.length := by omega
      rw [freqOf_append_lt (by omega), hk', freqOf_append_self, hfreqNode]
      have := h.next (by omega) a haq b hbq
      rwa [← hk', Nat.add_sub_cancel] at this
  case next =>
    intro _ x hx y hy
    rw [List.length_append, List.length_singleton, Nat.add_sub_cancel, freqOf_append_self, hfreqNode]
    have key : ∀ z ∈ ({ freq := a.freq + b.freq, ix := nodes.length } : QEntry) :: q₂, b.freq ≤ z.freq := by
      intro z hz
      rcases List.mem_cons.1 hz with rfl | hz
      · simp
      · exact hq₂ z hz
    have := key x hx; have := key y hy
    omega

/-- All that the loop does: it ends with one node in the queue and every index used (R80). -/
theorem mergeLoop_spec {n : Nat} {fuel : Nat} {q : List QEntry} {nodes : List Node} (h : MergeInv n q nodes)
    (hf : q.length ≤ fuel) : ∃ x, MergeInv n [x] (mergeLoop fuel q nodes) := by
  induction fuel generalizing q nodes with
  | zero => exact absurd (List.length_eq_zero_iff.1 (Nat.le_zero.1 hf)) h.ne
  | succ fuel ih =>
    simp only [mergeLoop]
    cases ha : extractMin q with
    | none => exact absurd (extractMin_none ha) h.ne
    | some p =>
      obtain ⟨a, q₁⟩ := p
      simp only []
      cases hb : extractMin q₁ with
      | none =>
        have hq : q.length = 1 := by
          have := (extractMin_perm ha).length_eq
          rw [extractMin_none hb] at this
          simpa using this
        obtain ⟨x, rfl⟩ := List.length_eq_one_iff.1 hq
        exact ⟨x, h⟩
      | some p =>
        obtain ⟨b, q₂⟩ := p
        refine ih (h.pass ha hb) ?_
        have h1 := (extractMin_perm ha).length_eq
        have h2 := (extractMin_perm hb).length_eq
        simp at h1 h2 ⊢
        omega

/-- The loop only appends: the leaves stay where they were. -/
theorem mergeLoop_prefix (fuel : Nat) (q : List QEntry) (nodes : List Node) : nodes <+: mergeLoop fuel q nodes := by
  induction fuel generalizing q nodes with
  | zero => exact List.prefix_refl _
  | succ fuel ih =>
    simp only [mergeLoop]
    split
    · exact List.prefix_refl _
    · split
      · exact List.prefix_refl _
      · exact (List.prefix_append _ _).trans (ih _ _)

/-! ### The leaves (R79) -/

@[simp] theorem leavesOf_length (m : Memory Count) : (leavesOf m).length = m.length := by simp [leavesOf]

@[simp] theorem leafQueue_length (m : Memory Count) : (leafQueue m).length = m.length := by simp [leafQueue]

theorem leavesOf_getElem? (m : Memory Count) (j : Nat) :
    (leavesOf m)[j]? = m[j]?.map (fun e => .leaf (BitVec.ofNat 16 e.1) (e.2.setWidth 48)) := by simp [leavesOf]

theorem childrenOf_leavesOf (m : Memory Count) : childrenOf (leavesOf m) = [] := by
  induction m with
  | nil => rfl
  | cons e m ih => simpa [leavesOf, childrenOf, nodeChildren] using ih

theorem leafQueue_ix (m : Memory Count) : (leafQueue m).map QEntry.ix = List.range m.length := by
  simp only [leafQueue, List.map_map]
  have : QEntry.ix ∘ (fun e : (Nat × Count) × Nat => { freq := e.1.2.toNat, ix := e.2 }) = Prod.snd := rfl
  rw [this, List.zipIdx_map_snd, List.range_eq_range']

theorem leafQueue_freq (m : Memory Count) :
    (leafQueue m).map QEntry.freq = m.map (fun e => e.2.toNat) := by
  simp only [leafQueue, List.map_map]
  have : QEntry.freq ∘ (fun e : (Nat × Count) × Nat => { freq := e.1.2.toNat, ix := e.2 }) =
      (fun e : Nat × Count => e.2.toNat) ∘ Prod.fst := rfl
  rw [this, ← List.map_map, List.zipIdx_map_fst]

/-- A count, zero-extended to 48 bits, keeps its value. -/
theorem leaf_freq (c : Count) : (c.setWidth 48).toNat = c.toNat := by
  rw [BitVec.toNat_setWidth]; have := c.isLt; omega

theorem sum_counts_lt (m : Memory Count) (h : m.length ≤ numSymbols) : (m.map (fun e => e.2.toNat)).sum < 2 ^ 48 := by
  have hb : (m.map (fun e => e.2.toNat)).sum ≤ m.length * (2 ^ 32 - 1) := by
    have := List.sum_le_card_nsmul (m.map (fun e => e.2.toNat)) (2 ^ 32 - 1) (by
      intro x hx
      obtain ⟨e, -, rfl⟩ := List.mem_map.1 hx
      have := e.2.isLt; omega)
    simpa using this
  have : m.length * (2 ^ 32 - 1) ≤ 65536 * (2 ^ 32 - 1) := Nat.mul_le_mul_right _ h
  omega

theorem mem_leafQueue {m : Memory Count} {x : QEntry} (hx : x ∈ leafQueue m) :
    ∃ e, m[x.ix]? = some e ∧ x.freq = e.2.toNat := by
  obtain ⟨p, hp, rfl⟩ := List.mem_map.1 hx
  obtain ⟨e, j⟩ := p
  exact ⟨e, List.mem_zipIdx_iff_getElem?.1 hp, rfl⟩

/-- The invariant of the loop holds of the leaves. -/
theorem mergeInv_leaves {m : Memory Count} (h : FreqTable m) (hne : m ≠ []) :
    MergeInv m.length (leafQueue m) (leavesOf m) := by
  have hpos : 0 < m.length := List.length_pos_iff.2 hne
  have hle : m.length ≤ numSymbols := length_le_numSymbols h.wf h.sym
  have nokids : ∀ k, kidsOf (leavesOf m) k = [] := by
    intro k; simp only [kidsOf, leavesOf_getElem?]
    cases m[k]? <;> rfl
  apply MergeInv.mk hpos hle
  case ne =>
    rw [← List.length_pos_iff, leafQueue_length]; exact hpos
  case count =>
    simp; omega
  case many =>
    simp
  case perm =>
    rw [childrenOf_leavesOf, List.append_nil, leafQueue_ix, leavesOf_length]
  case freq =>
    intro x hx
    obtain ⟨e, he, hf⟩ := mem_leafQueue hx
    rw [freqOf, leavesOf_getElem?, he]
    simp only [Option.map_some, Option.getD_some, nodeFreq, leaf_freq, hf]
  case total =>
    rw [leafQueue_freq]; exact sum_counts_lt m hle
  case leaf =>
    intro j hj
    rw [leavesOf_getElem?, List.getElem?_eq_getElem hj]; rfl
  case internal =>
    intro k hk hnk; simp at hk; omega
  case below =>
    intro k _ c hc; simp [nokids] at hc
  case ordered =>
    intro k f l r hk
    rw [leavesOf_getElem?] at hk
    cases hm : m[k]? <;> simp [hm] at hk
  case greedy =>
    intro k f l r hk
    rw [leavesOf_getElem?] at hk
    cases hm : m[k]? <;> simp [hm] at hk
  case sum =>
    intro k hk hnk; simp at hk; omega
  case mono =>
    intro k hnk hk; simp at hk; omega
  case next =>
    intro hlt; simp at hlt

/-- When one node is left, the tree of R21 is made and its root is the last index (R85). -/
theorem MergeInv.rootIx {n : Nat} {x : QEntry} {nodes : List Node} (h : MergeInv n [x] nodes) :
    nodes.length = 2 * n - 1 ∧ x.ix = 2 * n - 2 ∧ (childrenOf nodes).Perm (List.range (2 * n - 2)) := by
  have hpos := h.pos
  have hlen : nodes.length = 2 * n - 1 := by have := h.count; simp at this; omega
  have hlast : 2 * n - 2 ∉ childrenOf nodes := by
    intro hc
    obtain ⟨nd, hnd, hcn⟩ := List.mem_flatMap.1 hc
    obtain ⟨k, hk, rfl⟩ := List.mem_iff_getElem.1 hnd
    have := h.below k hk (2 * n - 2) (by simpa [kidsOf, List.getElem?_eq_getElem hk] using hcn)
    omega
  have hx : x.ix = 2 * n - 2 := by
    have : 2 * n - 2 ∈ [x].map QEntry.ix ++ childrenOf nodes := h.perm.mem_iff.2 (List.mem_range.2 (by omega))
    simp only [List.map_cons, List.map_nil, List.mem_append, List.mem_singleton] at this
    exact (this.resolve_right hlast).symm
  refine ⟨hlen, hx, ?_⟩
  have hp := h.perm
  have hr : List.range nodes.length = List.range (2 * n - 2) ++ [2 * n - 2] := by
    rw [hlen, show 2 * n - 1 = (2 * n - 2) + 1 by omega, List.range_succ]
  rw [hr, List.map_cons, List.map_nil, hx] at hp
  exact (List.perm_cons _).1 ((List.singleton_append (x := 2 * n - 2) (l := childrenOf nodes) ▸ hp).trans
    List.perm_append_comm)

/-! ### The tree BUILD makes (R80, R85) -/

/-- The loop ends with one node in the queue. -/
theorem buildTree_spec {m : Memory Count} (h : FreqTable m) (hne : m ≠ []) : ∃ x, MergeInv m.length [x] (buildTree m) :=
  mergeLoop_spec (mergeInv_leaves h hne) (by simp)

theorem buildTree_leaf {m : Memory Count} {j : Nat} (hj : j < m.length) :
    (buildTree m)[j]? = some (.leaf (BitVec.ofNat 16 m[j].1) (m[j].2.setWidth 48)) := by
  obtain ⟨t, ht⟩ := mergeLoop_prefix m.length (leafQueue m) (leavesOf m)
  rw [buildTree, ← ht, List.getElem?_append_left (by simpa using hj), leavesOf_getElem?, List.getElem?_eq_getElem hj]
  rfl

theorem buildTree_sym {m : Memory Count} (h : FreqTable m) {j : Nat} (hj : j < m.length) :
    symOf (buildTree m) j = m[j].1 := by
  have : m[j].1 < 65536 := h.sym _ (List.getElem_mem hj)
  simp [symOf, buildTree_leaf hj, nodeSym]; omega

theorem buildTree_leafFreq {m : Memory Count} {j : Nat} (hj : j < m.length) :
    freqOf (buildTree m) j = m[j].2.toNat := by
  rw [freqOf, buildTree_leaf hj]; exact leaf_freq _

theorem kidsOf_sublist (nodes : List Node) (k : Nat) : (kidsOf nodes k).Sublist (childrenOf nodes) := by
  unfold kidsOf
  cases h : nodes[k]? with
  | none => simp
  | some nd =>
    obtain ⟨hk, rfl⟩ := List.getElem?_eq_some_iff.1 h
    simp only [Option.map_some, Option.getD_some]
    rw [childrenOf, List.flatMap_def]
    exact List.sublist_flatten_of_mem (List.mem_map_of_mem (List.getElem_mem hk))

/-- The merge loop makes a tree of R21. -/
theorem buildTree_treeInv {m : Memory Count} (h : FreqTable m) (hne : m ≠ []) : TreeInv (buildTree m) m.length := by
  obtain ⟨x, hx⟩ := buildTree_spec h hne
  obtain ⟨hlen, -, hperm⟩ := hx.rootIx
  have hnd := hperm.nodup_iff.2 List.nodup_range
  apply TreeInv.mk hx.pos hx.le hlen hx.leaf
  case sorted =>
    intro j hj
    rw [buildTree_sym h hj, buildTree_sym h (by omega)]
    exact List.pairwise_iff_getElem.1 h.wf j (j + 1) (by omega) hj (by omega)
  case internal =>
    intro k hk; exact hx.internal k (by omega)
  case below =>
    intro k hk; exact hx.below k (by omega)
  case apart =>
    intro k hk; exact (kidsOf_sublist _ _).nodup hnd
  case sum =>
    intro k hk; exact hx.sum k (by omega)
  case once =>
    intro j hj
    rw [hperm.count_eq, List.count_eq_one_of_mem List.nodup_range (List.mem_range.2 hj)]
  case root =>
    rw [hperm.count_eq]; exact List.count_eq_zero.2 (by simp)
  case freqPos =>
    intro j hj
    rw [buildTree_leafFreq hj]
    have := h.nonzero _ (List.getElem_mem hj)
    rw [ne_eq, ← BitVec.toNat_inj] at this
    simp at this; omega

end Sys2Proof.Machine
end

