-- ==== Sys2Proof/Laws/State.lean ====
section
/-! SUPPORT. One lemma per field per update of State, so that no later proof unfolds a record update. -/

namespace Sys2Proof.Machine

/-! ### completeOk -/

@[simp] theorem completeOk_cfg (s : State) : (completeOk s).cfg = s.cfg := rfl
@[simp] theorem completeOk_txt (s : State) : (completeOk s).txt = s.txt := rfl
@[simp] theorem completeOk_tlen (s : State) : (completeOk s).tlen = s.tlen := rfl
@[simp] theorem completeOk_freq (s : State) : (completeOk s).freq = s.freq := rfl
@[simp] theorem completeOk_node (s : State) : (completeOk s).node = s.node := rfl
@[simp] theorem completeOk_nleaf (s : State) : (completeOk s).nleaf = s.nleaf := rfl
@[simp] theorem completeOk_nnode (s : State) : (completeOk s).nnode = s.nnode := rfl
@[simp] theorem completeOk_root (s : State) : (completeOk s).root = s.root := rfl
@[simp] theorem completeOk_scode (s : State) : (completeOk s).scode = s.scode := rfl
@[simp] theorem completeOk_scnt (s : State) : (completeOk s).scnt = s.scnt := rfl
@[simp] theorem completeOk_ccode (s : State) : (completeOk s).ccode = s.ccode := rfl
@[simp] theorem completeOk_ccnt (s : State) : (completeOk s).ccnt = s.ccnt := rfl
@[simp] theorem completeOk_out (s : State) : (completeOk s).out = s.out := rfl
@[simp] theorem completeOk_outlen (s : State) : (completeOk s).outlen = s.outlen := rfl
@[simp] theorem completeOk_stBusy (s : State) : (completeOk s).stBusy = false := rfl
@[simp] theorem completeOk_stDone (s : State) : (completeOk s).stDone = true := rfl
@[simp] theorem completeOk_stFault (s : State) : (completeOk s).stFault = s.stFault := rfl
@[simp] theorem completeOk_stDrop (s : State) : (completeOk s).stDrop = s.stDrop := rfl
@[simp] theorem completeOk_cmdlat (s : State) : (completeOk s).cmdlat = s.cmdlat := rfl
@[simp] theorem completeOk_slz (s : State) : (completeOk s).slz = s.slz := rfl
@[simp] theorem completeOk_fcode (s : State) : (completeOk s).fcode = s.fcode := rfl
@[simp] theorem completeOk_finfo0 (s : State) : (completeOk s).finfo0 = s.finfo0 := rfl
@[simp] theorem completeOk_finfo1 (s : State) : (completeOk s).finfo1 = s.finfo1 := rfl
@[simp] theorem completeOk_agenda (s : State) : (completeOk s).agenda = s.agenda := rfl
@[simp] theorem completeOk_reads (s : State) : (completeOk s).reads = s.reads := rfl
@[simp] theorem completeOk_freeIx (s : State) : (completeOk s).freeIx = s.freeIx := rfl

/-! ### issue -/

@[simp] theorem issue_cfg (w : Word) (s : State) : (issue w s).cfg = s.cfg := rfl
@[simp] theorem issue_txt (w : Word) (s : State) : (issue w s).txt = s.txt := rfl
@[simp] theorem issue_tlen (w : Word) (s : State) : (issue w s).tlen = s.tlen := rfl
@[simp] theorem issue_freq (w : Word) (s : State) : (issue w s).freq = s.freq := rfl
@[simp] theorem issue_node (w : Word) (s : State) : (issue w s).node = s.node := rfl
@[simp] theorem issue_nleaf (w : Word) (s : State) : (issue w s).nleaf = s.nleaf := rfl
@[simp] theorem issue_nnode (w : Word) (s : State) : (issue w s).nnode = s.nnode := rfl
@[simp] theorem issue_root (w : Word) (s : State) : (issue w s).root = s.root := rfl
@[simp] theorem issue_scode (w : Word) (s : State) : (issue w s).scode = s.scode := rfl
@[simp] theorem issue_scnt (w : Word) (s : State) : (issue w s).scnt = s.scnt := rfl
@[simp] theorem issue_ccode (w : Word) (s : State) : (issue w s).ccode = s.ccode := rfl
@[simp] theorem issue_ccnt (w : Word) (s : State) : (issue w s).ccnt = s.ccnt := rfl
@[simp] theorem issue_out (w : Word) (s : State) : (issue w s).out = s.out := rfl
@[simp] theorem issue_outlen (w : Word) (s : State) : (issue w s).outlen = s.outlen := rfl
@[simp] theorem issue_stBusy (w : Word) (s : State) : (issue w s).stBusy = true := rfl
@[simp] theorem issue_stDone (w : Word) (s : State) : (issue w s).stDone = false := rfl
@[simp] theorem issue_stFault (w : Word) (s : State) : (issue w s).stFault = s.stFault := rfl
@[simp] theorem issue_stDrop (w : Word) (s : State) : (issue w s).stDrop = s.stDrop := rfl
@[simp] theorem issue_cmdlat (w : Word) (s : State) : (issue w s).cmdlat = w := rfl
@[simp] theorem issue_slz (w : Word) (s : State) : (issue w s).slz = s.slz := rfl
@[simp] theorem issue_fcode (w : Word) (s : State) : (issue w s).fcode = s.fcode := rfl
@[simp] theorem issue_finfo0 (w : Word) (s : State) : (issue w s).finfo0 = s.finfo0 := rfl
@[simp] theorem issue_finfo1 (w : Word) (s : State) : (issue w s).finfo1 = s.finfo1 := rfl
@[simp] theorem issue_agenda (w : Word) (s : State) : (issue w s).agenda = s.agenda := rfl
@[simp] theorem issue_reads (w : Word) (s : State) : (issue w s).reads = s.reads := rfl
@[simp] theorem issue_freeIx (w : Word) (s : State) : (issue w s).freeIx = s.freeIx := rfl

/-! ### takeFault -/

@[simp] theorem takeFault_cfg (c : Cause) (i j : Word) (s : State) : (takeFault c i j s).cfg = s.cfg := rfl
@[simp] theorem takeFault_txt (c : Cause) (i j : Word) (s : State) : (takeFault c i j s).txt = s.txt := rfl
@[simp] theorem takeFault_tlen (c : Cause) (i j : Word) (s : State) : (takeFault c i j s).tlen = s.tlen := rfl
@[simp] theorem takeFault_freq (c : Cause) (i j : Word) (s : State) : (takeFault c i j s).freq = s.freq := rfl
@[simp] theorem takeFault_node (c : Cause) (i j : Word) (s : State) : (takeFault c i j s).node = s.node := rfl
@[simp] theorem takeFault_nleaf (c : Cause) (i j : Word) (s : State) : (takeFault c i j s).nleaf = s.nleaf := rfl
@[simp] theorem takeFault_nnode (c : Cause) (i j : Word) (s : State) : (takeFault c i j s).nnode = s.nnode := rfl
@[simp] theorem takeFault_root (c : Cause) (i j : Word) (s : State) : (takeFault c i j s).root = s.root := rfl
@[simp] theorem takeFault_scode (c : Cause) (i j : Word) (s : State) : (takeFault c i j s).scode = s.scode := rfl
@[simp] theorem takeFault_scnt (c : Cause) (i j : Word) (s : State) : (takeFault c i j s).scnt = s.scnt := rfl
@[simp] theorem takeFault_ccode (c : Cause) (i j : Word) (s : State) : (takeFault c i j s).ccode = s.ccode := rfl
@[simp] theorem takeFault_ccnt (c : Cause) (i j : Word) (s : State) : (takeFault c i j s).ccnt = s.ccnt := rfl
@[simp] theorem takeFault_out (c : Cause) (i j : Word) (s : State) : (takeFault c i j s).out = s.out := rfl
@[simp] theorem takeFault_outlen (c : Cause) (i j : Word) (s : State) : (takeFault c i j s).outlen = s.outlen := rfl
@[simp] theorem takeFault_stBusy (c : Cause) (i j : Word) (s : State) : (takeFault c i j s).stBusy = false := rfl
@[simp] theorem takeFault_stDone (c : Cause) (i j : Word) (s : State) : (takeFault c i j s).stDone = false := rfl
@[simp] theorem takeFault_stFault (c : Cause) (i j : Word) (s : State) : (takeFault c i j s).stFault = true := rfl
@[simp] theorem takeFault_stDrop (c : Cause) (i j : Word) (s : State) : (takeFault c i j s).stDrop = s.stDrop := rfl
@[simp] theorem takeFault_cmdlat (c : Cause) (i j : Word) (s : State) : (takeFault c i j s).cmdlat = s.cmdlat := rfl
@[simp] theorem takeFault_slz (c : Cause) (i j : Word) (s : State) : (takeFault c i j s).slz = s.slz := rfl
@[simp] theorem takeFault_fcode (c : Cause) (i j : Word) (s : State) : (takeFault c i j s).fcode = causeCode c := rfl
@[simp] theorem takeFault_finfo0 (c : Cause) (i j : Word) (s : State) : (takeFault c i j s).finfo0 = i := rfl
@[simp] theorem takeFault_finfo1 (c : Cause) (i j : Word) (s : State) : (takeFault c i j s).finfo1 = j := rfl
@[simp] theorem takeFault_agenda (c : Cause) (i j : Word) (s : State) : (takeFault c i j s).agenda = s.agenda := rfl
@[simp] theorem takeFault_reads (c : Cause) (i j : Word) (s : State) : (takeFault c i j s).reads = s.reads := rfl
@[simp] theorem takeFault_freeIx (c : Cause) (i j : Word) (s : State) : (takeFault c i j s).freeIx = s.freeIx := rfl

/-! ### clearFault -/

@[simp] theorem clearFault_cfg (s : State) : (clearFault s).cfg = s.cfg := rfl
@[simp] theorem clearFault_txt (s : State) : (clearFault s).txt = s.txt := rfl
@[simp] theorem clearFault_tlen (s : State) : (clearFault s).tlen = s.tlen := rfl
@[simp] theorem clearFault_freq (s : State) : (clearFault s).freq = s.freq := rfl
@[simp] theorem clearFault_node (s : State) : (clearFault s).node = s.node := rfl
@[simp] theorem clearFault_nleaf (s : State) : (clearFault s).nleaf = s.nleaf := rfl
@[simp] theorem clearFault_nnode (s : State) : (clearFault s).nnode = s.nnode := rfl
@[simp] theorem clearFault_root (s : State) : (clearFault s).root = s.root := rfl
@[simp] theorem clearFault_scode (s : State) : (clearFault s).scode = s.scode := rfl
@[simp] theorem clearFault_scnt (s : State) : (clearFault s).scnt = s.scnt := rfl
@[simp] theorem clearFault_ccode (s : State) : (clearFault s).ccode = s.ccode := rfl
@[simp] theorem clearFault_ccnt (s : State) : (clearFault s).ccnt = s.ccnt := rfl
@[simp] theorem clearFault_out (s : State) : (clearFault s).out = s.out := rfl
@[simp] theorem clearFault_outlen (s : State) : (clearFault s).outlen = s.outlen := rfl
@[simp] theorem clearFault_stBusy (s : State) : (clearFault s).stBusy = s.stBusy := rfl
@[simp] theorem clearFault_stDone (s : State) : (clearFault s).stDone = s.stDone := rfl
@[simp] theorem clearFault_stFault (s : State) : (clearFault s).stFault = false := rfl
@[simp] theorem clearFault_stDrop (s : State) : (clearFault s).stDrop = false := rfl
@[simp] theorem clearFault_cmdlat (s : State) : (clearFault s).cmdlat = s.cmdlat := rfl
@[simp] theorem clearFault_slz (s : State) : (clearFault s).slz = s.slz := rfl
@[simp] theorem clearFault_fcode (s : State) : (clearFault s).fcode = 0 := rfl
@[simp] theorem clearFault_finfo0 (s : State) : (clearFault s).finfo0 = 0 := rfl
@[simp] theorem clearFault_finfo1 (s : State) : (clearFault s).finfo1 = 0 := rfl
@[simp] theorem clearFault_agenda (s : State) : (clearFault s).agenda = s.agenda := rfl
@[simp] theorem clearFault_reads (s : State) : (clearFault s).reads = s.reads := rfl
@[simp] theorem clearFault_freeIx (s : State) : (clearFault s).freeIx = s.freeIx := rfl

/-! ### dropWrite -/

@[simp] theorem dropWrite_cfg (s : State) : (dropWrite s).cfg = s.cfg := rfl
@[simp] theorem dropWrite_txt (s : State) : (dropWrite s).txt = s.txt := rfl
@[simp] theorem dropWrite_tlen (s : State) : (dropWrite s).tlen = s.tlen := rfl
@[simp] theorem dropWrite_freq (s : State) : (dropWrite s).freq = s.freq := rfl
@[simp] theorem dropWrite_node (s : State) : (dropWrite s).node = s.node := rfl
@[simp] theorem dropWrite_nleaf (s : State) : (dropWrite s).nleaf = s.nleaf := rfl
@[simp] theorem dropWrite_nnode (s : State) : (dropWrite s).nnode = s.nnode := rfl
@[simp] theorem dropWrite_root (s : State) : (dropWrite s).root = s.root := rfl
@[simp] theorem dropWrite_scode (s : State) : (dropWrite s).scode = s.scode := rfl
@[simp] theorem dropWrite_scnt (s : State) : (dropWrite s).scnt = s.scnt := rfl
@[simp] theorem dropWrite_ccode (s : State) : (dropWrite s).ccode = s.ccode := rfl
@[simp] theorem dropWrite_ccnt (s : State) : (dropWrite s).ccnt = s.ccnt := rfl
@[simp] theorem dropWrite_out (s : State) : (dropWrite s).out = s.out := rfl
@[simp] theorem dropWrite_outlen (s : State) : (dropWrite s).outlen = s.outlen := rfl
@[simp] theorem dropWrite_stBusy (s : State) : (dropWrite s).stBusy = s.stBusy := rfl
@[simp] theorem dropWrite_stDone (s : State) : (dropWrite s).stDone = s.stDone := rfl
@[simp] theorem dropWrite_stFault (s : State) : (dropWrite s).stFault = s.stFault := rfl
@[simp] theorem dropWrite_stDrop (s : State) : (dropWrite s).stDrop = true := rfl
@[simp] theorem dropWrite_cmdlat (s : State) : (dropWrite s).cmdlat = s.cmdlat := rfl
@[simp] theorem dropWrite_slz (s : State) : (dropWrite s).slz = s.slz := rfl
@[simp] theorem dropWrite_fcode (s : State) : (dropWrite s).fcode = s.fcode := rfl
@[simp] theorem dropWrite_finfo0 (s : State) : (dropWrite s).finfo0 = s.finfo0 := rfl
@[simp] theorem dropWrite_finfo1 (s : State) : (dropWrite s).finfo1 = s.finfo1 := rfl
@[simp] theorem dropWrite_agenda (s : State) : (dropWrite s).agenda = s.agenda := rfl
@[simp] theorem dropWrite_reads (s : State) : (dropWrite s).reads = s.reads := rfl
@[simp] theorem dropWrite_freeIx (s : State) : (dropWrite s).freeIx = s.freeIx := rfl

/-! ### drawFree -/

@[simp] theorem drawFree_cfg (n : Nat) (s : State) : (drawFree n s).cfg = s.cfg := rfl
@[simp] theorem drawFree_txt (n : Nat) (s : State) : (drawFree n s).txt = s.txt := rfl
@[simp] theorem drawFree_tlen (n : Nat) (s : State) : (drawFree n s).tlen = s.tlen := rfl
@[simp] theorem drawFree_freq (n : Nat) (s : State) : (drawFree n s).freq = s.freq := rfl
@[simp] theorem drawFree_node (n : Nat) (s : State) : (drawFree n s).node = s.node := rfl
@[simp] theorem drawFree_nleaf (n : Nat) (s : State) : (drawFree n s).nleaf = s.nleaf := rfl
@[simp] theorem drawFree_nnode (n : Nat) (s : State) : (drawFree n s).nnode = s.nnode := rfl
@[simp] theorem drawFree_root (n : Nat) (s : State) : (drawFree n s).root = s.root := rfl
@[simp] theorem drawFree_scode (n : Nat) (s : State) : (drawFree n s).scode = s.scode := rfl
@[simp] theorem drawFree_scnt (n : Nat) (s : State) : (drawFree n s).scnt = s.scnt := rfl
@[simp] theorem drawFree_ccode (n : Nat) (s : State) : (drawFree n s).ccode = s.ccode := rfl
@[simp] theorem drawFree_ccnt (n : Nat) (s : State) : (drawFree n s).ccnt = s.ccnt := rfl
@[simp] theorem drawFree_out (n : Nat) (s : State) : (drawFree n s).out = s.out := rfl
@[simp] theorem drawFree_outlen (n : Nat) (s : State) : (drawFree n s).outlen = s.outlen := rfl
@[simp] theorem drawFree_stBusy (n : Nat) (s : State) : (drawFree n s).stBusy = s.stBusy := rfl
@[simp] theorem drawFree_stDone (n : Nat) (s : State) : (drawFree n s).stDone = s.stDone := rfl
@[simp] theorem drawFree_stFault (n : Nat) (s : State) : (drawFree n s).stFault = s.stFault := rfl
@[simp] theorem drawFree_stDrop (n : Nat) (s : State) : (drawFree n s).stDrop = s.stDrop := rfl
@[simp] theorem drawFree_cmdlat (n : Nat) (s : State) : (drawFree n s).cmdlat = s.cmdlat := rfl
@[simp] theorem drawFree_slz (n : Nat) (s : State) : (drawFree n s).slz = s.slz := rfl
@[simp] theorem drawFree_fcode (n : Nat) (s : State) : (drawFree n s).fcode = s.fcode := rfl
@[simp] theorem drawFree_finfo0 (n : Nat) (s : State) : (drawFree n s).finfo0 = s.finfo0 := rfl
@[simp] theorem drawFree_finfo1 (n : Nat) (s : State) : (drawFree n s).finfo1 = s.finfo1 := rfl
@[simp] theorem drawFree_agenda (n : Nat) (s : State) : (drawFree n s).agenda = s.agenda := rfl
@[simp] theorem drawFree_reads (n : Nat) (s : State) : (drawFree n s).reads = s.reads := rfl
@[simp] theorem drawFree_freeIx (n : Nat) (s : State) : (drawFree n s).freeIx = s.freeIx + n := rfl

/-! ### afterText -/

@[simp] theorem afterText_cfg (s : State) : (afterText s).cfg = s.cfg := rfl
@[simp] theorem afterText_txt (s : State) : (afterText s).txt = s.txt := rfl
@[simp] theorem afterText_tlen (s : State) : (afterText s).tlen = s.tlen := rfl
@[simp] theorem afterText_freq (s : State) : (afterText s).freq = s.freq := rfl
@[simp] theorem afterText_node (s : State) : (afterText s).node = s.node := rfl
@[simp] theorem afterText_nleaf (s : State) : (afterText s).nleaf = s.nleaf := rfl
@[simp] theorem afterText_nnode (s : State) : (afterText s).nnode = s.nnode := rfl
@[simp] theorem afterText_root (s : State) : (afterText s).root = s.root := rfl
@[simp] theorem afterText_scode (s : State) : (afterText s).scode = s.scode := rfl
@[simp] theorem afterText_scnt (s : State) : (afterText s).scnt = s.scnt := rfl
@[simp] theorem afterText_ccode (s : State) : (afterText s).ccode = s.ccode := rfl
@[simp] theorem afterText_ccnt (s : State) : (afterText s).ccnt = s.ccnt := rfl
@[simp] theorem afterText_out (s : State) : (afterText s).out = s.out := rfl
@[simp] theorem afterText_outlen (s : State) : (afterText s).outlen = s.outlen := rfl
@[simp] theorem afterText_stBusy (s : State) : (afterText s).stBusy = s.stBusy := rfl
@[simp] theorem afterText_stDone (s : State) : (afterText s).stDone = s.stDone := rfl
@[simp] theorem afterText_stFault (s : State) : (afterText s).stFault = s.stFault := rfl
@[simp] theorem afterText_stDrop (s : State) : (afterText s).stDrop = s.stDrop := rfl
@[simp] theorem afterText_cmdlat (s : State) : (afterText s).cmdlat = s.cmdlat := rfl
@[simp] theorem afterText_slz (s : State) : (afterText s).slz = s.slz := rfl
@[simp] theorem afterText_fcode (s : State) : (afterText s).fcode = s.fcode := rfl
@[simp] theorem afterText_finfo0 (s : State) : (afterText s).finfo0 = s.finfo0 := rfl
@[simp] theorem afterText_finfo1 (s : State) : (afterText s).finfo1 = s.finfo1 := rfl
@[simp] theorem afterText_agenda (s : State) : (afterText s).agenda = s.agenda := rfl
@[simp] theorem afterText_reads (s : State) : (afterText s).reads = s.reads := rfl
@[simp] theorem afterText_freeIx (s : State) : (afterText s).freeIx = s.freeIx + s.tlen.toNat := rfl

/-! ### emptyTables -/

@[simp] theorem emptyTables_cfg (s : State) : (emptyTables s).cfg = s.cfg := rfl
@[simp] theorem emptyTables_txt (s : State) : (emptyTables s).txt = s.txt := rfl
@[simp] theorem emptyTables_tlen (s : State) : (emptyTables s).tlen = s.tlen := rfl
@[simp] theorem emptyTables_freq (s : State) : (emptyTables s).freq = [] := rfl
@[simp] theorem emptyTables_node (s : State) : (emptyTables s).node = [] := rfl
@[simp] theorem emptyTables_nleaf (s : State) : (emptyTables s).nleaf = 0 := rfl
@[simp] theorem emptyTables_nnode (s : State) : (emptyTables s).nnode = 0 := rfl
@[simp] theorem emptyTables_root (s : State) : (emptyTables s).root = 0 := rfl
@[simp] theorem emptyTables_scode (s : State) : (emptyTables s).scode = [] := rfl
@[simp] theorem emptyTables_scnt (s : State) : (emptyTables s).scnt = 0 := rfl
@[simp] theorem emptyTables_ccode (s : State) : (emptyTables s).ccode = [] := rfl
@[simp] theorem emptyTables_ccnt (s : State) : (emptyTables s).ccnt = 0 := rfl
@[simp] theorem emptyTables_out (s : State) : (emptyTables s).out = [] := rfl
@[simp] theorem emptyTables_outlen (s : State) : (emptyTables s).outlen = 0 := rfl
@[simp] theorem emptyTables_stBusy (s : State) : (emptyTables s).stBusy = s.stBusy := rfl
@[simp] theorem emptyTables_stDone (s : State) : (emptyTables s).stDone = s.stDone := rfl
@[simp] theorem emptyTables_stFault (s : State) : (emptyTables s).stFault = s.stFault := rfl
@[simp] theorem emptyTables_stDrop (s : State) : (emptyTables s).stDrop = s.stDrop := rfl
@[simp] theorem emptyTables_cmdlat (s : State) : (emptyTables s).cmdlat = s.cmdlat := rfl
@[simp] theorem emptyTables_slz (s : State) : (emptyTables s).slz = s.slz := rfl
@[simp] theorem emptyTables_fcode (s : State) : (emptyTables s).fcode = s.fcode := rfl
@[simp] theorem emptyTables_finfo0 (s : State) : (emptyTables s).finfo0 = s.finfo0 := rfl
@[simp] theorem emptyTables_finfo1 (s : State) : (emptyTables s).finfo1 = s.finfo1 := rfl
@[simp] theorem emptyTables_agenda (s : State) : (emptyTables s).agenda = s.agenda := rfl
@[simp] theorem emptyTables_reads (s : State) : (emptyTables s).reads = s.reads := rfl
@[simp] theorem emptyTables_freeIx (s : State) : (emptyTables s).freeIx = s.freeIx := rfl

/-! ### popAgenda -/

@[simp] theorem popAgenda_cfg (s : State) : (popAgenda s).cfg = s.cfg := rfl
@[simp] theorem popAgenda_txt (s : State) : (popAgenda s).txt = s.txt := rfl
@[simp] theorem popAgenda_tlen (s : State) : (popAgenda s).tlen = s.tlen := rfl
@[simp] theorem popAgenda_freq (s : State) : (popAgenda s).freq = s.freq := rfl
@[simp] theorem popAgenda_node (s : State) : (popAgenda s).node = s.node := rfl
@[simp] theorem popAgenda_nleaf (s : State) : (popAgenda s).nleaf = s.nleaf := rfl
@[simp] theorem popAgenda_nnode (s : State) : (popAgenda s).nnode = s.nnode := rfl
@[simp] theorem popAgenda_root (s : State) : (popAgenda s).root = s.root := rfl
@[simp] theorem popAgenda_scode (s : State) : (popAgenda s).scode = s.scode := rfl
@[simp] theorem popAgenda_scnt (s : State) : (popAgenda s).scnt = s.scnt := rfl
@[simp] theorem popAgenda_ccode (s : State) : (popAgenda s).ccode = s.ccode := rfl
@[simp] theorem popAgenda_ccnt (s : State) : (popAgenda s).ccnt = s.ccnt := rfl
@[simp] theorem popAgenda_out (s : State) : (popAgenda s).out = s.out := rfl
@[simp] theorem popAgenda_outlen (s : State) : (popAgenda s).outlen = s.outlen := rfl
@[simp] theorem popAgenda_stBusy (s : State) : (popAgenda s).stBusy = s.stBusy := rfl
@[simp] theorem popAgenda_stDone (s : State) : (popAgenda s).stDone = s.stDone := rfl
@[simp] theorem popAgenda_stFault (s : State) : (popAgenda s).stFault = s.stFault := rfl
@[simp] theorem popAgenda_stDrop (s : State) : (popAgenda s).stDrop = s.stDrop := rfl
@[simp] theorem popAgenda_cmdlat (s : State) : (popAgenda s).cmdlat = s.cmdlat := rfl
@[simp] theorem popAgenda_slz (s : State) : (popAgenda s).slz = s.slz := rfl
@[simp] theorem popAgenda_fcode (s : State) : (popAgenda s).fcode = s.fcode := rfl
@[simp] theorem popAgenda_finfo0 (s : State) : (popAgenda s).finfo0 = s.finfo0 := rfl
@[simp] theorem popAgenda_finfo1 (s : State) : (popAgenda s).finfo1 = s.finfo1 := rfl
@[simp] theorem popAgenda_agenda (s : State) : (popAgenda s).agenda = s.agenda.tail := rfl
@[simp] theorem popAgenda_reads (s : State) : (popAgenda s).reads = s.reads := rfl
@[simp] theorem popAgenda_freeIx (s : State) : (popAgenda s).freeIx = s.freeIx := rfl

/-! ### busRead -/

@[simp] theorem busRead_cfg (a : Addr) (s : State) : (busRead a s).cfg = s.cfg := rfl
@[simp] theorem busRead_txt (a : Addr) (s : State) : (busRead a s).txt = s.txt := rfl
@[simp] theorem busRead_tlen (a : Addr) (s : State) : (busRead a s).tlen = s.tlen := rfl
@[simp] theorem busRead_freq (a : Addr) (s : State) : (busRead a s).freq = s.freq := rfl
@[simp] theorem busRead_node (a : Addr) (s : State) : (busRead a s).node = s.node := rfl
@[simp] theorem busRead_nleaf (a : Addr) (s : State) : (busRead a s).nleaf = s.nleaf := rfl
@[simp] theorem busRead_nnode (a : Addr) (s : State) : (busRead a s).nnode = s.nnode := rfl
@[simp] theorem busRead_root (a : Addr) (s : State) : (busRead a s).root = s.root := rfl
@[simp] theorem busRead_scode (a : Addr) (s : State) : (busRead a s).scode = s.scode := rfl
@[simp] theorem busRead_scnt (a : Addr) (s : State) : (busRead a s).scnt = s.scnt := rfl
@[simp] theorem busRead_ccode (a : Addr) (s : State) : (busRead a s).ccode = s.ccode := rfl
@[simp] theorem busRead_ccnt (a : Addr) (s : State) : (busRead a s).ccnt = s.ccnt := rfl
@[simp] theorem busRead_out (a : Addr) (s : State) : (busRead a s).out = s.out := rfl
@[simp] theorem busRead_outlen (a : Addr) (s : State) : (busRead a s).outlen = s.outlen := rfl
@[simp] theorem busRead_stBusy (a : Addr) (s : State) : (busRead a s).stBusy = s.stBusy := rfl
@[simp] theorem busRead_stDone (a : Addr) (s : State) : (busRead a s).stDone = s.stDone := rfl
@[simp] theorem busRead_stFault (a : Addr) (s : State) : (busRead a s).stFault = s.stFault := rfl
@[simp] theorem busRead_stDrop (a : Addr) (s : State) : (busRead a s).stDrop = s.stDrop := rfl
@[simp] theorem busRead_cmdlat (a : Addr) (s : State) : (busRead a s).cmdlat = s.cmdlat := rfl
@[simp] theorem busRead_slz (a : Addr) (s : State) : (busRead a s).slz = s.slz := rfl
@[simp] theorem busRead_fcode (a : Addr) (s : State) : (busRead a s).fcode = s.fcode := rfl
@[simp] theorem busRead_finfo0 (a : Addr) (s : State) : (busRead a s).finfo0 = s.finfo0 := rfl
@[simp] theorem busRead_finfo1 (a : Addr) (s : State) : (busRead a s).finfo1 = s.finfo1 := rfl
@[simp] theorem busRead_agenda (a : Addr) (s : State) : (busRead a s).agenda = s.agenda := rfl
@[simp] theorem busRead_reads (a : Addr) (s : State) : (busRead a s).reads = memRead s a :: s.reads := rfl
@[simp] theorem busRead_freeIx (a : Addr) (s : State) : (busRead a s).freeIx = s.freeIx + 1 := rfl

/-! ### putFreq -/

@[simp] theorem putFreq_cfg (m : Memory Count) (s : State) : (putFreq m s).cfg = s.cfg := rfl
@[simp] theorem putFreq_txt (m : Memory Count) (s : State) : (putFreq m s).txt = s.txt := rfl
@[simp] theorem putFreq_tlen (m : Memory Count) (s : State) : (putFreq m s).tlen = s.tlen := rfl
@[simp] theorem putFreq_freq (m : Memory Count) (s : State) : (putFreq m s).freq = m := rfl
@[simp] theorem putFreq_node (m : Memory Count) (s : State) : (putFreq m s).node = s.node := rfl
@[simp] theorem putFreq_nleaf (m : Memory Count) (s : State) : (putFreq m s).nleaf = s.nleaf := rfl
@[simp] theorem putFreq_nnode (m : Memory Count) (s : State) : (putFreq m s).nnode = s.nnode := rfl
@[simp] theorem putFreq_root (m : Memory Count) (s : State) : (putFreq m s).root = s.root := rfl
@[simp] theorem putFreq_scode (m : Memory Count) (s : State) : (putFreq m s).scode = s.scode := rfl
@[simp] theorem putFreq_scnt (m : Memory Count) (s : State) : (putFreq m s).scnt = s.scnt := rfl
@[simp] theorem putFreq_ccode (m : Memory Count) (s : State) : (putFreq m s).ccode = s.ccode := rfl
@[simp] theorem putFreq_ccnt (m : Memory Count) (s : State) : (putFreq m s).ccnt = s.ccnt := rfl
@[simp] theorem putFreq_out (m : Memory Count) (s : State) : (putFreq m s).out = s.out := rfl
@[simp] theorem putFreq_outlen (m : Memory Count) (s : State) : (putFreq m s).outlen = s.outlen := rfl
@[simp] theorem putFreq_stBusy (m : Memory Count) (s : State) : (putFreq m s).stBusy = s.stBusy := rfl
@[simp] theorem putFreq_stDone (m : Memory Count) (s : State) : (putFreq m s).stDone = s.stDone := rfl
@[simp] theorem putFreq_stFault (m : Memory Count) (s : State) : (putFreq m s).stFault = s.stFault := rfl
@[simp] theorem putFreq_stDrop (m : Memory Count) (s : State) : (putFreq m s).stDrop = s.stDrop := rfl
@[simp] theorem putFreq_cmdlat (m : Memory Count) (s : State) : (putFreq m s).cmdlat = s.cmdlat := rfl
@[simp] theorem putFreq_slz (m : Memory Count) (s : State) : (putFreq m s).slz = s.slz := rfl
@[simp] theorem putFreq_fcode (m : Memory Count) (s : State) : (putFreq m s).fcode = s.fcode := rfl
@[simp] theorem putFreq_finfo0 (m : Memory Count) (s : State) : (putFreq m s).finfo0 = s.finfo0 := rfl
@[simp] theorem putFreq_finfo1 (m : Memory Count) (s : State) : (putFreq m s).finfo1 = s.finfo1 := rfl
@[simp] theorem putFreq_agenda (m : Memory Count) (s : State) : (putFreq m s).agenda = s.agenda := rfl
@[simp] theorem putFreq_reads (m : Memory Count) (s : State) : (putFreq m s).reads = s.reads := rfl
@[simp] theorem putFreq_freeIx (m : Memory Count) (s : State) : (putFreq m s).freeIx = s.freeIx := rfl

/-! ### putTree -/

@[simp] theorem putTree_cfg (nodes : List Node) (n : Nat) (s : State) : (putTree nodes n s).cfg = s.cfg := rfl
@[simp] theorem putTree_txt (nodes : List Node) (n : Nat) (s : State) : (putTree nodes n s).txt = s.txt := rfl
@[simp] theorem putTree_tlen (nodes : List Node) (n : Nat) (s : State) : (putTree nodes n s).tlen = s.tlen := rfl
@[simp] theorem putTree_freq (nodes : List Node) (n : Nat) (s : State) : (putTree nodes n s).freq = s.freq := rfl
@[simp] theorem putTree_node (nodes : List Node) (n : Nat) (s : State) : (putTree nodes n s).node = nodes := rfl
@[simp] theorem putTree_nleaf (nodes : List Node) (n : Nat) (s : State) : (putTree nodes n s).nleaf = BitVec.ofNat 17 n := rfl
@[simp] theorem putTree_nnode (nodes : List Node) (n : Nat) (s : State) : (putTree nodes n s).nnode = BitVec.ofNat 17 (2 * n - 1) := rfl
@[simp] theorem putTree_root (nodes : List Node) (n : Nat) (s : State) : (putTree nodes n s).root = BitVec.ofNat 17 (2 * n - 2) := rfl
@[simp] theorem putTree_scode (nodes : List Node) (n : Nat) (s : State) : (putTree nodes n s).scode = s.scode := rfl
@[simp] theorem putTree_scnt (nodes : List Node) (n : Nat) (s : State) : (putTree nodes n s).scnt = s.scnt := rfl
@[simp] theorem putTree_ccode (nodes : List Node) (n : Nat) (s : State) : (putTree nodes n s).ccode = s.ccode := rfl
@[simp] theorem putTree_ccnt (nodes : List Node) (n : Nat) (s : State) : (putTree nodes n s).ccnt = s.ccnt := rfl
@[simp] theorem putTree_out (nodes : List Node) (n : Nat) (s : State) : (putTree nodes n s).out = s.out := rfl
@[simp] theorem putTree_outlen (nodes : List Node) (n : Nat) (s : State) : (putTree nodes n s).outlen = s.outlen := rfl
@[simp] theorem putTree_stBusy (nodes : List Node) (n : Nat) (s : State) : (putTree nodes n s).stBusy = s.stBusy := rfl
@[simp] theorem putTree_stDone (nodes : List Node) (n : Nat) (s : State) : (putTree nodes n s).stDone = s.stDone := rfl
@[simp] theorem putTree_stFault (nodes : List Node) (n : Nat) (s : State) : (putTree nodes n s).stFault = s.stFault := rfl
@[simp] theorem putTree_stDrop (nodes : List Node) (n : Nat) (s : State) : (putTree nodes n s).stDrop = s.stDrop := rfl
@[simp] theorem putTree_cmdlat (nodes : List Node) (n : Nat) (s : State) : (putTree nodes n s).cmdlat = s.cmdlat := rfl
@[simp] theorem putTree_slz (nodes : List Node) (n : Nat) (s : State) : (putTree nodes n s).slz = s.slz := rfl
@[simp] theorem putTree_fcode (nodes : List Node) (n : Nat) (s : State) : (putTree nodes n s).fcode = s.fcode := rfl
@[simp] theorem putTree_finfo0 (nodes : List Node) (n : Nat) (s : State) : (putTree nodes n s).finfo0 = s.finfo0 := rfl
@[simp] theorem putTree_finfo1 (nodes : List Node) (n : Nat) (s : State) : (putTree nodes n s).finfo1 = s.finfo1 := rfl
@[simp] theorem putTree_agenda (nodes : List Node) (n : Nat) (s : State) : (putTree nodes n s).agenda = s.agenda := rfl
@[simp] theorem putTree_reads (nodes : List Node) (n : Nat) (s : State) : (putTree nodes n s).reads = s.reads := rfl
@[simp] theorem putTree_freeIx (nodes : List Node) (n : Nat) (s : State) : (putTree nodes n s).freeIx = s.freeIx := rfl

/-! ### putScode -/

@[simp] theorem putScode_cfg (m : Memory Code) (n : BitVec 17) (s : State) : (putScode m n s).cfg = s.cfg := rfl
@[simp] theorem putScode_txt (m : Memory Code) (n : BitVec 17) (s : State) : (putScode m n s).txt = s.txt := rfl
@[simp] theorem putScode_tlen (m : Memory Code) (n : BitVec 17) (s : State) : (putScode m n s).tlen = s.tlen := rfl
@[simp] theorem putScode_freq (m : Memory Code) (n : BitVec 17) (s : State) : (putScode m n s).freq = s.freq := rfl
@[simp] theorem putScode_node (m : Memory Code) (n : BitVec 17) (s : State) : (putScode m n s).node = s.node := rfl
@[simp] theorem putScode_nleaf (m : Memory Code) (n : BitVec 17) (s : State) : (putScode m n s).nleaf = s.nleaf := rfl
@[simp] theorem putScode_nnode (m : Memory Code) (n : BitVec 17) (s : State) : (putScode m n s).nnode = s.nnode := rfl
@[simp] theorem putScode_root (m : Memory Code) (n : BitVec 17) (s : State) : (putScode m n s).root = s.root := rfl
@[simp] theorem putScode_scode (m : Memory Code) (n : BitVec 17) (s : State) : (putScode m n s).scode = m := rfl
@[simp] theorem putScode_scnt (m : Memory Code) (n : BitVec 17) (s : State) : (putScode m n s).scnt = n := rfl
@[simp] theorem putScode_ccode (m : Memory Code) (n : BitVec 17) (s : State) : (putScode m n s).ccode = s.ccode := rfl
@[simp] theorem putScode_ccnt (m : Memory Code) (n : BitVec 17) (s : State) : (putScode m n s).ccnt = s.ccnt := rfl
@[simp] theorem putScode_out (m : Memory Code) (n : BitVec 17) (s : State) : (putScode m n s).out = s.out := rfl
@[simp] theorem putScode_outlen (m : Memory Code) (n : BitVec 17) (s : State) : (putScode m n s).outlen = s.outlen := rfl
@[simp] theorem putScode_stBusy (m : Memory Code) (n : BitVec 17) (s : State) : (putScode m n s).stBusy = s.stBusy := rfl
@[simp] theorem putScode_stDone (m : Memory Code) (n : BitVec 17) (s : State) : (putScode m n s).stDone = s.stDone := rfl
@[simp] theorem putScode_stFault (m : Memory Code) (n : BitVec 17) (s : State) : (putScode m n s).stFault = s.stFault := rfl
@[simp] theorem putScode_stDrop (m : Memory Code) (n : BitVec 17) (s : State) : (putScode m n s).stDrop = s.stDrop := rfl
@[simp] theorem putScode_cmdlat (m : Memory Code) (n : BitVec 17) (s : State) : (putScode m n s).cmdlat = s.cmdlat := rfl
@[simp] theorem putScode_slz (m : Memory Code) (n : BitVec 17) (s : State) : (putScode m n s).slz = s.slz := rfl
@[simp] theorem putScode_fcode (m : Memory Code) (n : BitVec 17) (s : State) : (putScode m n s).fcode = s.fcode := rfl
@[simp] theorem putScode_finfo0 (m : Memory Code) (n : BitVec 17) (s : State) : (putScode m n s).finfo0 = s.finfo0 := rfl
@[simp] theorem putScode_finfo1 (m : Memory Code) (n : BitVec 17) (s : State) : (putScode m n s).finfo1 = s.finfo1 := rfl
@[simp] theorem putScode_agenda (m : Memory Code) (n : BitVec 17) (s : State) : (putScode m n s).agenda = s.agenda := rfl
@[simp] theorem putScode_reads (m : Memory Code) (n : BitVec 17) (s : State) : (putScode m n s).reads = s.reads := rfl
@[simp] theorem putScode_freeIx (m : Memory Code) (n : BitVec 17) (s : State) : (putScode m n s).freeIx = s.freeIx := rfl

/-! ### putCcode -/

@[simp] theorem putCcode_cfg (m : Memory Code) (n : BitVec 17) (s : State) : (putCcode m n s).cfg = s.cfg := rfl
@[simp] theorem putCcode_txt (m : Memory Code) (n : BitVec 17) (s : State) : (putCcode m n s).txt = s.txt := rfl
@[simp] theorem putCcode_tlen (m : Memory Code) (n : BitVec 17) (s : State) : (putCcode m n s).tlen = s.tlen := rfl
@[simp] theorem putCcode_freq (m : Memory Code) (n : BitVec 17) (s : State) : (putCcode m n s).freq = s.freq := rfl
@[simp] theorem putCcode_node (m : Memory Code) (n : BitVec 17) (s : State) : (putCcode m n s).node = s.node := rfl
@[simp] theorem putCcode_nleaf (m : Memory Code) (n : BitVec 17) (s : State) : (putCcode m n s).nleaf = s.nleaf := rfl
@[simp] theorem putCcode_nnode (m : Memory Code) (n : BitVec 17) (s : State) : (putCcode m n s).nnode = s.nnode := rfl
@[simp] theorem putCcode_root (m : Memory Code) (n : BitVec 17) (s : State) : (putCcode m n s).root = s.root := rfl
@[simp] theorem putCcode_scode (m : Memory Code) (n : BitVec 17) (s : State) : (putCcode m n s).scode = s.scode := rfl
@[simp] theorem putCcode_scnt (m : Memory Code) (n : BitVec 17) (s : State) : (putCcode m n s).scnt = s.scnt := rfl
@[simp] theorem putCcode_ccode (m : Memory Code) (n : BitVec 17) (s : State) : (putCcode m n s).ccode = m := rfl
@[simp] theorem putCcode_ccnt (m : Memory Code) (n : BitVec 17) (s : State) : (putCcode m n s).ccnt = n := rfl
@[simp] theorem putCcode_out (m : Memory Code) (n : BitVec 17) (s : State) : (putCcode m n s).out = s.out := rfl
@[simp] theorem putCcode_outlen (m : Memory Code) (n : BitVec 17) (s : State) : (putCcode m n s).outlen = s.outlen := rfl
@[simp] theorem putCcode_stBusy (m : Memory Code) (n : BitVec 17) (s : State) : (putCcode m n s).stBusy = s.stBusy := rfl
@[simp] theorem putCcode_stDone (m : Memory Code) (n : BitVec 17) (s : State) : (putCcode m n s).stDone = s.stDone := rfl
@[simp] theorem putCcode_stFault (m : Memory Code) (n : BitVec 17) (s : State) : (putCcode m n s).stFault = s.stFault := rfl
@[simp] theorem putCcode_stDrop (m : Memory Code) (n : BitVec 17) (s : State) : (putCcode m n s).stDrop = s.stDrop := rfl
@[simp] theorem putCcode_cmdlat (m : Memory Code) (n : BitVec 17) (s : State) : (putCcode m n s).cmdlat = s.cmdlat := rfl
@[simp] theorem putCcode_slz (m : Memory Code) (n : BitVec 17) (s : State) : (putCcode m n s).slz = s.slz := rfl
@[simp] theorem putCcode_fcode (m : Memory Code) (n : BitVec 17) (s : State) : (putCcode m n s).fcode = s.fcode := rfl
@[simp] theorem putCcode_finfo0 (m : Memory Code) (n : BitVec 17) (s : State) : (putCcode m n s).finfo0 = s.finfo0 := rfl
@[simp] theorem putCcode_finfo1 (m : Memory Code) (n : BitVec 17) (s : State) : (putCcode m n s).finfo1 = s.finfo1 := rfl
@[simp] theorem putCcode_agenda (m : Memory Code) (n : BitVec 17) (s : State) : (putCcode m n s).agenda = s.agenda := rfl
@[simp] theorem putCcode_reads (m : Memory Code) (n : BitVec 17) (s : State) : (putCcode m n s).reads = s.reads := rfl
@[simp] theorem putCcode_freeIx (m : Memory Code) (n : BitVec 17) (s : State) : (putCcode m n s).freeIx = s.freeIx := rfl

/-! ### putOut -/

@[simp] theorem putOut_cfg (b : BitString) (s : State) : (putOut b s).cfg = s.cfg := rfl
@[simp] theorem putOut_txt (b : BitString) (s : State) : (putOut b s).txt = s.txt := rfl
@[simp] theorem putOut_tlen (b : BitString) (s : State) : (putOut b s).tlen = s.tlen := rfl
@[simp] theorem putOut_freq (b : BitString) (s : State) : (putOut b s).freq = s.freq := rfl
@[simp] theorem putOut_node (b : BitString) (s : State) : (putOut b s).node = s.node := rfl
@[simp] theorem putOut_nleaf (b : BitString) (s : State) : (putOut b s).nleaf = s.nleaf := rfl
@[simp] theorem putOut_nnode (b : BitString) (s : State) : (putOut b s).nnode = s.nnode := rfl
@[simp] theorem putOut_root (b : BitString) (s : State) : (putOut b s).root = s.root := rfl
@[simp] theorem putOut_scode (b : BitString) (s : State) : (putOut b s).scode = s.scode := rfl
@[simp] theorem putOut_scnt (b : BitString) (s : State) : (putOut b s).scnt = s.scnt := rfl
@[simp] theorem putOut_ccode (b : BitString) (s : State) : (putOut b s).ccode = s.ccode := rfl
@[simp] theorem putOut_ccnt (b : BitString) (s : State) : (putOut b s).ccnt = s.ccnt := rfl
@[simp] theorem putOut_out (b : BitString) (s : State) : (putOut b s).out = b := rfl
@[simp] theorem putOut_outlen (b : BitString) (s : State) : (putOut b s).outlen = BitVec.ofNat 27 b.length := rfl
@[simp] theorem putOut_stBusy (b : BitString) (s : State) : (putOut b s).stBusy = s.stBusy := rfl
@[simp] theorem putOut_stDone (b : BitString) (s : State) : (putOut b s).stDone = s.stDone := rfl
@[simp] theorem putOut_stFault (b : BitString) (s : State) : (putOut b s).stFault = s.stFault := rfl
@[simp] theorem putOut_stDrop (b : BitString) (s : State) : (putOut b s).stDrop = s.stDrop := rfl
@[simp] theorem putOut_cmdlat (b : BitString) (s : State) : (putOut b s).cmdlat = s.cmdlat := rfl
@[simp] theorem putOut_slz (b : BitString) (s : State) : (putOut b s).slz = s.slz := rfl
@[simp] theorem putOut_fcode (b : BitString) (s : State) : (putOut b s).fcode = s.fcode := rfl
@[simp] theorem putOut_finfo0 (b : BitString) (s : State) : (putOut b s).finfo0 = s.finfo0 := rfl
@[simp] theorem putOut_finfo1 (b : BitString) (s : State) : (putOut b s).finfo1 = s.finfo1 := rfl
@[simp] theorem putOut_agenda (b : BitString) (s : State) : (putOut b s).agenda = s.agenda := rfl
@[simp] theorem putOut_reads (b : BitString) (s : State) : (putOut b s).reads = s.reads := rfl
@[simp] theorem putOut_freeIx (b : BitString) (s : State) : (putOut b s).freeIx = s.freeIx := rfl

/-! ### putSlz -/

@[simp] theorem putSlz_cfg (b : Bool) (s : State) : (putSlz b s).cfg = s.cfg := rfl
@[simp] theorem putSlz_txt (b : Bool) (s : State) : (putSlz b s).txt = s.txt := rfl
@[simp] theorem putSlz_tlen (b : Bool) (s : State) : (putSlz b s).tlen = s.tlen := rfl
@[simp] theorem putSlz_freq (b : Bool) (s : State) : (putSlz b s).freq = s.freq := rfl
@[simp] theorem putSlz_node (b : Bool) (s : State) : (putSlz b s).node = s.node := rfl
@[simp] theorem putSlz_nleaf (b : Bool) (s : State) : (putSlz b s).nleaf = s.nleaf := rfl
@[simp] theorem putSlz_nnode (b : Bool) (s : State) : (putSlz b s).nnode = s.nnode := rfl
@[simp] theorem putSlz_root (b : Bool) (s : State) : (putSlz b s).root = s.root := rfl
@[simp] theorem putSlz_scode (b : Bool) (s : State) : (putSlz b s).scode = s.scode := rfl
@[simp] theorem putSlz_scnt (b : Bool) (s : State) : (putSlz b s).scnt = s.scnt := rfl
@[simp] theorem putSlz_ccode (b : Bool) (s : State) : (putSlz b s).ccode = s.ccode := rfl
@[simp] theorem putSlz_ccnt (b : Bool) (s : State) : (putSlz b s).ccnt = s.ccnt := rfl
@[simp] theorem putSlz_out (b : Bool) (s : State) : (putSlz b s).out = s.out := rfl
@[simp] theorem putSlz_outlen (b : Bool) (s : State) : (putSlz b s).outlen = s.outlen := rfl
@[simp] theorem putSlz_stBusy (b : Bool) (s : State) : (putSlz b s).stBusy = s.stBusy := rfl
@[simp] theorem putSlz_stDone (b : Bool) (s : State) : (putSlz b s).stDone = s.stDone := rfl
@[simp] theorem putSlz_stFault (b : Bool) (s : State) : (putSlz b s).stFault = s.stFault := rfl
@[simp] theorem putSlz_stDrop (b : Bool) (s : State) : (putSlz b s).stDrop = s.stDrop := rfl
@[simp] theorem putSlz_cmdlat (b : Bool) (s : State) : (putSlz b s).cmdlat = s.cmdlat := rfl
@[simp] theorem putSlz_slz (b : Bool) (s : State) : (putSlz b s).slz = b := rfl
@[simp] theorem putSlz_fcode (b : Bool) (s : State) : (putSlz b s).fcode = s.fcode := rfl
@[simp] theorem putSlz_finfo0 (b : Bool) (s : State) : (putSlz b s).finfo0 = s.finfo0 := rfl
@[simp] theorem putSlz_finfo1 (b : Bool) (s : State) : (putSlz b s).finfo1 = s.finfo1 := rfl
@[simp] theorem putSlz_agenda (b : Bool) (s : State) : (putSlz b s).agenda = s.agenda := rfl
@[simp] theorem putSlz_reads (b : Bool) (s : State) : (putSlz b s).reads = s.reads := rfl
@[simp] theorem putSlz_freeIx (b : Bool) (s : State) : (putSlz b s).freeIx = s.freeIx := rfl

/-! ### putTlen -/

@[simp] theorem putTlen_cfg (n : BitVec 21) (s : State) : (putTlen n s).cfg = s.cfg := rfl
@[simp] theorem putTlen_txt (n : BitVec 21) (s : State) : (putTlen n s).txt = s.txt := rfl
@[simp] theorem putTlen_tlen (n : BitVec 21) (s : State) : (putTlen n s).tlen = n := rfl
@[simp] theorem putTlen_freq (n : BitVec 21) (s : State) : (putTlen n s).freq = s.freq := rfl
@[simp] theorem putTlen_node (n : BitVec 21) (s : State) : (putTlen n s).node = s.node := rfl
@[simp] theorem putTlen_nleaf (n : BitVec 21) (s : State) : (putTlen n s).nleaf = s.nleaf := rfl
@[simp] theorem putTlen_nnode (n : BitVec 21) (s : State) : (putTlen n s).nnode = s.nnode := rfl
@[simp] theorem putTlen_root (n : BitVec 21) (s : State) : (putTlen n s).root = s.root := rfl
@[simp] theorem putTlen_scode (n : BitVec 21) (s : State) : (putTlen n s).scode = s.scode := rfl
@[simp] theorem putTlen_scnt (n : BitVec 21) (s : State) : (putTlen n s).scnt = s.scnt := rfl
@[simp] theorem putTlen_ccode (n : BitVec 21) (s : State) : (putTlen n s).ccode = s.ccode := rfl
@[simp] theorem putTlen_ccnt (n : BitVec 21) (s : State) : (putTlen n s).ccnt = s.ccnt := rfl
@[simp] theorem putTlen_out (n : BitVec 21) (s : State) : (putTlen n s).out = s.out := rfl
@[simp] theorem putTlen_outlen (n : BitVec 21) (s : State) : (putTlen n s).outlen = s.outlen := rfl
@[simp] theorem putTlen_stBusy (n : BitVec 21) (s : State) : (putTlen n s).stBusy = s.stBusy := rfl
@[simp] theorem putTlen_stDone (n : BitVec 21) (s : State) : (putTlen n s).stDone = s.stDone := rfl
@[simp] theorem putTlen_stFault (n : BitVec 21) (s : State) : (putTlen n s).stFault = s.stFault := rfl
@[simp] theorem putTlen_stDrop (n : BitVec 21) (s : State) : (putTlen n s).stDrop = s.stDrop := rfl
@[simp] theorem putTlen_cmdlat (n : BitVec 21) (s : State) : (putTlen n s).cmdlat = s.cmdlat := rfl
@[simp] theorem putTlen_slz (n : BitVec 21) (s : State) : (putTlen n s).slz = s.slz := rfl
@[simp] theorem putTlen_fcode (n : BitVec 21) (s : State) : (putTlen n s).fcode = s.fcode := rfl
@[simp] theorem putTlen_finfo0 (n : BitVec 21) (s : State) : (putTlen n s).finfo0 = s.finfo0 := rfl
@[simp] theorem putTlen_finfo1 (n : BitVec 21) (s : State) : (putTlen n s).finfo1 = s.finfo1 := rfl
@[simp] theorem putTlen_agenda (n : BitVec 21) (s : State) : (putTlen n s).agenda = s.agenda := rfl
@[simp] theorem putTlen_reads (n : BitVec 21) (s : State) : (putTlen n s).reads = s.reads := rfl
@[simp] theorem putTlen_freeIx (n : BitVec 21) (s : State) : (putTlen n s).freeIx = s.freeIx := rfl

/-! ### putTxtCell -/

@[simp] theorem putTxtCell_cfg (i : Nat) (sym : Symbol) (s : State) : (putTxtCell i sym s).cfg = s.cfg := rfl
@[simp] theorem putTxtCell_txt (i : Nat) (sym : Symbol) (s : State) : (putTxtCell i sym s).txt = setCell s.txt i sym := rfl
@[simp] theorem putTxtCell_tlen (i : Nat) (sym : Symbol) (s : State) : (putTxtCell i sym s).tlen = s.tlen := rfl
@[simp] theorem putTxtCell_freq (i : Nat) (sym : Symbol) (s : State) : (putTxtCell i sym s).freq = s.freq := rfl
@[simp] theorem putTxtCell_node (i : Nat) (sym : Symbol) (s : State) : (putTxtCell i sym s).node = s.node := rfl
@[simp] theorem putTxtCell_nleaf (i : Nat) (sym : Symbol) (s : State) : (putTxtCell i sym s).nleaf = s.nleaf := rfl
@[simp] theorem putTxtCell_nnode (i : Nat) (sym : Symbol) (s : State) : (putTxtCell i sym s).nnode = s.nnode := rfl
@[simp] theorem putTxtCell_root (i : Nat) (sym : Symbol) (s : State) : (putTxtCell i sym s).root = s.root := rfl
@[simp] theorem putTxtCell_scode (i : Nat) (sym : Symbol) (s : State) : (putTxtCell i sym s).scode = s.scode := rfl
@[simp] theorem putTxtCell_scnt (i : Nat) (sym : Symbol) (s : State) : (putTxtCell i sym s).scnt = s.scnt := rfl
@[simp] theorem putTxtCell_ccode (i : Nat) (sym : Symbol) (s : State) : (putTxtCell i sym s).ccode = s.ccode := rfl
@[simp] theorem putTxtCell_ccnt (i : Nat) (sym : Symbol) (s : State) : (putTxtCell i sym s).ccnt = s.ccnt := rfl
@[simp] theorem putTxtCell_out (i : Nat) (sym : Symbol) (s : State) : (putTxtCell i sym s).out = s.out := rfl
@[simp] theorem putTxtCell_outlen (i : Nat) (sym : Symbol) (s : State) : (putTxtCell i sym s).outlen = s.outlen := rfl
@[simp] theorem putTxtCell_stBusy (i : Nat) (sym : Symbol) (s : State) : (putTxtCell i sym s).stBusy = s.stBusy := rfl
@[simp] theorem putTxtCell_stDone (i : Nat) (sym : Symbol) (s : State) : (putTxtCell i sym s).stDone = s.stDone := rfl
@[simp] theorem putTxtCell_stFault (i : Nat) (sym : Symbol) (s : State) : (putTxtCell i sym s).stFault = s.stFault := rfl
@[simp] theorem putTxtCell_stDrop (i : Nat) (sym : Symbol) (s : State) : (putTxtCell i sym s).stDrop = s.stDrop := rfl
@[simp] theorem putTxtCell_cmdlat (i : Nat) (sym : Symbol) (s : State) : (putTxtCell i sym s).cmdlat = s.cmdlat := rfl
@[simp] theorem putTxtCell_slz (i : Nat) (sym : Symbol) (s : State) : (putTxtCell i sym s).slz = s.slz := rfl
@[simp] theorem putTxtCell_fcode (i : Nat) (sym : Symbol) (s : State) : (putTxtCell i sym s).fcode = s.fcode := rfl
@[simp] theorem putTxtCell_finfo0 (i : Nat) (sym : Symbol) (s : State) : (putTxtCell i sym s).finfo0 = s.finfo0 := rfl
@[simp] theorem putTxtCell_finfo1 (i : Nat) (sym : Symbol) (s : State) : (putTxtCell i sym s).finfo1 = s.finfo1 := rfl
@[simp] theorem putTxtCell_agenda (i : Nat) (sym : Symbol) (s : State) : (putTxtCell i sym s).agenda = s.agenda := rfl
@[simp] theorem putTxtCell_reads (i : Nat) (sym : Symbol) (s : State) : (putTxtCell i sym s).reads = s.reads := rfl
@[simp] theorem putTxtCell_freeIx (i : Nat) (sym : Symbol) (s : State) : (putTxtCell i sym s).freeIx = s.freeIx := rfl

/-! ### putFreqCell -/

@[simp] theorem putFreqCell_cfg (k : Nat) (c : Count) (s : State) : (putFreqCell k c s).cfg = s.cfg := rfl
@[simp] theorem putFreqCell_txt (k : Nat) (c : Count) (s : State) : (putFreqCell k c s).txt = s.txt := rfl
@[simp] theorem putFreqCell_tlen (k : Nat) (c : Count) (s : State) : (putFreqCell k c s).tlen = s.tlen := rfl
@[simp] theorem putFreqCell_freq (k : Nat) (c : Count) (s : State) : (putFreqCell k c s).freq = setFreq s.freq k c := rfl
@[simp] theorem putFreqCell_node (k : Nat) (c : Count) (s : State) : (putFreqCell k c s).node = s.node := rfl
@[simp] theorem putFreqCell_nleaf (k : Nat) (c : Count) (s : State) : (putFreqCell k c s).nleaf = s.nleaf := rfl
@[simp] theorem putFreqCell_nnode (k : Nat) (c : Count) (s : State) : (putFreqCell k c s).nnode = s.nnode := rfl
@[simp] theorem putFreqCell_root (k : Nat) (c : Count) (s : State) : (putFreqCell k c s).root = s.root := rfl
@[simp] theorem putFreqCell_scode (k : Nat) (c : Count) (s : State) : (putFreqCell k c s).scode = s.scode := rfl
@[simp] theorem putFreqCell_scnt (k : Nat) (c : Count) (s : State) : (putFreqCell k c s).scnt = s.scnt := rfl
@[simp] theorem putFreqCell_ccode (k : Nat) (c : Count) (s : State) : (putFreqCell k c s).ccode = s.ccode := rfl
@[simp] theorem putFreqCell_ccnt (k : Nat) (c : Count) (s : State) : (putFreqCell k c s).ccnt = s.ccnt := rfl
@[simp] theorem putFreqCell_out (k : Nat) (c : Count) (s : State) : (putFreqCell k c s).out = s.out := rfl
@[simp] theorem putFreqCell_outlen (k : Nat) (c : Count) (s : State) : (putFreqCell k c s).outlen = s.outlen := rfl
@[simp] theorem putFreqCell_stBusy (k : Nat) (c : Count) (s : State) : (putFreqCell k c s).stBusy = s.stBusy := rfl
@[simp] theorem putFreqCell_stDone (k : Nat) (c : Count) (s : State) : (putFreqCell k c s).stDone = s.stDone := rfl
@[simp] theorem putFreqCell_stFault (k : Nat) (c : Count) (s : State) : (putFreqCell k c s).stFault = s.stFault := rfl
@[simp] theorem putFreqCell_stDrop (k : Nat) (c : Count) (s : State) : (putFreqCell k c s).stDrop = s.stDrop := rfl
@[simp] theorem putFreqCell_cmdlat (k : Nat) (c : Count) (s : State) : (putFreqCell k c s).cmdlat = s.cmdlat := rfl
@[simp] theorem putFreqCell_slz (k : Nat) (c : Count) (s : State) : (putFreqCell k c s).slz = s.slz := rfl
@[simp] theorem putFreqCell_fcode (k : Nat) (c : Count) (s : State) : (putFreqCell k c s).fcode = s.fcode := rfl
@[simp] theorem putFreqCell_finfo0 (k : Nat) (c : Count) (s : State) : (putFreqCell k c s).finfo0 = s.finfo0 := rfl
@[simp] theorem putFreqCell_finfo1 (k : Nat) (c : Count) (s : State) : (putFreqCell k c s).finfo1 = s.finfo1 := rfl
@[simp] theorem putFreqCell_agenda (k : Nat) (c : Count) (s : State) : (putFreqCell k c s).agenda = s.agenda := rfl
@[simp] theorem putFreqCell_reads (k : Nat) (c : Count) (s : State) : (putFreqCell k c s).reads = s.reads := rfl
@[simp] theorem putFreqCell_freeIx (k : Nat) (c : Count) (s : State) : (putFreqCell k c s).freeIx = s.freeIx := rfl

/-! ### applyReset -/

@[simp] theorem applyReset_cfg (s : State) : (applyReset s).cfg = s.cfg := rfl
@[simp] theorem applyReset_txt (s : State) : (applyReset s).txt = State.reset.txt := rfl
@[simp] theorem applyReset_tlen (s : State) : (applyReset s).tlen = State.reset.tlen := rfl
@[simp] theorem applyReset_freq (s : State) : (applyReset s).freq = State.reset.freq := rfl
@[simp] theorem applyReset_node (s : State) : (applyReset s).node = State.reset.node := rfl
@[simp] theorem applyReset_nleaf (s : State) : (applyReset s).nleaf = State.reset.nleaf := rfl
@[simp] theorem applyReset_nnode (s : State) : (applyReset s).nnode = State.reset.nnode := rfl
@[simp] theorem applyReset_root (s : State) : (applyReset s).root = State.reset.root := rfl
@[simp] theorem applyReset_scode (s : State) : (applyReset s).scode = State.reset.scode := rfl
@[simp] theorem applyReset_scnt (s : State) : (applyReset s).scnt = State.reset.scnt := rfl
@[simp] theorem applyReset_ccode (s : State) : (applyReset s).ccode = State.reset.ccode := rfl
@[simp] theorem applyReset_ccnt (s : State) : (applyReset s).ccnt = State.reset.ccnt := rfl
@[simp] theorem applyReset_out (s : State) : (applyReset s).out = State.reset.out := rfl
@[simp] theorem applyReset_outlen (s : State) : (applyReset s).outlen = State.reset.outlen := rfl
@[simp] theorem applyReset_stBusy (s : State) : (applyReset s).stBusy = State.reset.stBusy := rfl
@[simp] theorem applyReset_stDone (s : State) : (applyReset s).stDone = State.reset.stDone := rfl
@[simp] theorem applyReset_stFault (s : State) : (applyReset s).stFault = State.reset.stFault := rfl
@[simp] theorem applyReset_stDrop (s : State) : (applyReset s).stDrop = State.reset.stDrop := rfl
@[simp] theorem applyReset_cmdlat (s : State) : (applyReset s).cmdlat = State.reset.cmdlat := rfl
@[simp] theorem applyReset_slz (s : State) : (applyReset s).slz = State.reset.slz := rfl
@[simp] theorem applyReset_fcode (s : State) : (applyReset s).fcode = State.reset.fcode := rfl
@[simp] theorem applyReset_finfo0 (s : State) : (applyReset s).finfo0 = State.reset.finfo0 := rfl
@[simp] theorem applyReset_finfo1 (s : State) : (applyReset s).finfo1 = State.reset.finfo1 := rfl
@[simp] theorem applyReset_agenda (s : State) : (applyReset s).agenda = s.agenda := rfl
@[simp] theorem applyReset_reads (s : State) : (applyReset s).reads = s.reads := rfl
@[simp] theorem applyReset_freeIx (s : State) : (applyReset s).freeIx = s.freeIx := rfl

end Sys2Proof.Machine
end

