-- ==== Sys2Proof/Laws/Bus.lean ====
section
/-! SUPPORT. The laws of the address map (20_memory.md R38): where each window's addresses lead, what a read while idle
returns, and which writes are dropped. -/

namespace Sys2Proof.Machine

/-- The address map as one chain of ranges. -/
theorem locate_eq (cfg : Config) (a : Addr) : locate cfg a =
    if a.toNat < 0x000010 then .reg (regAt a.toNat)
    else if a.toNat < 0x010000 then .unmapped
    else if a.toNat < 0x020000 then .freq (a.toNat - 0x010000)
    else if a.toNat < 0x040000 then .unmapped
    else if a.toNat < 0x080000 then .scode ((a.toNat - 0x040000) / 4) ((a.toNat - 0x040000) % 4)
    else if a.toNat < 0x0C0000 then .ccode ((a.toNat - 0x080000) / 4) ((a.toNat - 0x080000) % 4)
    else if a.toNat < 0x100000 then .unmapped
    else if a.toNat < 0x200000 then .node ((a.toNat - 0x100000) / 8) ((a.toNat - 0x100000) % 8)
    else if a.toNat < 0x300000 then
      (if a.toNat - 0x200000 < cfg.textMax then .txt (a.toNat - 0x200000) else .unmapped)
    else if a.toNat < 0x400000 then .unmapped
    else if a.toNat < 0x600000 then .out (a.toNat - 0x400000)
    else .unmapped := rfl

theorem toNat_addr {n : Nat} (h : n < 8388608) : (BitVec.ofNat 23 n).toNat = n := by
  rw [BitVec.toNat_ofNat, Nat.mod_eq_of_lt h]

/-- The address of `STATUS` is no other number's. -/
theorem addr_ne_status {n : Nat} (h : n < 8388608) (h1 : n ≠ 1) : BitVec.ofNat 23 n ≠ 0x000001#23 := by
  intro hc
  have := congrArg BitVec.toNat hc
  rw [toNat_addr h] at this
  exact h1 (by simpa using this)

/-! ### The windows -/

theorem locate_reg_at (cfg : Config) {n : Nat} (h : n < 16) : locate cfg (BitVec.ofNat 23 n) = .reg (regAt n) := by
  rw [locate_eq, toNat_addr (by omega), if_pos (by omega)]

theorem locate_freq_at (cfg : Config) {s : Nat} (h : s < 65536) :
    locate cfg (BitVec.ofNat 23 (0x010000 + s)) = .freq s := by
  rw [locate_eq, toNat_addr (by omega)]
  simp (disch := omega) only [if_pos, if_neg, Location.freq.injEq]
  omega

theorem locate_scode_at (cfg : Config) {s w : Nat} (h : s < 65536) (hw : w < 4) :
    locate cfg (BitVec.ofNat 23 (0x040000 + 4 * s + w)) = .scode s w := by
  rw [locate_eq, toNat_addr (by omega)]
  simp (disch := omega) only [if_pos, if_neg, Location.scode.injEq]
  omega

theorem locate_ccode_at (cfg : Config) {s w : Nat} (h : s < 65536) (hw : w < 4) :
    locate cfg (BitVec.ofNat 23 (0x080000 + 4 * s + w)) = .ccode s w := by
  rw [locate_eq, toNat_addr (by omega)]
  simp (disch := omega) only [if_pos, if_neg, Location.ccode.injEq]
  omega

theorem locate_node_at (cfg : Config) {k w : Nat} (h : k < 131072) (hw : w < 8) :
    locate cfg (BitVec.ofNat 23 (0x100000 + 8 * k + w)) = .node k w := by
  rw [locate_eq, toNat_addr (by omega)]
  simp (disch := omega) only [if_pos, if_neg, Location.node.injEq]
  omega

theorem locate_txt_at {cfg : Config} (hc : cfg.wf) {i : Nat} (h : i < cfg.textMax) :
    locate cfg (BitVec.ofNat 23 (0x200000 + i)) = .txt i := by
  obtain ⟨h1, h2, h3, h4⟩ := hc
  rw [locate_eq, toNat_addr (by omega)]
  simp (disch := omega) only [if_pos, if_neg, Location.txt.injEq]
  omega

theorem locate_txt_past (cfg : Config) {i : Nat} (h : cfg.textMax ≤ i) (hi : i < 0x100000) :
    locate cfg (BitVec.ofNat 23 (0x200000 + i)) = .unmapped := by
  rw [locate_eq, toNat_addr (by omega)]
  simp (disch := omega) only [if_pos, if_neg]

theorem locate_out_at (cfg : Config) {j : Nat} (h : j < 2097152) :
    locate cfg (BitVec.ofNat 23 (0x400000 + j)) = .out j := by
  rw [locate_eq, toNat_addr (by omega)]
  simp (disch := omega) only [if_pos, if_neg, Location.out.injEq]
  omega

/-! ### Reads and writes -/

/-- While idle a read returns the view of its location (R39). -/
theorem memRead_idle {s : State} (hb : s.stBusy = false) {a : Addr} (ha : a ≠ 0x000001#23) :
    memRead s a = view s (locate s.cfg a) := by simp [memRead, ha, hb]

/-- While idle a write goes to its location (R44). -/
theorem busWrite_idle {s : State} (hb : s.stBusy = false) (a : Addr) (v : Word) :
    busWrite a v s = writeLocation (locate s.cfg a) v s := by simp [busWrite, hb]

/-- The registers no write reaches (R47). -/
theorem writeReg_drop {n : Nat} (v : Word) (s : State) (h : n = 1 ∨ (4 ≤ n ∧ n ≤ 15)) :
    writeReg (regAt n) v s = dropWrite s := by
  have hn : n < 16 := by omega
  interval_cases n <;> first | rfl | omega

/-- The step whose act is a host write. -/
theorem step_write {s : State} {a : Addr} {v : Word} {rest : List Event} (h : s.agenda = .write a v :: rest) :
    step s = .next (busWrite a v { s with agenda := rest }) := by simp [step, advance, h, act]

/-- The step whose act is a host read. -/
theorem step_read {s : State} {a : Addr} {rest : List Event} (h : s.agenda = .read a :: rest) :
    step s = .next (busRead a { s with agenda := rest }) := by simp [step, advance, h, act]

/-- A register of up to 32 bits, zero-extended to a bus word, keeps its value. -/
theorem toNat_setWidth32 {w : Nat} (x : BitVec w) (h : w ≤ 32) : (x.setWidth 32).toNat = x.toNat := by
  rw [BitVec.toNat_setWidth, Nat.mod_eq_of_lt]
  exact Nat.lt_of_lt_of_le x.isLt (Nat.pow_le_pow_right (by decide) h)

end Sys2Proof.Machine
end

