-- ==== Sys2Proof/Laws/Canonicalizer.lean ====
section
/-! SUPPORT. The laws of CANON: the sort of R97, and the values the assignment of R96 step 4 gives
(44_canonicalizer.md R97 to R104). -/

namespace Sys2Proof.Machine

/-! ### The sort (R97) -/

/-- R97's order, spelt out. -/
theorem lenLt_iff (x y : LenEntry) : lenLt x y = true ↔ x.len < y.len ∨ (x.len = y.len ∧ x.sym < y.sym) := by
  simp [lenLt]

theorem insertByLen_perm (x : LenEntry) (l : List LenEntry) : (insertByLen x l).Perm (x :: l) := by
  induction l with
  | nil => exact .refl _
  | cons y l ih =>
    simp only [insertByLen]
    split
    · exact .refl _
    · exact (ih.cons y).trans (.swap _ _ _)

theorem sortByLen_perm (l : List LenEntry) : (sortByLen l).Perm l := by
  induction l with
  | nil => exact .refl _
  | cons x l ih => exact (insertByLen_perm x _).trans (ih.cons x)

theorem insertByLen_sorted {x : LenEntry} {l : List LenEntry} (hs : l.Pairwise (fun x y => lenLt x y = true))
    (hx : ∀ y ∈ l, x.sym ≠ y.sym) : (insertByLen x l).Pairwise (fun x y => lenLt x y = true) := by
  induction l with
  | nil => simp [insertByLen]
  | cons y l ih =>
    have hs' := List.pairwise_cons.1 hs
    simp only [insertByLen]
    split
    · next h =>
      refine List.pairwise_cons.2 ⟨fun z hz => ?_, hs⟩
      rcases List.mem_cons.1 hz with rfl | hz
      · exact h
      · have := hs'.1 z hz
        rw [lenLt_iff] at *; omega
    · next h =>
      refine List.pairwise_cons.2 ⟨fun z hz => ?_, ih hs'.2 fun z hz => hx z (by simp [hz])⟩
      rcases List.mem_cons.1 ((insertByLen_perm x l).mem_iff.1 hz) with rfl | hz
      · have hne := hx y (by simp)
        simp only [lenLt_iff] at h ⊢; omega
      · exact hs'.1 z hz

/-- The sorted sequence rises strictly in R97's order, symbols being distinct. -/
theorem sortByLen_sorted {l : List LenEntry} (h : (l.map LenEntry.sym).Nodup) :
    (sortByLen l).Pairwise (fun x y => lenLt x y = true) := by
  induction l with
  | nil => exact List.Pairwise.nil
  | cons x l ih =>
    rw [List.map_cons, List.nodup_cons] at h
    refine insertByLen_sorted (ih h.2) fun y hy hxy => h.1 ?_
    rw [hxy]
    exact List.mem_map_of_mem ((sortByLen_perm l).mem_iff.1 hy)

/-! ### The assignment (R96 step 4, R98) -/

/-- One pass of R96's loop, with the running length never above the entry's (R98): the value assigned is the running
value, shifted. -/
theorem assignCodes_cons {code cur : Nat} {x : LenEntry} {l : List LenEntry} (h : cur ≤ x.len) :
    assignCodes code cur (x :: l) =
      (x.sym, ⟨x.len, code * 2 ^ (x.len - cur)⟩) :: assignCodes (code * 2 ^ (x.len - cur) + 1) x.len l := by
  simp only [assignCodes]
  split
  · rw [Nat.shiftLeft_eq]
  · have : cur = x.len := by omega
    subst this; simp

/-- The assignment keeps symbols and lengths. -/
theorem assignCodes_lens (code cur : Nat) (l : List LenEntry) :
    (assignCodes code cur l).map (fun e => (⟨e.1, e.2.len⟩ : LenEntry)) = l := by
  induction l generalizing code cur with
  | nil => rfl
  | cons x l ih => simp [assignCodes, ih]

/-- Every value assigned from the running value `code` at length `cur` is at least that value, shifted. -/
theorem assignCodes_ge {code cur : Nat} {l : List LenEntry} (hs : l.Pairwise (fun x y => x.len ≤ y.len))
    (hc : ∀ x ∈ l, cur ≤ x.len) : ∀ e ∈ assignCodes code cur l, cur ≤ e.2.len ∧ code * 2 ^ (e.2.len - cur) ≤ e.2.val := by
  induction l generalizing code cur with
  | nil => simp [assignCodes]
  | cons x l ih =>
    have hx := hc x (by simp)
    have hs' := List.pairwise_cons.1 hs
    rw [assignCodes_cons hx]
    intro e he
    rcases List.mem_cons.1 he with rfl | he
    · exact ⟨hx, Nat.le_refl _⟩
    · obtain ⟨h1, h2⟩ := ih hs'.2 hs'.1 e he
      refine ⟨by omega, le_trans ?_ h2⟩
      rw [Nat.add_mul, Nat.mul_assoc, ← pow_add, show x.len - cur + (e.2.len - x.len) = e.2.len - cur by omega]
      omega

/-- R103: a later entry's value is at least the earlier one's plus 1, shifted by the difference of their lengths. -/
theorem assignCodes_mono {code cur : Nat} {l : List LenEntry} (hs : l.Pairwise (fun x y => x.len ≤ y.len))
    (hc : ∀ x ∈ l, cur ≤ x.len) :
    (assignCodes code cur l).Pairwise
      (fun u t => u.2.len ≤ t.2.len ∧ (u.2.val + 1) * 2 ^ (t.2.len - u.2.len) ≤ t.2.val) := by
  induction l generalizing code cur with
  | nil => simp [assignCodes]
  | cons x l ih =>
    have hx := hc x (by simp)
    have hs' := List.pairwise_cons.1 hs
    rw [assignCodes_cons hx]
    exact List.pairwise_cons.2 ⟨fun t ht => assignCodes_ge hs'.2 hs'.1 t ht, ih hs'.2 hs'.1⟩

/-- R99: with a Kraft sum of at most 1, counted from the running value on, every value fits its length. -/
theorem assignCodes_lt {M code cur : Nat} {l : List LenEntry} (hs : l.Pairwise (fun x y => x.len ≤ y.len))
    (hc : ∀ x ∈ l, cur ≤ x.len) (hM : ∀ x ∈ l, x.len ≤ M)
    (hk : code * 2 ^ (M - cur) + (l.map (fun x => 2 ^ (M - x.len))).sum ≤ 2 ^ M) :
    ∀ e ∈ assignCodes code cur l, e.2.val < 2 ^ e.2.len := by
  induction l generalizing code cur with
  | nil => simp [assignCodes]
  | cons x l ih =>
    have hx := hc x (by simp)
    have hxM := hM x (by simp)
    have hs' := List.pairwise_cons.1 hs
    rw [assignCodes_cons hx]
    simp only [List.map_cons, List.sum_cons] at hk
    have hshift : code * 2 ^ (x.len - cur) * 2 ^ (M - x.len) = code * 2 ^ (M - cur) := by
      rw [Nat.mul_assoc, ← pow_add]; congr 2; omega
    intro e he
    rcases List.mem_cons.1 he with rfl | he
    · have hpow : 2 ^ M = 2 ^ x.len * 2 ^ (M - x.len) := by rw [← pow_add]; congr 1; omega
      have : (code * 2 ^ (x.len - cur) + 1) * 2 ^ (M - x.len) ≤ 2 ^ x.len * 2 ^ (M - x.len) := by
        rw [Nat.add_mul, hshift, ← hpow]; omega
      exact Nat.le_of_mul_le_mul_right this (by positivity)
    · refine ih hs'.2 hs'.1 (fun y hy => hM y (by simp [hy])) ?_ e he
      rw [Nat.add_mul, hshift]; omega

/-! ### The canonical codes of a table -/

theorem lengthsOf_sym (t : Memory Code) : (lengthsOf t).map LenEntry.sym = t.map Prod.fst := by
  simp [lengthsOf]

theorem sorted_lens {l : List LenEntry} (h : l.Pairwise (fun x y => lenLt x y = true)) :
    l.Pairwise (fun x y => x.len ≤ y.len) := h.imp fun hxy => by rw [lenLt_iff] at hxy; omega

/-- R101: the canonical codes have the standard table's symbols and lengths, in R97's order. -/
theorem canonicalCodes_lens (t : Memory Code) :
    (canonicalCodes t).map (fun e => (⟨e.1, e.2.len⟩ : LenEntry)) = sortByLen (lengthsOf t) := by
  unfold canonicalCodes
  cases sortByLen (lengthsOf t) with
  | nil => rfl
  | cons x l => exact assignCodes_lens _ _ _

theorem canonicalCodes_length (t : Memory Code) : (canonicalCodes t).length = t.length := by
  have := congrArg List.length (canonicalCodes_lens t)
  rw [List.length_map, (sortByLen_perm _).length_eq] at this
  simpa [lengthsOf] using this

theorem canonicalCodes_fst_perm (t : Memory Code) : ((canonicalCodes t).map Prod.fst).Perm (t.map Prod.fst) := by
  have h := congrArg (List.map LenEntry.sym) (canonicalCodes_lens t)
  rw [List.map_map] at h
  have h' : (canonicalCodes t).map Prod.fst = (sortByLen (lengthsOf t)).map LenEntry.sym := h
  rw [h', ← lengthsOf_sym]
  exact (sortByLen_perm _).map _

theorem canonicalCodes_nodup {t : Memory Code} (h : Memory.wf t) : ((canonicalCodes t).map Prod.fst).Nodup :=
  (canonicalCodes_fst_perm t).nodup_iff.2 (wf_nodup h)

theorem sortByLen_lengthsOf_sorted {t : Memory Code} (h : Memory.wf t) :
    (sortByLen (lengthsOf t)).Pairwise (fun x y => lenLt x y = true) :=
  sortByLen_sorted (by rw [lengthsOf_sym]; exact wf_nodup h)

/-- The assignment of a table in canonical form starts from the shortest length (R98). -/
theorem canonicalCodes_eq {t : Memory Code} (h : Memory.wf t) :
    ∃ cur, (∀ x ∈ sortByLen (lengthsOf t), cur ≤ x.len) ∧
      canonicalCodes t = assignCodes 0 cur (sortByLen (lengthsOf t)) := by
  have hs := sorted_lens (sortByLen_lengthsOf_sorted h)
  unfold canonicalCodes
  cases hl : sortByLen (lengthsOf t) with
  | nil => exact ⟨0, by simp, rfl⟩
  | cons x l =>
    rw [hl] at hs
    exact ⟨x.len, by simpa using (List.pairwise_cons.1 hs).1, rfl⟩

/-- R103, of a whole table in canonical form. -/
theorem canonicalCodes_mono {t : Memory Code} (h : Memory.wf t) :
    (canonicalCodes t).Pairwise
      (fun u v => u.2.len ≤ v.2.len ∧ (u.2.val + 1) * 2 ^ (v.2.len - u.2.len) ≤ v.2.val) := by
  obtain ⟨cur, hc, he⟩ := canonicalCodes_eq h
  have hs := sorted_lens (sortByLen_lengthsOf_sorted h)
  rw [he]
  exact assignCodes_mono hs hc

/-- R99, of a whole table in canonical form: with a Kraft sum of at most 1 every canonical value fits. -/
theorem canonicalCodes_fit {t : Memory Code} {M : Nat} (h : Memory.wf t) (hM : ∀ e ∈ t, e.2.len ≤ M)
    (hk : kraftSum M t ≤ 2 ^ M) : codesFit (canonicalCodes t) = true := by
  obtain ⟨cur, hc, he⟩ := canonicalCodes_eq h
  have hs := sorted_lens (sortByLen_lengthsOf_sorted h)
  have hmem : ∀ x ∈ sortByLen (lengthsOf t), x.len ≤ M := by
    intro x hx
    obtain ⟨e, hem, rfl⟩ := List.mem_map.1 ((sortByLen_perm _).mem_iff.1 hx)
    exact hM e hem
  have hsum : ((sortByLen (lengthsOf t)).map (fun x => 2 ^ (M - x.len))).sum = kraftSum M t := by
    rw [((sortByLen_perm (lengthsOf t)).map _).sum_eq, kraftSum, lengthsOf, List.map_map]; rfl
  have := assignCodes_lt (code := 0) hs hc hmem (by rw [hsum]; omega)
  rw [codesFit, List.all_eq_true]
  intro e hem
  rw [he] at hem
  exact decide_eq_true (this e hem)

/-- The prefix-freeness of R104, from R103's inequality. -/
theorem codesApart_of_mono {c d : Code} (hc : c.val < 2 ^ c.len) (hd : d.val < 2 ^ d.len) (hl : c.len ≤ d.len)
    (hv : (c.val + 1) * 2 ^ (d.len - c.len) ≤ d.val) : CodesApart c d := by
  have hdiv : c.val + 1 ≤ d.val / 2 ^ (d.len - c.len) := (Nat.le_div_iff_mul_le (by positivity)).2 hv
  constructor
  · rw [codeBits_prefix_iff hc hd]
    rintro ⟨-, h⟩; omega
  · rw [codeBits_prefix_iff hd hc]
    rintro ⟨hl', h⟩
    have : d.len = c.len := by omega
    simp [this] at h hv; omega

/-! ### The value formula (R97 to R99) and R103, of a whole table -/

/-- The value assigned to an entry, in units of its own length, is the running value plus the weights of the entries before
it. -/
theorem assignCodes_val {M : Nat} {l : List LenEntry} {code cur : Nat}
    (hs : l.Pairwise (fun x y => lenLt x y = true)) (hc : ∀ x ∈ l, cur ≤ x.len) (hM : ∀ x ∈ l, x.len ≤ M) :
    ∀ e ∈ assignCodes code cur l, e.2.val * 2 ^ (M - e.2.len) =
      code * 2 ^ (M - cur) + ((l.filter (fun y => lenLt y ⟨e.1, e.2.len⟩)).map (fun y => 2 ^ (M - y.len))).sum := by
  induction l generalizing code cur with
  | nil => simp [assignCodes]
  | cons x l ih =>
    have hx := hc x (by simp)
    have hxM := hM x (by simp)
    have hs' := List.pairwise_cons.1 hs
    have hsl' := List.pairwise_cons.1 (sorted_lens hs)
    have hshift : code * 2 ^ (x.len - cur) * 2 ^ (M - x.len) = code * 2 ^ (M - cur) := by
      rw [Nat.mul_assoc, ← pow_add]; congr 2; omega
    rw [assignCodes_cons hx]
    intro e he
    rcases List.mem_cons.1 he with rfl | he
    · show code * 2 ^ (x.len - cur) * 2 ^ (M - x.len) = _
      have : (x :: l).filter (fun y => lenLt y ⟨x.sym, x.len⟩) = [] := by
        rw [List.filter_eq_nil_iff]
        intro y hy
        rcases List.mem_cons.1 hy with rfl | hy
        · simp [lenLt]
        · have := hs'.1 y hy
          rw [lenLt_iff] at this ⊢
          simp only
          omega
      rw [this, hshift]; simp
    · have hlt : lenLt x ⟨e.1, e.2.len⟩ = true := by
        have : (⟨e.1, e.2.len⟩ : LenEntry) ∈ l := by
          rw [← assignCodes_lens (code * 2 ^ (x.len - cur) + 1) x.len l]
          exact List.mem_map.2 ⟨e, he, rfl⟩
        exact hs'.1 _ this
      rw [ih hs'.2 hsl'.1 (fun y hy => hM y (by simp [hy])) e he,
        List.filter_cons_of_pos (p := fun y => lenLt y ⟨e.1, e.2.len⟩) hlt, List.map_cons, List.sum_cons, Nat.add_mul,
        hshift]
      omega

/-- Every canonical code has an entry of the standard table's, of the same length (R101). -/
theorem mem_canonicalCodes {t : Memory Code} {e : Nat × Code} (he : e ∈ canonicalCodes t) :
    ∃ c, (e.1, c) ∈ t ∧ c.len = e.2.len := by
  have : (⟨e.1, e.2.len⟩ : LenEntry) ∈ sortByLen (lengthsOf t) := by
    rw [← canonicalCodes_lens]; exact List.mem_map.2 ⟨e, he, rfl⟩
  rw [(sortByLen_perm _).mem_iff, lengthsOf, List.mem_map] at this
  obtain ⟨⟨k, c⟩, h1, h2⟩ := this
  simp at h2
  obtain ⟨rfl, h3⟩ := h2
  exact ⟨c, h1, h3⟩

/-- R103, between any two entries in R97's order. -/
theorem canonicalCodes_ineq {t : Memory Code} (h : Memory.wf t) {a b : Nat} {c d : Code}
    (hc : (a, c) ∈ canonicalCodes t) (hd : (b, d) ∈ canonicalCodes t) (hlt : c.len < d.len ∨ (c.len = d.len ∧ a < b)) :
    (c.val + 1) * 2 ^ (d.len - c.len) ≤ d.val := by
  have hs := sortByLen_lengthsOf_sorted h
  rw [← canonicalCodes_lens, List.pairwise_map] at hs
  have hb := (canonicalCodes_mono h).and hs
  rw [List.pairwise_iff_getElem] at hb
  obtain ⟨i, hi, hic⟩ := List.mem_iff_getElem.1 hc
  obtain ⟨j, hj, hjd⟩ := List.mem_iff_getElem.1 hd
  rcases Nat.lt_trichotomy i j with hij | rfl | hij
  · have := (hb i j hi hj hij).1.2
    rw [hic, hjd] at this; exact this
  · rw [hic] at hjd; cases hjd; omega
  · have := (hb j i hj hi hij).2
    rw [hic, hjd, lenLt_iff] at this
    simp at this; omega

theorem codesFit_mem {l : List (Nat × Code)} (h : codesFit l = true) {e : Nat × Code} (he : e ∈ l) :
    e.2.val < 2 ^ e.2.len := of_decide_eq_true (List.all_eq_true.1 h e he)

end Sys2Proof.Machine
end

