-- ==== Sys2Proof/Laws/Tree.lean ====
section
/-! SUPPORT. What the tree invariant R21 gives: every index but the root's is a child once, so that a quantity that adds
up over the children of every internal node adds up over the leaves. -/

namespace Sys2Proof.Machine

theorem TreeInv.children_perm {nodes : List Node} {n : Nat} (h : TreeInv nodes n) :
    (childrenOf nodes).Perm (List.range (2 * n - 2)) := by
  rw [List.perm_iff_count]
  intro j
  rcases Nat.lt_or_ge j (2 * n - 2) with hj | hj
  · rw [h.once j hj, List.count_eq_one_of_mem List.nodup_range (List.mem_range.2 hj)]
  · have hr : (List.range (2 * n - 2)).count j = 0 :=
      List.count_eq_zero.2 (fun hm => by rw [List.mem_range] at hm; omega)
    rw [hr]
    refine List.count_eq_zero.2 fun hc => ?_
    obtain ⟨nd, hnd, hcn⟩ := List.mem_flatMap.1 hc
    obtain ⟨k, hk, rfl⟩ := List.mem_iff_getElem.1 hnd
    rw [h.length] at hk
    have hlt := h.below k hk j (by simpa [kidsOf, List.getElem?_eq_getElem (h.length ▸ hk)] using hcn)
    have hroot := List.count_eq_zero.1 h.root
    have : j = 2 * n - 2 := by omega
    exact hroot (this ▸ hc)

theorem childrenOf_sum (nodes : List Node) (f : Nat → Nat) :
    ((childrenOf nodes).map f).sum =
      ((List.range nodes.length).map (fun k => ((kidsOf nodes k).map f).sum)).sum := by
  induction nodes using List.reverseRecOn with
  | nil => rfl
  | append_singleton nodes x ih =>
    have hc : childrenOf (nodes ++ [x]) = childrenOf nodes ++ nodeChildren x := by simp [childrenOf]
    rw [hc, List.map_append, List.sum_append, ih, List.length_append, List.length_singleton, List.range_succ,
      List.map_append, List.sum_append]
    congr 1
    · refine congrArg List.sum (List.map_congr_left fun k hk => ?_)
      simp [kidsOf, List.getElem?_append_left (List.mem_range.1 hk)]
    · simp [kidsOf]

theorem TreeInv.kids_leaf {nodes : List Node} {n : Nat} (h : TreeInv nodes n) {k : Nat} (hk : k < n) :
    kidsOf nodes k = [] := by
  have := h.leaf k hk
  simp only [kidsOf]
  cases hn : nodes[k]? with
  | none => rfl
  | some nd => cases nd <;> simp_all [nodeIsLeaf, nodeChildren]

/-- A quantity whose value at every internal node is the sum over its two children has at the root the sum over the
leaves. -/
theorem TreeInv.sum_leaves {nodes : List Node} {n : Nat} (h : TreeInv nodes n) (f : Nat → Nat)
    (hf : ∀ k, k < 2 * n - 1 → n ≤ k → f k = ((kidsOf nodes k).map f).sum) :
    f (2 * n - 2) = ((List.range n).map f).sum := by
  have hpos := h.pos
  have h1 := (h.children_perm.map f).sum_eq
  rw [childrenOf_sum, h.length] at h1
  have hsplit : List.range (2 * n - 1) = List.range n ++ (List.range (n - 1)).map (n + ·) := by
    rw [show 2 * n - 1 = n + (n - 1) by omega, List.range_add]
  have hsplit2 : List.range (2 * n - 1) = List.range (2 * n - 2) ++ [2 * n - 2] := by
    rw [show 2 * n - 1 = (2 * n - 2) + 1 by omega, List.range_succ]
  have h2 : ((List.range (2 * n - 1)).map f).sum = ((List.range (2 * n - 2)).map f).sum + f (2 * n - 2) := by
    rw [hsplit2]; simp
  have h3 : ((List.range (2 * n - 1)).map (fun k => ((kidsOf nodes k).map f).sum)).sum =
      (((List.range (n - 1)).map (n + ·)).map f).sum := by
    rw [hsplit, List.map_append, List.sum_append]
    have hz : ((List.range n).map (fun k => ((kidsOf nodes k).map f).sum)).sum = 0 := by
      rw [List.sum_eq_zero]
      intro x hx
      obtain ⟨k, hk, rfl⟩ := List.mem_map.1 hx
      simp [h.kids_leaf (List.mem_range.1 hk)]
    rw [hz, Nat.zero_add]
    refine congrArg List.sum (List.map_congr_left fun k hk => ?_)
    obtain ⟨i, hi, rfl⟩ := List.mem_map.1 hk
    rw [List.mem_range] at hi
    exact (hf _ (by omega) (by omega)).symm
  have h4 : ((List.range (2 * n - 1)).map f).sum =
      ((List.range n).map f).sum + (((List.range (n - 1)).map (n + ·)).map f).sum := by
    rw [hsplit]; simp
  omega

/-- A leaf's entry. -/
theorem TreeInv.leafEntry {nodes : List Node} {n : Nat} (h : TreeInv nodes n) {j : Nat} (hj : j < n) :
    ∃ sym f, nodes[j]? = some (.leaf sym f) := by
  have := h.leaf j hj
  cases hn : nodes[j]? with
  | none => simp [hn] at this
  | some nd => cases nd <;> simp_all [nodeIsLeaf]

/-- An internal node's entry, its children below it. -/
theorem TreeInv.internalEntry {nodes : List Node} {n : Nat} (h : TreeInv nodes n) {k : Nat} (hk : k < 2 * n - 1)
    (hn : n ≤ k) : ∃ f l r, nodes[k]? = some (.internal f l r) ∧ l.toNat < k ∧ r.toNat < k := by
  have := h.internal k hk hn
  have hb := h.below k hk
  cases hnd : nodes[k]? with
  | none => simp [hnd] at this
  | some nd =>
    cases nd with
    | leaf => simp [hnd, nodeIsLeaf] at this
    | internal f l r =>
      have hkids : kidsOf nodes k = [l.toNat, r.toNat] := by simp [kidsOf, hnd, nodeChildren]
      exact ⟨f, l, r, rfl, hb _ (by simp [hkids]), hb _ (by simp [hkids])⟩

/-- Leaf symbols rise with the index. -/
theorem TreeInv.symOf_lt {nodes : List Node} {n : Nat} (h : TreeInv nodes n) {i j : Nat} (hij : i < j) (hj : j < n) :
    symOf nodes i < symOf nodes j := by
  induction j with
  | zero => omega
  | succ j ih =>
    rcases Nat.lt_or_ge i j with hlt | hge
    · exact Nat.lt_trans (ih hlt (by omega)) (h.sorted j hj)
    · have : i = j := by omega
      exact this ▸ h.sorted j hj

/-! ### Parents and paths (R21 item 3, R89) -/

theorem kidsOf_internal {nodes : List Node} {k : Nat} {f : NodeFreq} {l r : NodeIx}
    (hk : nodes[k]? = some (.internal f l r)) : kidsOf nodes k = [l.toNat, r.toNat] := by
  simp [kidsOf, hk, nodeChildren]

theorem TreeInv.lt_length {nodes : List Node} {n k : Nat} (h : TreeInv nodes n) {nd : Node} (hk : nodes[k]? = some nd) :
    k < 2 * n - 1 := by
  have := (List.getElem?_eq_some_iff.1 hk).1
  rwa [h.length] at this

/-- No index is a child of two nodes. -/
theorem TreeInv.parent_unique {nodes : List Node} {n : Nat} (h : TreeInv nodes n) {c k k' : Nat}
    (h1 : c ∈ kidsOf nodes k) (h2 : c ∈ kidsOf nodes k') : k = k' := by
  have hnd : (childrenOf nodes).Nodup := h.children_perm.nodup_iff.2 List.nodup_range
  rw [childrenOf, List.flatMap_def, List.nodup_flatten] at hnd
  by_contra hne
  have key : ∀ {k : Nat}, c ∈ kidsOf nodes k → ∃ hk : k < nodes.length, c ∈ nodeChildren nodes[k] := by
    intro k hk
    unfold kidsOf at hk
    cases hn : nodes[k]? with
    | none => simp [hn] at hk
    | some nd =>
      obtain ⟨hk', rfl⟩ := List.getElem?_eq_some_iff.1 hn
      exact ⟨hk', by simpa [hn] using hk⟩
  obtain ⟨a1, a2⟩ := key h1
  obtain ⟨b1, b2⟩ := key h2
  have hp := List.pairwise_iff_getElem.1 hnd.2
  rcases Nat.lt_or_gt_of_ne hne with hlt | hlt
  · have := hp k k' (by simpa) (by simpa) hlt
    simp only [List.getElem_map] at this
    exact this a2 b2
  · have := hp k' k (by simpa) (by simpa) hlt
    simp only [List.getElem_map] at this
    exact this b2 a2

/-- Every node but the root has a parent, an internal node of higher index. -/
theorem TreeInv.parent {nodes : List Node} {n : Nat} (h : TreeInv nodes n) {c : Nat} (hc : c < 2 * n - 2) :
    ∃ k f l r, nodes[k]? = some (.internal f l r) ∧ n ≤ k ∧ k < 2 * n - 1 ∧ c < k ∧ (c = l.toNat ∨ c = r.toNat) := by
  have hmem : c ∈ childrenOf nodes := h.children_perm.mem_iff.2 (List.mem_range.2 hc)
  obtain ⟨nd, hnd, hcn⟩ := List.mem_flatMap.1 hmem
  obtain ⟨k, hk, rfl⟩ := List.mem_iff_getElem.1 hnd
  have hn := List.getElem?_eq_getElem hk
  have hlt : k < 2 * n - 1 := h.lt_length hn
  cases hnk : nodes[k] with
  | leaf => simp [hnk, nodeChildren] at hcn
  | internal f l r =>
    rw [hnk] at hn
    have hkids := kidsOf_internal hn
    have hb := h.below k hlt c (by rw [hkids]; simpa [hnk, nodeChildren] using hcn)
    refine ⟨k, f, l, r, hn, ?_, hlt, hb, by simpa [hnk, nodeChildren] using hcn⟩
    by_contra hlt'
    obtain ⟨sym, g, hl⟩ := h.leafEntry (j := k) (by omega)
    rw [hl] at hn
    cases hn

/-- A path is no longer than the way down by index (the length bound of R94). -/
theorem TreeInv.path_length {nodes : List Node} {n : Nat} (h : TreeInv nodes n) {p : Nat → BitString}
    (hp : PathOf nodes (2 * n - 2) p) {k : Nat} (hk : k < 2 * n - 1) : (p k).length + k ≤ 2 * n - 2 := by
  have key : ∀ d k, k + d = 2 * n - 2 → (p k).length + k ≤ 2 * n - 2 := by
    intro d
    induction d using Nat.strongRecOn with
    | _ d ih =>
      intro k hk
      rcases Nat.eq_zero_or_pos d with rfl | hd
      · rw [show k = 2 * n - 2 by omega, hp.root]; simp
      · obtain ⟨k', f, l, r, hn, h1, h2, h3, h4⟩ := h.parent (c := k) (by omega)
        have hi := ih (2 * n - 2 - k') (by omega) k' (by omega)
        rcases h4 with rfl | rfl
        · rw [hp.left _ _ _ _ hn]; simp; omega
        · rw [hp.right _ _ _ _ hn]; simp; omega
  exact key (2 * n - 2 - k) k (by omega)

end Sys2Proof.Machine
end

