-- ==== Sys2Proof/Laws/Deriver.lean ====
section
/-! SUPPORT. The laws of the walk of R89: what it emits, that it visits every leaf once, and that its paths are
prefix-free with Kraft sum 1 (43_code_derivation.md R88 to R94). -/

namespace Sys2Proof.Machine

/-- All that one step of the walk does. -/
theorem walk_succ {nodes : List Node} {fuel k : Nat} {p : BitString} {vs : List Visit}
    (h : walk nodes (fuel + 1) k p = some vs) :
    (∃ sym f, nodes[k]? = some (.leaf sym f) ∧ vs = [⟨k, sym, p⟩]) ∨
      (∃ f l r xs ys, nodes[k]? = some (.internal f l r) ∧ walk nodes fuel l.toNat (p ++ [false]) = some xs ∧
        walk nodes fuel r.toNat (p ++ [true]) = some ys ∧ vs = xs ++ ys) := by
  rw [walk] at h
  split at h
  · cases h
  · next sym f hk => exact .inl ⟨sym, f, hk, by simpa using h.symm⟩
  · next f l r hk =>
    split at h
    · next xs ys hx hy => exact .inr ⟨f, l, r, xs, ys, hk, hx, hy, by simpa using h.symm⟩
    · cases h

/-- Each visited leaf is an entry of the tree. -/
theorem walk_entry {nodes : List Node} {fuel k : Nat} {p : BitString} {vs : List Visit}
    (h : walk nodes fuel k p = some vs) : ∀ v ∈ vs, ∃ f, nodes[v.ix]? = some (.leaf v.sym f) := by
  induction fuel generalizing k p vs with
  | zero => simp [walk] at h
  | succ fuel ih =>
    obtain ⟨sym, f, hk, rfl⟩ | ⟨f, l, r, xs, ys, hk, hx, hy, rfl⟩ := walk_succ h
    · simpa using ⟨f, hk⟩
    · intro v hv
      rcases List.mem_append.1 hv with hv | hv
      · exact ih hx v hv
      · exact ih hy v hv

/-- The walk emits at each leaf the path of R89, whichever function satisfies R89's equations. -/
theorem walk_path {nodes : List Node} {root : Nat} {path : Nat → BitString} (hp : PathOf nodes root path) {fuel k : Nat}
    {vs : List Visit} (h : walk nodes fuel k (path k) = some vs) : ∀ v ∈ vs, v.path = path v.ix := by
  induction fuel generalizing k vs with
  | zero => simp [walk] at h
  | succ fuel ih =>
    obtain ⟨sym, f, hk, rfl⟩ | ⟨f, l, r, xs, ys, hk, hx, hy, rfl⟩ := walk_succ h
    · simp
    · intro v hv
      rcases List.mem_append.1 hv with hv | hv
      · exact ih (hp.left k f l r hk ▸ hx) v hv
      · exact ih (hp.right k f l r hk ▸ hy) v hv

/-- The walk's paths start with the path it was given. -/
theorem walk_prefix {nodes : List Node} {fuel k : Nat} {p : BitString} {vs : List Visit}
    (h : walk nodes fuel k p = some vs) : ∀ v ∈ vs, p <+: v.path := by
  induction fuel generalizing k p vs with
  | zero => simp [walk] at h
  | succ fuel ih =>
    obtain ⟨sym, f, hk, rfl⟩ | ⟨f, l, r, xs, ys, hk, hx, hy, rfl⟩ := walk_succ h
    · simp
    · intro v hv
      rcases List.mem_append.1 hv with hv | hv
      · exact (List.prefix_append _ _).trans (ih hx v hv)
      · exact (List.prefix_append _ _).trans (ih hy v hv)

theorem walk_ne_nil {nodes : List Node} {fuel k : Nat} {p : BitString} {vs : List Visit}
    (h : walk nodes fuel k p = some vs) : vs ≠ [] := by
  induction fuel generalizing k p vs with
  | zero => simp [walk] at h
  | succ fuel ih =>
    obtain ⟨sym, f, hk, rfl⟩ | ⟨f, l, r, xs, ys, hk, hx, hy, rfl⟩ := walk_succ h
    · simp
    · simp [ih hx]

/-- Two bit-strings that go different ways after `p` are no prefixes of each other. -/
theorem apart_of_diverge {p b c : BitString} (hb : p ++ [false] <+: b) (hc : p ++ [true] <+: c) :
    ¬ b <+: c ∧ ¬ c <+: b := by
  obtain ⟨b', rfl⟩ := hb
  obtain ⟨c', rfl⟩ := hc
  simp [List.append_assoc, List.prefix_append_right_inj]

/-- R93: the visited leaves' paths are no prefixes of each other. -/
theorem walk_prefixFree {nodes : List Node} {fuel k : Nat} {p : BitString} {vs : List Visit}
    (h : walk nodes fuel k p = some vs) : vs.Pairwise (fun u v => ¬ u.path <+: v.path ∧ ¬ v.path <+: u.path) := by
  induction fuel generalizing k p vs with
  | zero => simp [walk] at h
  | succ fuel ih =>
    obtain ⟨sym, f, hk, rfl⟩ | ⟨f, l, r, xs, ys, hk, hx, hy, rfl⟩ := walk_succ h
    · simp
    · refine List.pairwise_append.2 ⟨ih hx, ih hy, fun u hu v hv => ?_⟩
      exact apart_of_diverge (walk_prefix hx u hu) (walk_prefix hy v hv)

/-- R94: the weights `2^(-length)` of the visited leaves add up to the weight of the node the walk started at. -/
theorem walk_kraft {nodes : List Node} {fuel k M : Nat} {p : BitString} {vs : List Visit}
    (h : walk nodes fuel k p = some vs) (hM : ∀ v ∈ vs, v.path.length ≤ M) :
    (vs.map (fun v => 2 ^ (M - v.path.length))).sum = 2 ^ (M - p.length) := by
  induction fuel generalizing k p vs with
  | zero => simp [walk] at h
  | succ fuel ih =>
    obtain ⟨sym, f, hk, rfl⟩ | ⟨f, l, r, xs, ys, hk, hx, hy, rfl⟩ := walk_succ h
    · simp
    · have h1 := ih hx (fun v hv => hM v (List.mem_append_left _ hv))
      have h2 := ih hy (fun v hv => hM v (List.mem_append_right _ hv))
      obtain ⟨v, hv⟩ := List.exists_mem_of_ne_nil _ (walk_ne_nil hx)
      have hlen := (walk_prefix hx v hv).length_le
      have hMv := hM v (List.mem_append_left _ hv)
      simp only [List.length_append, List.length_singleton] at hlen h1 h2
      rw [List.map_append, List.sum_append, h1, h2, show M - p.length = (M - (p.length + 1)) + 1 by omega, pow_succ]
      ring

/-! ### Every leaf is visited once -/

/-- The indices the walk visits. -/
def walkIx (nodes : List Node) : Nat → Nat → List Nat
  | 0, _ => []
  | fuel + 1, k =>
    match nodes[k]? with
    | none => []
    | some (.leaf _ _) => [k]
    | some (.internal _ l r) => walkIx nodes fuel l.toNat ++ walkIx nodes fuel r.toNat

theorem walk_ix {nodes : List Node} {fuel k : Nat} {p : BitString} {vs : List Visit}
    (h : walk nodes fuel k p = some vs) : vs.map Visit.ix = walkIx nodes fuel k := by
  induction fuel generalizing k p vs with
  | zero => simp [walk] at h
  | succ fuel ih =>
    obtain ⟨sym, f, hk, rfl⟩ | ⟨f, l, r, xs, ys, hk, hx, hy, rfl⟩ := walk_succ h
    · simp [walkIx, hk]
    · simp [walkIx, hk, ih hx, ih hy]

/-- On a tree the walk never fails. -/
theorem TreeInv.walk_some {nodes : List Node} {n : Nat} (h : TreeInv nodes n) {fuel k : Nat} (hk : k < 2 * n - 1)
    (hf : k < fuel) (p : BitString) : ∃ vs, walk nodes fuel k p = some vs := by
  induction fuel generalizing k p with
  | zero => omega
  | succ fuel ih =>
    rcases Nat.lt_or_ge k n with hkn | hkn
    · obtain ⟨sym, f, hl⟩ := h.leafEntry hkn
      exact ⟨_, by rw [walk, hl]⟩
    · obtain ⟨f, l, r, hi, hlk, hrk⟩ := h.internalEntry hk hkn
      obtain ⟨xs, hx⟩ := ih (k := l.toNat) (by omega) (by omega) (p ++ [false])
      obtain ⟨ys, hy⟩ := ih (k := r.toNat) (by omega) (by omega) (p ++ [true])
      exact ⟨xs ++ ys, by rw [walk, hi]; simp only [hx, hy]⟩

/-- On a tree more fuel than the index changes nothing. -/
theorem TreeInv.walkIx_fuel {nodes : List Node} {n : Nat} (h : TreeInv nodes n) {fuel k : Nat} (hk : k < 2 * n - 1)
    (hf : k < fuel) : walkIx nodes fuel k = walkIx nodes (k + 1) k := by
  induction k using Nat.strongRecOn generalizing fuel with
  | _ k ih =>
    obtain ⟨fuel, rfl⟩ : ∃ g, fuel = g + 1 := ⟨fuel - 1, by omega⟩
    rcases Nat.lt_or_ge k n with hkn | hkn
    · obtain ⟨sym, f, hl⟩ := h.leafEntry hkn
      simp [walkIx, hl]
    · obtain ⟨f, l, r, hi, hlk, hrk⟩ := h.internalEntry hk hkn
      simp only [walkIx, hi]
      rw [ih _ hlk (by omega) (fuel := fuel) (by omega), ih _ hrk (by omega) (fuel := fuel) (by omega),
        ih _ hlk (by omega) (fuel := k) hlk, ih _ hrk (by omega) (fuel := k) hrk]

theorem sum_indicator (l : List Nat) (j : Nat) : (l.map (fun k => if k = j then 1 else 0)).sum = l.count j := by
  induction l with
  | nil => rfl
  | cons k l ih => simp [List.count_cons, ih, Nat.add_comm]

/-- The walk from the root visits every leaf exactly once (R88: one code per leaf). -/
theorem TreeInv.walk_perm {nodes : List Node} {n fuel : Nat} {p : BitString} {vs : List Visit} (h : TreeInv nodes n)
    (hf : 2 * n - 2 < fuel) (hw : walk nodes fuel (2 * n - 2) p = some vs) :
    (vs.map Visit.ix).Perm (List.range n) := by
  have hpos := h.pos
  have hroot : 2 * n - 2 < 2 * n - 1 := by omega
  rw [walk_ix hw, h.walkIx_fuel hroot hf, List.perm_iff_count]
  intro j
  have hs := h.sum_leaves (fun k => (walkIx nodes (k + 1) k).count j) (fun k hk hkn => by
    obtain ⟨f, l, r, hi, hlk, hrk⟩ := h.internalEntry hk hkn
    have hkids : kidsOf nodes k = [l.toNat, r.toNat] := by simp [kidsOf, hi, nodeChildren]
    simp only [hkids, List.map_cons, List.map_nil, List.sum_cons, List.sum_nil, Nat.add_zero]
    rw [show walkIx nodes (k + 1) k = walkIx nodes k l.toNat ++ walkIx nodes k r.toNat by simp [walkIx, hi],
      h.walkIx_fuel (by omega) hlk, h.walkIx_fuel (by omega) hrk, List.count_append])
  rw [hs]
  have hleaf : (List.range n).map (fun k => (walkIx nodes (k + 1) k).count j) =
      (List.range n).map (fun k => if k = j then 1 else 0) := by
    refine List.map_congr_left fun k hk => ?_
    obtain ⟨sym, f, hl⟩ := h.leafEntry (List.mem_range.1 hk)
    simp [walkIx, hl, List.count_singleton]
  rw [hleaf]
  exact sum_indicator _ _

end Sys2Proof.Machine
end

