-- ==== Sys2Proof/Laws/Encoder.lean ====
section
/-! SUPPORT. The laws of FREQ's counting (41_frequency_counter.md R74, R75) and of ENCODE's loop (45_encoder.md R105 to
R109). -/

namespace Sys2Proof.Machine

@[simp] theorem readText_length (s : State) : (readText s).length = s.tlen.toNat := by simp [readText]

/-- A written cell reads as what was written; the text is that of the cells. -/
theorem readText_getElem? (s : State) (i : Nat) :
    (readText s)[i]? = if i < s.tlen.toNat then some (readTxt s.txt (s.freeIx + i) i) else none := by
  simp only [readText, List.getElem?_map]
  split
  · next h => rw [List.getElem?_range h]; rfl
  · next h => rw [List.getElem?_eq_none (by simpa using h)]; rfl

/-! ### FREQ -/

theorem countSymbol_freqTable {m : Memory Count} (h : FreqTable m) (t : Symbol) : FreqTable (countSymbol t m) :=
  h.set t.isLt _

theorem countSymbols_freqTable (text : List Symbol) : FreqTable (countSymbols text) := by
  induction text with
  | nil => exact FreqTable.empty
  | cons t text ih => exact countSymbol_freqTable ih t

/-- All that the counting does: every symbol's number of occurrences, as a 32-bit count (R74). -/
theorem freqAt_countSymbols (text : List Symbol) (sym : Symbol) :
    freqAt (countSymbols text) sym.toNat = BitVec.ofNat 32 (text.count sym) := by
  induction text with
  | nil => rfl
  | cons t text ih =>
    have : countSymbols (t :: text) = countSymbol t (countSymbols text) := rfl
    rw [this, countSymbol, freqAt_setFreq]
    by_cases h : sym = t
    · subst h
      simp [ih, BitVec.ofNat_add]
    · have hne : sym.toNat ≠ t.toNat := fun hc => h (BitVec.eq_of_toNat_eq hc)
      rw [if_neg hne, ih, List.count_cons_of_ne (Ne.symm h)]

/-! ### ENCODE -/

/-- All that the loop does when every symbol has an entry: the concatenation of the codes, in text order (R105). -/
theorem encodeText_bits {t : Memory Code} {i : Nat} {text : List Symbol} {b : BitString}
    (h : encodeText t i text = .bits b) :
    (∀ x ∈ text, cellAt t x.toNat ≠ none) ∧
      b = (text.map (fun x => ((cellAt t x.toNat).map codeBits).getD [])).flatten := by
  induction text generalizing i b with
  | nil => simp_all [encodeText]
  | cons x text ih =>
    rw [encodeText] at h
    cases hc : cellAt t x.toNat with
    | none => simp [hc] at h
    | some c =>
      simp only [hc] at h
      cases hr : encodeText t (i + 1) text with
      | missing j y => simp [hr, Encoded.prepend] at h
      | bits r =>
        simp only [hr, Encoded.prepend, Encoded.bits.injEq] at h
        obtain ⟨h1, h2⟩ := ih hr
        refine ⟨fun y hy => ?_, ?_⟩
        · rcases List.mem_cons.1 hy with rfl | hy
          · simp [hc]
          · exact h1 y hy
        · simp [← h, hc, ← h2]

/-- All that the loop does when some symbol has none: it reports the first (R108). -/
theorem encodeText_missing {t : Memory Code} {i j : Nat} {text : List Symbol} {sym : Symbol}
    (h : encodeText t i text = .missing j sym) :
    i ≤ j ∧ text[j - i]? = some sym ∧ cellAt t sym.toNat = none ∧
      ∀ k, k < j - i → ∀ x, text[k]? = some x → cellAt t x.toNat ≠ none := by
  induction text generalizing i with
  | nil => simp [encodeText] at h
  | cons x text ih =>
    rw [encodeText] at h
    cases hc : cellAt t x.toNat with
    | none =>
      simp only [hc, Encoded.missing.injEq] at h
      obtain ⟨rfl, rfl⟩ := h
      simp [hc]
    | some c =>
      simp only [hc] at h
      cases hr : encodeText t (i + 1) text with
      | bits r => simp [hr, Encoded.prepend] at h
      | missing j' y =>
        simp only [hr, Encoded.prepend, Encoded.missing.injEq] at h
        obtain ⟨rfl, rfl⟩ := h
        obtain ⟨h1, h2, h3, h4⟩ := ih hr
        have hsub : j' - i = (j' - (i + 1)) + 1 := by omega
        refine ⟨by omega, by rw [hsub]; simpa using h2, h3, fun k hk z hz => ?_⟩
        cases k with
        | zero => simp at hz; simp [← hz, hc]
        | succ k => exact h4 k (by omega) z (by simpa using hz)

/-- R107: the bitstream is at most one longest code per symbol. -/
theorem encodeText_length_le {t : Memory Code} {M i : Nat} {text : List Symbol} {b : BitString}
    (hM : ∀ e ∈ t, e.2.len ≤ M) (h : encodeText t i text = .bits b) : b.length ≤ text.length * M := by
  obtain ⟨-, rfl⟩ := encodeText_bits h
  rw [List.length_flatten, List.map_map]
  refine le_trans (List.sum_le_card_nsmul _ M ?_) (by simp)
  intro x hx
  obtain ⟨y, -, rfl⟩ := List.mem_map.1 hx
  simp only [Function.comp_apply]
  cases hc : cellAt t y.toNat with
  | none => simp
  | some c => simpa using hM _ (mem_of_cellAt hc)

end Sys2Proof.Machine
end

