-- ==== Sys2Proof/Laws/Exec.lean ====
section
/-! SUPPORT. What each meaning, each host write and one step can do, said once: if it answers a next state, it is one of
these (40_command_execution_and_control.md R65, 20_memory.md R44, R50). -/

namespace Sys2Proof.Machine

/-- All that BUILD does (R80, R86). -/
theorem execBuild_next {s t : State} (h : execBuild s = .next t) :
    (s.freq = [] ∧ t = takeFault .emptyFreq 0 0 s) ∨
      (s.freq ≠ [] ∧ t = completeOk (putTree (buildTree s.freq) s.freq.length s)) := by
  unfold execBuild at h
  split at h
  · next h0 => exact .inl ⟨List.length_eq_zero_iff.1 h0, (Host.Outcome.next.inj h).symm⟩
  · next h0 => exact .inr ⟨fun hn => h0 (by rw [hn]; rfl), (Host.Outcome.next.inj h).symm⟩

/-- All that DERIVE does (R88, R92). -/
theorem execDerive_next {s t : State} (h : execDerive s = .next t) :
    (s.nnode = 0 ∧ t = takeFault .noTree 0 0 s) ∨
      (s.nnode ≠ 0 ∧ ∃ vs, walk s.node s.node.length s.root.toNat [] = some vs ∧
        t = deriveFrom (applySlz s vs) s) := by
  unfold execDerive at h
  split at h
  · next h0 => exact .inl ⟨h0, (Host.Outcome.next.inj h).symm⟩
  · next h0 =>
    split at h
    · cases h
    · next vs hv => exact .inr ⟨h0, vs, hv, (Host.Outcome.next.inj h).symm⟩

theorem leastOffender_none {M : Nat} {vs : List Visit} : leastOffender M vs = none ↔ ∀ v ∈ vs, v.path.length ≤ M := by
  induction vs with
  | nil => simp [leastOffender]
  | cons v vs ih =>
    simp only [leastOffender]
    split
    · next h =>
      split
      · next hv => simp only [reduceCtorEq, List.mem_cons, forall_eq_or_imp, false_iff]; omega
      · next hv => simp only [List.mem_cons, forall_eq_or_imp, true_iff]; exact ⟨by omega, ih.1 h⟩
    · next u h =>
      have hne : leastOffender M vs ≠ none := by simp [h]
      simp only [List.mem_cons, forall_eq_or_imp]
      constructor
      · intro hc; split at hc <;> cases hc
      · intro hc; exact absurd (ih.2 hc.2) hne

/-- R91: the reported leaf is too deep, and no other offender has a lesser index. -/
theorem leastOffender_some {M : Nat} {vs : List Visit} {v : Visit} (h : leastOffender M vs = some v) :
    v ∈ vs ∧ M < v.path.length ∧ ∀ u ∈ vs, M < u.path.length → v.ix ≤ u.ix := by
  induction vs generalizing v with
  | nil => simp [leastOffender] at h
  | cons w vs ih =>
    simp only [leastOffender] at h
    split at h
    · next h0 =>
      split at h
      · next hw =>
        cases h
        refine ⟨by simp, hw, fun u hu hM => ?_⟩
        rcases List.mem_cons.1 hu with rfl | hu
        · exact Nat.le_refl _
        · have := leastOffender_none.1 h0 u hu; omega
      · cases h
    · next u0 h0 =>
      obtain ⟨h1, h2, h3⟩ := ih h0
      split at h
      · next hw =>
        cases h
        simp only [Bool.and_eq_true, decide_eq_true_eq] at hw
        refine ⟨by simp, hw.1, fun u hu hM => ?_⟩
        rcases List.mem_cons.1 hu with rfl | hu
        · exact Nat.le_refl _
        · have := h3 u hu hM; omega
      · next hw =>
        cases h
        simp only [Bool.and_eq_true, decide_eq_true_eq, not_and] at hw
        refine ⟨by simp [h1], h2, fun u hu hM => ?_⟩
        rcases List.mem_cons.1 hu with rfl | hu
        · have := hw hM; omega
        · exact h3 u hu hM

/-- All that DERIVE does with the visited leaves (R88, R91). -/
theorem deriveFrom_cases (vs : List Visit) (s : State) :
    (∃ v, leastOffender s.cfg.lenMax vs = some v ∧
      deriveFrom vs s = takeFault .lenOverflow (v.sym.setWidth 32) (BitVec.ofNat 32 v.path.length) s) ∨
    ((∀ v ∈ vs, v.path.length ≤ s.cfg.lenMax) ∧
      deriveFrom vs s = completeOk (putScode (standardTable vs) s.nleaf s)) := by
  unfold deriveFrom
  split
  · next v hv => exact .inl ⟨v, hv, rfl⟩
  · next hv => exact .inr ⟨leastOffender_none.1 hv, rfl⟩

/-- All that CANON does (R96, R100). -/
theorem execCanon_next {s t : State} (h : execCanon s = .next t) :
    (s.scnt = 0 ∧ t = takeFault .emptyCodes 0 0 s) ∨
      (s.scnt ≠ 0 ∧ codesFit (canonicalCodes s.scode) = true ∧ t = completeOk
        (putCcode (tableOf (canonicalCodes s.scode)) (BitVec.ofNat 17 (canonicalCodes s.scode).length) s)) := by
  unfold execCanon at h
  split at h
  · next h0 => exact .inl ⟨h0, (Host.Outcome.next.inj h).symm⟩
  · next h0 =>
    split at h
    · next hf => exact .inr ⟨h0, hf, (Host.Outcome.next.inj h).symm⟩
    · cases h

/-- All that ENCODE does (R105, R108). -/
theorem execEncode_next {tsel : TableSel} {s t : State} (h : execEncode tsel s = .next t) :
    (∃ i sym, encodeText (selectTable tsel s) 0 (readText s) = .missing i sym ∧
      t = takeFault .missingSymbol (BitVec.ofNat 32 i) (sym.setWidth 32) (afterText s)) ∨
    (∃ b, encodeText (selectTable tsel s) 0 (readText s) = .bits b ∧
      t = completeOk (putOut b (afterText s))) := by
  unfold execEncode at h
  split at h
  · next i sym he => exact .inl ⟨i, sym, he, (Host.Outcome.next.inj h).symm⟩
  · next b he => exact .inr ⟨b, he, (Host.Outcome.next.inj h).symm⟩

/-- All that any command does, if it answers a next state. -/
theorem exec_next {i : Instr} {s t : State} (h : exec i s = .next t) :
    (i = .nop ∧ t = completeOk s) ∨
    (i = .clear ∧ t = completeOk (emptyTables s)) ∨
    (i = .freq ∧ t = completeOk (putFreq (countSymbols (readText s)) (afterText s))) ∨
    (i = .build ∧ execBuild s = .next t) ∨
    (i = .derive ∧ execDerive s = .next t) ∨
    (i = .canon ∧ execCanon s = .next t) ∨
    (∃ tsel, i = .encode tsel ∧ execEncode tsel s = .next t) ∨
    (i = .clrf ∧ t = completeOk (clearFault s)) := by
  cases i <;> simp only [exec, execNop, execClear, execFreq, execClrf, Host.Outcome.next.injEq] at h <;>
    simp only [h, reduceCtorEq, false_and, false_or, or_false, exists_false, Instr.encode.injEq,
      exists_eq_left', and_true, eq_comm]

/-- All that a host write does (R44, R47, R48): it is dropped, or it issues, or it writes `CTRL`, `TLEN`, one cell of
`TXT` or one cell of `FREQ`. -/
theorem busWrite_cases (a : Addr) (v : Word) (s : State) :
    busWrite a v s = dropWrite s ∨
    (s.stBusy = false ∧
      ((issueAllowed v s = true ∧ busWrite a v s = issue v s) ∨
        busWrite a v s = putSlz (v.getLsbD 0) s ∨
        (v.toNat ≤ s.cfg.textMax ∧ busWrite a v s = putTlen (v.setWidth 21) s) ∨
        (∃ i, locate s.cfg a = .txt i ∧ busWrite a v s = putTxtCell i (v.setWidth 16) s) ∨
        (∃ k, locate s.cfg a = .freq k ∧ busWrite a v s = putFreqCell k v s))) := by
  by_cases hb : s.stBusy = true
  · left; simp [busWrite, hb]
  · have hb' : s.stBusy = false := by simpa using hb
    rw [show busWrite a v s = writeLocation (locate s.cfg a) v s by simp [busWrite, hb']]
    cases hl : locate s.cfg a with
    | reg r =>
      cases r
      case cmd =>
        by_cases hi : issueAllowed v s = true
        · exact .inr ⟨hb', .inl ⟨hi, by simp [writeLocation, writeReg, hi]⟩⟩
        · left; simp [writeLocation, writeReg, hi]
      case ctrl => exact .inr ⟨hb', .inr (.inl rfl)⟩
      case tlen =>
        by_cases hv : v.toNat ≤ s.cfg.textMax
        · exact .inr ⟨hb', .inr (.inr (.inl ⟨hv, by simp [writeLocation, writeReg, hv]⟩))⟩
        · left; simp [writeLocation, writeReg, hv]
      all_goals exact .inl rfl
    | txt i => exact .inr ⟨hb', .inr (.inr (.inr (.inl ⟨i, rfl, rfl⟩)))⟩
    | freq k => exact .inr ⟨hb', .inr (.inr (.inr (.inr ⟨k, rfl, rfl⟩)))⟩
    | scode => exact .inl rfl
    | ccode => exact .inl rfl
    | node => exact .inl rfl
    | out => exact .inl rfl
    | unmapped => exact .inl rfl

/-- The indices a located cell can have (R38). -/
theorem locate_txt {cfg : Config} {a : Addr} {i : Nat} (h : locate cfg a = .txt i) : i < cfg.textMax := by
  unfold locate at h
  dsimp only at h
  generalize a.toNat = n at h
  repeat' split at h
  all_goals first | (have := Location.txt.inj h; omega) | (exact absurd h (by simp))

theorem locate_freq {cfg : Config} {a : Addr} {k : Nat} (h : locate cfg a = .freq k) : k < numSymbols := by
  unfold locate at h
  dsimp only at h
  generalize a.toNat = n at h
  repeat' split at h
  all_goals first | (have := Location.freq.inj h; simp only [numSymbols]; omega) | (exact absurd h (by simp))

/-- All that one step does, if it answers a next state (R50): a host transaction, a reset, or the engine's instant. -/
theorem step_next {s t : State} (h : step s = .next t) :
    (∃ a rest, s.agenda = .read a :: rest ∧ t = busRead a { s with agenda := rest }) ∨
    (∃ a v rest, s.agenda = .write a v :: rest ∧ t = busWrite a v { s with agenda := rest }) ∨
    (∃ rest, s.agenda = .rst :: rest ∧ t = applyReset { s with agenda := rest }) ∨
    (engineNext s = true ∧ s.stBusy = false ∧ t = popAgenda s) ∨
    (engineNext s = true ∧ s.stBusy = true ∧ complete (popAgenda s) = .next t) := by
  obtain ⟨cfg, txt, tlen, freq, node, nleaf, nnode, root, scode, scnt, ccode, ccnt, out, outlen, busy, done, fault, drop,
    cmdlat, slz, fcode, finfo0, finfo1, agenda, reads, freeIx⟩ := s
  simp only [step, advance] at h
  cases agenda with
  | nil =>
    simp only [engineAct] at h
    cases busy
    · simp only [Bool.false_eq_true, if_false, Host.Outcome.next.injEq] at h
      exact .inr (.inr (.inr (.inl ⟨rfl, rfl, h.symm⟩)))
    · exact .inr (.inr (.inr (.inr ⟨rfl, rfl, h⟩)))
  | cons e rest =>
    cases e with
    | read a => exact .inl ⟨a, rest, rfl, (Host.Outcome.next.inj h).symm⟩
    | write a v => exact .inr (.inl ⟨a, v, rest, rfl, (Host.Outcome.next.inj h).symm⟩)
    | rst => exact .inr (.inr (.inl ⟨rest, rfl, (Host.Outcome.next.inj h).symm⟩))
    | engine =>
      simp only [act, engineAct] at h
      cases busy
      · simp only [Bool.false_eq_true, if_false, Host.Outcome.next.injEq] at h
        exact .inr (.inr (.inr (.inl ⟨rfl, rfl, h.symm⟩)))
      · exact .inr (.inr (.inr (.inr ⟨rfl, rfl, h⟩)))

/-- All that a completion does: the decoded command, or ILLEGAL_COMMAND (R65). -/
theorem complete_next {s t : State} (h : complete s = .next t) :
    (∃ i, decode s.cmdlat = some i ∧ exec i s = .next t) ∨
      (decode s.cmdlat = none ∧ t = takeFault .illegalCommand s.cmdlat 0 s) := by
  unfold complete at h
  split at h
  · next i hd => exact .inl ⟨i, hd, h⟩
  · next hd => exact .inr ⟨hd, (Host.Outcome.next.inj h).symm⟩

/-- A run's first step. -/
theorem run_succ_next {M : Host.Core} {k : Nat} {s t : M.State} (h : Host.Core.run M (k + 1) s = .next t) :
    ∃ s', M.step s = .next s' ∧ Host.Core.run M k s' = .next t := by
  have hr : Host.Core.run M (k + 1) s = match M.step s with
    | .next s' => Host.Core.run M k s'
    | .fault r => .fault r
    | .refused r => .refused r := rfl
  rw [hr] at h
  split at h
  · next s' hs => exact ⟨s', hs, h⟩
  · cases h
  · cases h

end Sys2Proof.Machine
end

