-- ==== Sys2Proof/Laws/PerInstr.lean ====
section
/-! SUPPORT. Statements made of each command: every command's encoding is a legal command word (30_encoding.md R57). -/

namespace Sys2Proof.Laws.EncodeLegal

/-- The command's encoding is a legal word of R57. -/
def Statement (i : Instr) : Prop := Word.legal (encode i)

theorem nop : Statement .nop := by unfold Statement; decide
theorem clear : Statement .clear := by unfold Statement; decide
theorem freq : Statement .freq := by unfold Statement; decide
theorem build : Statement .build := by unfold Statement; decide
theorem derive : Statement .derive := by unfold Statement; decide
theorem canon : Statement .canon := by unfold Statement; decide
theorem encode (tsel : TableSel) : Statement (.encode tsel) := by unfold Statement; cases tsel <;> decide
theorem clrf : Statement .clrf := by unfold Statement; decide

end Sys2Proof.Laws.EncodeLegal
end

