-- ==== Sys2Proof/Tests/Slice0.lean ====
section
/-! SUPPORT. The model's own tests: the spec's words and vectors (95_test_vectors.md; every expected value is the spec's),
what the checks refuse, and for each statement with hypotheses a concrete state that meets them all. -/

namespace Sys2Proof.Tests

open Sys2Proof Sys2Proof.Machine

/-! ### Helpers -/

/-- The outcome is a next state of which `p` holds. -/
def nextIs (o : Host.Outcome State Fault Refusal) (p : State → Bool) : Bool :=
  match o with
  | .next t => p t
  | .fault _ => false
  | .refused _ => false

theorem exists_of_nextIs {o : Host.Outcome State Fault Refusal} {p : State → Bool} (h : nextIs o p = true) :
    ∃ t, o = .next t ∧ p t = true := by
  cases o with
  | next t => exact ⟨t, rfl, h⟩
  | fault f => cases h
  | refused r => cases h

/-- The completion left this fault record: `FAULT` alone of `BUSY`, `DONE`, `FAULT`, the code and the two words. -/
def faulted (c : BitVec 3) (i₀ i₁ : Word) (t : State) : Bool :=
  !t.stBusy && !t.stDone && t.stFault && t.fcode == c && t.finfo0 == i₀ && t.finfo1 == i₁

/-- The state after reset with these counts in `FREQ`. -/
def withFreq (m : Memory Count) : State := { State.reset with freq := m }

/-- The state after reset with this tree of `n` leaves. -/
def withTree (n : Nat) (nodes : List Node) : State :=
  { State.reset with
    node := nodes, nleaf := BitVec.ofNat 17 n, nnode := BitVec.ofNat 17 (2 * n - 1)
    root := BitVec.ofNat 17 (2 * n - 2) }

/-- The state after reset with this text. -/
def withText (l : List Symbol) : State :=
  { State.reset with txt := l.zipIdx.map (fun e => (e.2, e.1)), tlen := BitVec.ofNat 21 l.length }

/-- The tree of V-B3 (E2). -/
def treeB3 : List Node :=
  [.leaf 0x61 2, .leaf 0x62 3, .leaf 0x63 2, .internal 4 0 2, .internal 7 1 3]

/-- The codes of V-W4 and V-C3 (E2). -/
def codesE2 : Memory Code := [(0x61, ⟨2, 2⟩), (0x62, ⟨1, 0⟩), (0x63, ⟨2, 3⟩)]

/-- The end state of P1 (text "aabbbcc", the whole pipeline), with command `w` in flight. -/
def afterP1 (w : Word) : State :=
  { State.reset with
    txt := [(0, 0x61), (1, 0x61), (2, 0x62), (3, 0x62), (4, 0x62), (5, 0x63), (6, 0x63)], tlen := 7
    freq := [(0x61, 2), (0x62, 3), (0x63, 2)]
    node := treeB3, nleaf := 3, nnode := 5, root := 4
    scode := codesE2, scnt := 3, ccode := codesE2, ccnt := 3
    out := [true, false, true, false, false, false, false, true, true, true, true], outlen := 11
    stBusy := true, cmdlat := w }

/-- The same, idle with `DONE` set. -/
def doneP1 : State := { afterP1 0x106 with stBusy := false, stDone := true }

/-! ### What the checks refuse (30_encoding.md R57; 00_scope.md R7) -/

theorem test_legal_reserved_bit9 : ¬ Word.legal 0x00000206#32 := by decide
theorem test_legal_reserved_bit31 : ¬ Word.legal 0x80000000#32 := by decide
theorem test_legal_unassigned_opcode : ¬ Word.legal 0x00000008#32 := by decide
theorem test_legal_tsel_not_encode : ¬ Word.legal 0x00000103#32 := by decide
theorem test_wf_textMax_low : ¬ Config.wf ⟨0, 64⟩ := by decide
theorem test_wf_textMax_high : ¬ Config.wf ⟨1048577, 64⟩ := by decide
theorem test_wf_lenMax_low : ¬ Config.wf ⟨16, 0⟩ := by decide
theorem test_wf_lenMax_high : ¬ Config.wf ⟨16, 65⟩ := by decide
theorem test_wf_instr : Instr.wf (.encode .canonical) = true := by decide

/-! ### Decoding: words written out from R54's fields, RSV(23) TSEL(1) OPC(8) (R63, V-D1 to V-D19) -/

theorem test_decode_nop : decode 0b00000000000000000000000000000000#32 = some .nop := by decide
theorem test_decode_clear : decode 0b00000000000000000000000000000001#32 = some .clear := by decide
theorem test_decode_freq : decode 0b00000000000000000000000000000010#32 = some .freq := by decide
theorem test_decode_build : decode 0b00000000000000000000000000000011#32 = some .build := by decide
theorem test_decode_derive : decode 0b00000000000000000000000000000100#32 = some .derive := by decide
theorem test_decode_canon : decode 0b00000000000000000000000000000101#32 = some .canon := by decide
theorem test_decode_encode_s : decode 0b00000000000000000000000000000110#32 = some (.encode .standard) := by decide
theorem test_decode_encode_c : decode 0b00000000000000000000000100000110#32 = some (.encode .canonical) := by decide
theorem test_decode_clrf : decode 0b00000000000000000000000000000111#32 = some .clrf := by decide

/-- V-D10 to V-D19: the illegal words. -/
theorem test_decode_illegal : [0x00000008#32, 0x000000FF#32, 0x00000100#32, 0x00000103#32, 0x00000107#32, 0x00000206#32,
    0x00000306#32, 0x80000000#32, 0xFFFFFFFF#32, 0x00010006#32].map decode = List.replicate 10 none := by decide

theorem test_decodeTableWord : decodeTableWord 32 0x106 = some (.encode .canonical) := by decide

/-! ### Each command -/

/-- V-X8: NOP keeps `DROP`. -/
theorem test_nop_keeps_drop : nextIs (exec .nop { State.reset with stBusy := true, stDrop := true })
    (fun t => statusWord t == 0xA#32) = true := by decide

/-- V-X4. -/
theorem test_clear_after_p1 : nextIs (exec .clear (afterP1 1)) (fun t => t.nnode == 0 && t.scnt == 0 && t.ccnt == 0 &&
    t.outlen == 0 && t.freq == [] && t.tlen == 7 && cellAt t.txt 0 == some 0x61 && statusWord t == 2) = true := by decide

/-- V-F4. -/
theorem test_freq_e2 : nextIs (exec .freq { afterP1 2 with freq := [] })
    (fun t => t.freq == [(0x61, 2), (0x62, 3), (0x63, 2)]) = true := by decide

/-- V-X9: replacement is whole. -/
theorem test_freq_replaces : nextIs (exec .freq { withText [0x64, 0x64] with freq := [(0x61, 2), (0x71, 9)] })
    (fun t => t.freq == [(0x64, 2)]) = true := by decide

/-- V-B13: ties between leaves and internal nodes. -/
theorem test_build_ties : nextIs
    (exec .build (withFreq [(0x61, 3), (0x62, 1), (0x63, 1), (0x64, 1), (0x65, 1), (0x66, 1)]))
    (fun t => t.node.drop 6 == [.internal 2 1 2, .internal 2 3 4, .internal 3 5 6, .internal 5 7 0, .internal 8 8 9] &&
      t.nleaf == 6 && t.nnode == 11 && t.root == 10) = true := by decide

/-- V-B17: BUILD on the empty table faults and the old tree stays. -/
theorem test_build_empty : nextIs (exec .build (withTree 1 [.leaf 0x61 4]))
    (fun t => faulted 2 0 0 t && t.node == [.leaf 0x61 4] && t.nnode == 1) = true := by decide

/-- V-W4. -/
theorem test_derive_e2 : nextIs (exec .derive (withTree 3 treeB3))
    (fun t => t.scode == codesE2 && t.scnt == 3) = true := by decide

/-- V-W16: `LEN_MAX` = 1 and tree V-B3: Fault(4, 0x61, 2). -/
theorem test_derive_overflow : nextIs (exec .derive { withTree 3 treeB3 with cfg := ⟨1048576, 1⟩ })
    (fun t => faulted 4 0x61 2 t && t.scode == []) = true := by decide

/-- V-C4: lengths 1 and 3, the canonical codes differ from the standard ones (V-W7). -/
theorem test_canon_abracadabra : nextIs (exec .canon { State.reset with
      scode := [(0x61, ⟨1, 0⟩), (0x62, ⟨3, 6⟩), (0x63, ⟨3, 4⟩), (0x64, ⟨3, 5⟩), (0x72, ⟨3, 7⟩)], scnt := 5 })
    (fun t => t.ccode == [(0x61, ⟨1, 0⟩), (0x62, ⟨3, 4⟩), (0x63, ⟨3, 5⟩), (0x64, ⟨3, 6⟩), (0x72, ⟨3, 7⟩)] &&
      t.ccnt == 5) = true := by decide

/-- V-C1: a length-0 entry keeps length 0. -/
theorem test_canon_empty_code : nextIs (exec .canon { State.reset with scode := [(0x61, ⟨0, 0⟩)], scnt := 1 })
    (fun t => t.ccode == [(0x61, ⟨0, 0⟩)]) = true := by decide

/-- V-E12: "cab" under V-C3 is "11100". -/
theorem test_encode_cab : nextIs
    (exec (.encode .canonical) { withText [0x63, 0x61, 0x62] with ccode := codesE2, ccnt := 3 })
    (fun t => t.out == [true, true, true, false, false] && t.outlen == 5) = true := by decide

/-- V-G7: two symbols are missing; the least index is reported. -/
theorem test_encode_missing : nextIs
    (exec (.encode .standard) { withText [0x78, 0x62, 0x78] with scode := codesE2, scnt := 3, out := [true], outlen := 1 })
    (fun t => faulted 6 0 0x78 t && t.out == [true]) = true := by decide

/-- V-X7. -/
theorem test_clrf_returns : nextIs
    (exec .clrf { State.reset with stBusy := true, stFault := true, stDrop := true, fcode := 2, cmdlat := 7 })
    (fun t => statusWord t == 2 && t.fcode == 0 && t.cmdlat == 7) = true := by decide

/-! ### One step -/

/-- V-D14: `TSEL` on CLRF. -/
theorem test_step_illegal : nextIs (step (State.withFetchWord State.reset 32 0x107))
    (fun t => faulted 1 0x107 0 t && statusWord t == 4) = true := by decide

/-- V-D4: the very next step runs the word, with other acts on the agenda left for later. -/
theorem test_withFetchWord : nextIs (step (State.withFetchWord { State.reset with agenda := [.read 1] } 32 3))
    (fun t => faulted 2 0 0 t && t.agenda == [.read 1]) = true := by decide

/-- V-X3: a write while busy is dropped. -/
theorem test_step_drop : nextIs
    (step { State.reset with stBusy := true, cmdlat := 2, agenda := [.write 0x3 5] })
    (fun t => t.tlen == 0 && statusWord t == 9) = true := by decide

/-- V-H1: reset with CLEAR in flight. -/
theorem test_step_reset : nextIs (step { afterP1 1 with agenda := [.rst] }) (fun t => t == State.reset) = true := by
  decide

/-- V-G8: while faulted only CLRF's word issues; 0x107 is dropped. -/
theorem test_step_blocked : nextIs
    (step { State.reset with stFault := true, fcode := 2, cmdlat := 3, agenda := [.write 0 0x107] })
    (fun t => statusWord t == 0xC && t.cmdlat == 3) = true := by decide

/-! ### The host's views -/

/-- V-M4: `SCODE['a']`. -/
theorem test_view_code : [0x040184, 0x040185, 0x040186, 0x040187, 0x040188, 0x040190].map
    (fun a => memRead doneP1 (BitVec.ofNat 23 a)) = [0x80000002, 2, 0, 0, 0x80000001, 0] := by decide

/-- V-W9: a code longer than 32 bits, 34 ones and a zero. -/
theorem test_view_long_code : [0, 1, 2, 3].map (codeView (some ⟨34, 0x3FFFFFFFE⟩)) =
    [0x80000022, 0xFFFFFFFE, 0x00000003, 0] := by decide

/-- V-M5: `NODE[0]`, `NODE[3]`, and the entry after the last. -/
theorem test_view_node : [0x100000, 0x100001, 0x100018, 0x100019, 0x10001B, 0x10001C, 0x100028].map
    (fun a => memRead doneP1 (BitVec.ofNat 23 a)) = [0xC0000061, 2, 0x80000000, 4, 0, 2, 0] := by decide

/-- V-M6: the first word of an 11-bit stream. -/
theorem test_view_out : memRead doneP1 0x400000 = 0xA1E00000#32 := by decide

/-! ### Host programs (R60 to R62) -/

theorem test_script_loadtxt : scriptLoadTxt [0x61, 0x62] =
    [.write 0x200000 0x61, .write 0x200001 0x62, .write 0x3 2] := by decide

theorem test_script_run : scriptRun 1 .build = [.write 0 3, .read 1, .engine, .read 1] := by decide

theorem test_parse : parseCommand "ENCODE" (some "C") = some (.encode .canonical) ∧ parseCommand "ENCODE" none = none ∧
    parseCommand "BUILD" (some "S") = none ∧ parseCommand "build" none = none := by decide

/-! ### Witnesses: the hypotheses of each statement, met together -/

theorem prefixFree_of_mem {m : Memory Code} (h : ∀ e ∈ m, ∀ f ∈ m, e.1 ≠ f.1 → CodesApart e.2 f.2) : PrefixFree m :=
  fun _ _ _ _ hab hc hd => h _ (mem_of_cellAt hc) _ (mem_of_cellAt hd) hab

theorem treeB3_inv : TreeInv treeB3 3 where
  pos := by decide
  le := by decide
  length := rfl
  leaf := by decide
  sorted := fun j hj => (by decide : ∀ j, j < 2 → symOf treeB3 j < symOf treeB3 (j + 1)) j (by omega)
  internal := by decide
  below := by decide
  apart := by decide
  sum := by decide
  once := by decide
  root := by decide
  freqPos := by decide

/-- The tree of V-B1: one leaf. -/
theorem treeB1_inv : TreeInv [.leaf 0x61 4] 1 where
  pos := by decide
  le := by decide
  length := rfl
  leaf := by decide
  sorted := fun j hj => by omega
  internal := by decide
  below := by decide
  apart := by decide
  sum := by decide
  once := by decide
  root := by decide
  freqPos := by decide

/-- The least tree with a merge: two leaves and their root (R80). -/
def treeTwo : List Node := [.leaf 0x61 2, .leaf 0x62 1, .internal 3 1 0]

theorem treeTwo_inv : TreeInv treeTwo 2 where
  pos := by decide
  le := by decide
  length := rfl
  leaf := by decide
  sorted := fun j hj => (by decide : ∀ j, j < 1 → symOf treeTwo j < symOf treeTwo (j + 1)) j (by omega)
  internal := by decide
  below := by decide
  apart := by decide
  sum := by decide
  once := by decide
  root := by decide
  freqPos := by decide

theorem p1_freqTable : FreqTable (afterP1 0).freq := ⟨by decide, by decide, by decide⟩

theorem codesE2_table : CodeTable codesE2 := ⟨by decide, by decide⟩

theorem codesE2_prefixFree : PrefixFree codesE2 := prefixFree_of_mem (by unfold CodesApart; decide)

theorem p1_memory (w : Word) (l : List Event) : MemoryInv { afterP1 w with agenda := l } :=
  ⟨⟨by show Memory.wf (afterP1 0).txt; decide, by show ∀ e ∈ (afterP1 0).txt, e.1 < 1048576; decide⟩, p1_freqTable,
    codesE2_table, codesE2_table⟩

theorem codesE2_fit : CodesFit 64 codesE2 := by unfold CodesFit; decide

theorem p1_bounds (w : Word) (l : List Event) : BoundsInv { afterP1 w with agenda := l } :=
  ⟨by show Config.wf ⟨1048576, 64⟩; decide, by show 7 ≤ 1048576; decide, codesE2_fit, codesE2_fit, rfl,
    by show 11 ≤ 1048576 * 64; decide⟩

theorem p1_bounds' (w : Word) : BoundsInv (afterP1 w) := p1_bounds w []

theorem p1_tree (w : Word) (l : List Event) : TreeState { afterP1 w with agenda := l } := .inr ⟨treeB3_inv, rfl, rfl⟩

/-- The machine invariant holds of a state with every table full and any command in flight. -/
theorem p1_inv (w : Word) (l : List Event) : MachineInv { afterP1 w with agenda := l } :=
  ⟨⟨by simp [afterP1, State.reset], by simp [afterP1, State.reset], by simp [afterP1, State.reset],
      by simp [afterP1, State.reset], by simp [afterP1, State.reset]⟩,
    p1_memory w l, p1_bounds w l, p1_tree w l, rfl, rfl, codesE2_prefixFree, codesE2_prefixFree,
    by show kraftSum 64 codesE2 ≤ 2 ^ 64; decide⟩

/-- The paths of the tree V-B3 (V-W4): a = "10", b = "0", c = "11". -/
def pathB3 : Nat → BitString
  | 0 => [true, false]
  | 1 => [false]
  | 2 => [true, true]
  | 3 => [true]
  | _ => []

theorem pathB3_paths : PathOf treeB3 4 pathB3 := by
  have key : ∀ (k : Nat) f l r, treeB3[k]? = some (.internal f l r) →
      pathB3 l.toNat = pathB3 k ++ [false] ∧ pathB3 r.toNat = pathB3 k ++ [true] := by
    intro k f l r h
    match k, h with
    | 0, h => cases h
    | 1, h => cases h
    | 2, h => cases h
    | 3, h => cases h; decide
    | 4, h => cases h; decide
    | k + 5, h => cases h
  exact ⟨rfl, fun k f l r h => (key k f l r h).1, fun k f l r h => (key k f l r h).2⟩

theorem witness_ResetEventRestoresResetState : ({ afterP1 3 with agenda := [.rst, .read 1] } : State).agenda =
    .rst :: [.read 1] := rfl

theorem witness_ResetMeetsMachineInvariant : Config.wf ⟨1048576, 64⟩ ∧ Config.wf ⟨1, 1⟩ := by decide

theorem witness_StepKeepsFlagsAndFaultRecord : StatusInv { afterP1 3 with agenda := [.engine] } ∧
    ∃ t, step { afterP1 3 with agenda := [.engine] } = .next t :=
  ⟨(p1_inv 3 _).status, _, rfl⟩

theorem witness_StepKeepsMemoriesCanonical : MemoryInv { afterP1 3 with agenda := [.engine] } ∧
    ∃ t, step { afterP1 3 with agenda := [.engine] } = .next t := ⟨p1_memory 3 _, _, rfl⟩

theorem witness_StepKeepsBounds : BoundsInv { afterP1 0x106 with agenda := [.engine] } ∧
    ∃ t, step { afterP1 0x106 with agenda := [.engine] } = .next t :=
  ⟨p1_bounds _ _, (exists_of_nextIs (p := fun _ => true) (by decide)).imp fun _ h => h.1⟩

theorem witness_StepKeepsTree : (MemoryInv { afterP1 3 with agenda := [.engine] } ∧
    TreeState { afterP1 3 with agenda := [.engine] }) ∧
    ∃ t, step { afterP1 3 with agenda := [.engine] } = .next t := ⟨⟨p1_memory 3 _, p1_tree 3 _⟩, _, rfl⟩

theorem witness_StepKeepsMachineInvariant : MachineInv { afterP1 4 with agenda := [.engine] } ∧
    ∃ t, step { afterP1 4 with agenda := [.engine] } = .next t :=
  ⟨p1_inv 4 _, (exists_of_nextIs (p := fun _ => true) (by decide)).imp fun _ h => h.1⟩

theorem witness_ReachableStatesMeetMachineInvariant : Config.wf ⟨16, 2⟩ ∧
    ∃ t, Host.Core.run Sys2Proof.core 2
      { State.reset with cfg := ⟨16, 2⟩, agenda := [.write 0x200000 0x61, .write 3 1] } = .next t ∧ t.tlen = 1 :=
  ⟨by decide, _, rfl, rfl⟩

theorem witness_NothingHangs : MachineInv { afterP1 5 with agenda := [] } ∧
    ({ afterP1 5 with agenda := [] } : State).stBusy = true ∧ engineNext { afterP1 5 with agenda := [] } = true :=
  ⟨p1_inv 5 _, rfl, rfl⟩

theorem witness_DecodeInvertsEncode : Instr.wf (.encode .canonical) = true := rfl

theorem witness_EncodeInvertsDecode : decode 0x00000106#32 = some (.encode .canonical) := by decide

theorem witness_StepRunsDecodedCommand :
    ((afterP1 3).stBusy = true ∧ engineNext (afterP1 3) = true ∧ decode (afterP1 3).cmdlat = some .build) ∧
    (doneP1.stBusy = false ∧ engineNext { doneP1 with agenda := [.engine] } = true) := by decide

theorem witness_IllegalWordRaisesIllegalCommand :
    (afterP1 0x103).stBusy = true ∧ engineNext (afterP1 0x103) = true ∧ decode (afterP1 0x103).cmdlat = none := by decide

/-- Idle; faulted with CLRF's word; faulted with another; busy. -/
theorem witness_CommandWriteIssuesOrIsDropped :
    ({ doneP1 with agenda := [.write 0x000000#23 3] } : State).agenda = .write 0x000000#23 3 :: [] ∧
    (doneP1.stBusy = false ∧ (doneP1.stFault = false ∨ 3#32 = 0x00000007#32)) ∧
    (let s : State := { doneP1 with stFault := true, stDone := false };
      (s.stBusy = false ∧ (s.stFault = false ∨ 7#32 = 0x00000007#32)) ∧
      ¬ (s.stBusy = false ∧ (s.stFault = false ∨ 0x107#32 = 0x00000007#32))) ∧
    ¬ ((afterP1 7).stBusy = false ∧ ((afterP1 7).stFault = false ∨ 7#32 = 0x00000007#32)) := by decide

theorem witness_CompletionIsOkOrCleanFault : (∃ t, exec .build (afterP1 3) = .next t ∧ t.stDone = true) ∧
    ∃ t, exec .derive State.reset = .next t ∧ t.stFault = true := ⟨⟨_, rfl, rfl⟩, _, rfl, rfl⟩

theorem witness_CommandsWriteOnlyTheirOutputs : ∃ t, exec .build (afterP1 3) = .next t := ⟨_, rfl⟩

theorem witness_FaultEndsOnlyByClrfOrReset :
    StatusInv { State.reset with stFault := true, fcode := 2, agenda := [.write 0 4] } ∧
    ∃ t, step { State.reset with stFault := true, fcode := 2, agenda := [.write 0 4] } = .next t :=
  ⟨⟨by simp [State.reset], by simp [State.reset], by simp [State.reset], by simp, by simp⟩, _, rfl⟩

theorem witness_HostActsLeaveProducedTables :
    (∃ a, ({ doneP1 with agenda := [.read 0x040184] } : State).agenda.head? = some (.read a)) ∧
    (∃ a v, ({ doneP1 with agenda := [.write 0x010061 9] } : State).agenda.head? = some (.write a v)) ∧
    (∃ t, step { doneP1 with agenda := [.read 0x040184] } = .next t) ∧
    ∃ t, step { doneP1 with agenda := [.write 0x010061 9] } = .next t :=
  ⟨⟨_, rfl⟩, ⟨_, _, rfl⟩, ⟨_, rfl⟩, _, rfl⟩

theorem witness_BusyFreezesState : let s := { afterP1 3 with agenda := [.write 0x010061 9] };
    s.stBusy = true ∧ engineNext s = false ∧ s.agenda.head? ≠ some .rst ∧ ∃ t, step s = .next t :=
  ⟨rfl, rfl, by decide, _, rfl⟩

theorem witness_ReadReturnsViewAndChangesNothing :
    ({ afterP1 3 with agenda := [.read 0x000001#23] } : State).agenda = .read 0x000001#23 :: [] ∧
    (0x040184#23 ≠ 0x000001#23 ∧ doneP1.stBusy = false) := by decide

theorem witness_RegisterViews : doneP1.stBusy = false := rfl

/-- The first and the last `TXT` cell, and the first past it, of an instance with `TEXT_MAX` = 16. -/
theorem witness_FreqAndTextViews :
    let s := { State.reset with cfg := ⟨16, 64⟩, txt := [(0, 0x61), (15, 0xFFFF)] }
    (s.cfg.wf ∧ s.stBusy = false) ∧ (0 < s.cfg.textMax ∧ cellAt s.txt 0 = some 0x61) ∧
      (15 < s.cfg.textMax ∧ cellAt s.txt 15 = some 0xFFFF) ∧ (s.cfg.textMax ≤ 16 ∧ 16 < 0x100000) := by decide

/-- An absent entry, a code, the empty code and a 64-bit code, the last symbol's. -/
theorem witness_CodeEntryView :
    let s := { State.reset with scode := [(0x61, ⟨0, 0⟩), (0xFFFF, ⟨64, 0xFFFFFFFFFFFFFFFF⟩)], ccode := codesE2 }
    s.stBusy = false ∧ (0x080000 = 0x080000 ∧ codesE2 = s.ccode) ∧ cellAt s.scode 0x62 = none ∧
      (cellAt s.scode 0x61 = some ⟨0, 0⟩ ∧ 0 ≤ 64 ∧ 0 < 2 ^ 0) ∧
      (cellAt s.scode (0xFFFF#16).toNat = some ⟨64, 0xFFFFFFFFFFFFFFFF⟩ ∧ 64 ≤ 64 ∧ 0xFFFFFFFFFFFFFFFF < 2 ^ 64) := by
  decide

/-- A leaf, an internal node, the first entry past the last, and the last index of all. -/
theorem witness_NodeEntryView : doneP1.stBusy = false ∧
    (0 < doneP1.nnode.toNat ∧ doneP1.node[0]? = some (.leaf 0x61 2)) ∧
    (4 < doneP1.nnode.toNat ∧ doneP1.node[4]? = some (.internal 7 1 3)) ∧ doneP1.nnode.toNat ≤ 5 ∧ 5 < 131072 ∧
    (doneP1.nnode.toNat ≤ 131071 ∧ 131071 < 131072) := by decide

theorem witness_OutViewBitByBit : doneP1.stBusy = false ∧ doneP1.outlen.toNat = doneP1.out.length ∧ 0 < 2097152 ∧
    2097151 < 2097152 ∧ 31 < 32 := by decide

/-- Both ends of each unmapped range, in an instance with `TEXT_MAX` = 16. -/
theorem witness_UnmappedAddresses : Config.wf ⟨16, 64⟩ ∧
    ∀ n ∈ [0x000010, 0x00FFFF, 0x020000, 0x03FFFF, 0x0C0000, 0x0FFFFF, 0x300000, 0x3FFFFF, 0x600000, 0x7FFFFF, 0x200010,
      0x2FFFFF],
    let a : Addr := BitVec.ofNat 23 n
    (0x000010 ≤ a.toNat ∧ a.toNat ≤ 0x00FFFF) ∨ (0x020000 ≤ a.toNat ∧ a.toNat ≤ 0x03FFFF) ∨
      (0x0C0000 ≤ a.toNat ∧ a.toNat ≤ 0x0FFFFF) ∨ (0x300000 ≤ a.toNat ∧ a.toNat ≤ 0x3FFFFF) ∨
      (0x600000 ≤ a.toNat ∧ a.toNat ≤ 0x7FFFFF) ∨ (0x200000 + 16 ≤ a.toNat ∧ a.toNat ≤ 0x2FFFFF) := by decide

/-- Busy, at a writable address; idle, at `STATUS`, at the ends of the code tables and nodes, past `TEXT_MAX`, at `OUT`. -/
theorem witness_WritesDropped : Config.wf ⟨16, 64⟩ ∧
    ({ afterP1 3 with agenda := [.write 3 5] } : State).agenda = .write 3 5 :: [] ∧ (afterP1 3).stBusy = true ∧
    ∀ n ∈ [0x000001, 0x000004, 0x00000F, 0x00FFFF, 0x020000, 0x040000, 0x0BFFFF, 0x100000, 0x1FFFFF, 0x200010, 0x400000,
      0x7FFFFF],
    let a : Addr := BitVec.ofNat 23 n
    ¬ (a.toNat = 0 ∨ a.toNat = 2 ∨ a.toNat = 3 ∨ (0x010000 ≤ a.toNat ∧ a.toNat ≤ 0x01FFFF) ∨
      (0x200000 ≤ a.toNat ∧ a.toNat < 0x200000 + 16)) := by decide

/-- `CTRL`; `TLEN` at `TEXT_MAX` and one past it; the first and the last register that drops. -/
theorem witness_RegisterWrites : (doneP1.cfg.wf ∧ doneP1.stBusy = false) ∧
    ({ doneP1 with agenda := [.write 0x2#23 1] } : State).agenda = .write 0x2#23 1 :: [] ∧
    ({ doneP1 with agenda := [.write 0x3#23 1048576] } : State).agenda = .write 0x3#23 1048576 :: [] ∧
    (1048576#32).toNat ≤ doneP1.cfg.textMax ∧ doneP1.cfg.textMax < (1048577#32).toNat ∧
    ((1#23).toNat = 1 ∨ (4 ≤ (1#23).toNat ∧ (1#23).toNat ≤ 15)) ∧
    ((15#23).toNat = 1 ∨ (4 ≤ (15#23).toNat ∧ (15#23).toNat ≤ 15)) := by decide

theorem witness_TextAndFreqCellWrites : (doneP1.cfg.wf ∧ doneP1.stBusy = false) ∧ 1048575 < doneP1.cfg.textMax ∧
    ({ doneP1 with agenda := [.write (BitVec.ofNat 23 (0x200000 + 1048575)) 9] } : State).agenda =
      .write (BitVec.ofNat 23 (0x200000 + 1048575)) 9 :: [] ∧
    ({ doneP1 with agenda := [.write (BitVec.ofNat 23 (0x010000 + (0xFFFF#16).toNat)) 0] } : State).agenda =
      .write (BitVec.ofNat 23 (0x010000 + (0xFFFF#16).toNat)) 0 :: [] := by decide

theorem witness_TextReadsWrittenCells : 6 < doneP1.tlen.toNat ∧ cellAt doneP1.txt 6 = some 0x63 := by decide

theorem witness_FreqTableSumsToTextLength : ∃ t, exec .freq (afterP1 2) = .next t := ⟨_, rfl⟩

theorem witness_ExtractMinTakesLeastKey :
    ([⟨2, 0⟩, ⟨3, 1⟩, ⟨2, 2⟩] : List QEntry) ≠ [] ∧
      (([⟨2, 0⟩, ⟨3, 1⟩, ⟨2, 2⟩] : List QEntry).map QEntry.ix).Nodup := by decide

theorem witness_BuildEmptyTableFaults : FreqTable State.reset.freq ∧ ∀ sym, freqAt State.reset.freq sym = 0 :=
  ⟨FreqTable.empty, fun _ => rfl⟩

theorem witness_BuildMakesTheTree : FreqTable (afterP1 3).freq ∧ ∃ sym, freqAt (afterP1 3).freq sym ≠ 0 :=
  ⟨p1_freqTable, 0x61, by decide⟩

/-- The hypotheses of BuildLeavesAreTheSymbols and BuildFrequenciesAddUp. -/
theorem witness_BuildLeavesAreTheSymbols : FreqTable (afterP1 3).freq ∧
    ∃ t, exec .build (afterP1 3) = .next t ∧ t.stDone = true := ⟨p1_freqTable, _, rfl, rfl⟩

theorem witness_BuildFrequenciesAddUp : FreqTable (afterP1 3).freq ∧
    ∃ t, exec .build (afterP1 3) = .next t ∧ t.stDone = true ∧ t.nleaf.toNat ≤ 3 ∧ 3 < t.root.toNat := by
  obtain ⟨t, h, hp⟩ := exists_of_nextIs (o := exec .build (afterP1 3))
    (p := fun t => t.stDone && decide (t.nleaf.toNat ≤ 3) && decide (3 < t.root.toNat)) (by decide)
  simp only [Bool.and_eq_true, decide_eq_true_eq] at hp
  exact ⟨p1_freqTable, t, h, hp.1.1, hp.1.2, hp.2⟩

/-- Node 3 of V-B3 merges leaves 0 and 2, with leaf 1 left in the queue. -/
theorem witness_BuildMergesTheTwoLeast : FreqTable (afterP1 3).freq ∧
    ∃ t, exec .build (afterP1 3) = .next t ∧ t.stDone = true ∧ t.node[3]? = some (.internal 4 0 2) ∧
      (1 < 3 ∧ 1 ∉ childrenOf (t.node.take 3) ∧ 1 ≠ (0#17).toNat ∧ 1 ≠ (2#17).toNat) := by
  obtain ⟨t, h, hp⟩ := exists_of_nextIs (o := exec .build (afterP1 3))
    (p := fun t => t.stDone && decide (t.node = treeB3)) (by decide)
  simp only [Bool.and_eq_true, decide_eq_true_eq] at hp
  exact ⟨p1_freqTable, t, h, hp.1, by rw [hp.2]; decide⟩

theorem witness_DeriveWithoutTreeFaults : State.reset.nnode = 0 := rfl

theorem witness_TreesHaveOnePathFunction : TreeInv treeB3 3 ∧ PathOf treeB3 (2 * 3 - 2) pathB3 ∧ 0 < 2 * 3 - 1 :=
  ⟨treeB3_inv, pathB3_paths, by decide⟩

theorem witness_DeriveRecordsPaths : TreeState (afterP1 4) ∧ (afterP1 4).nnode ≠ 0 ∧
    PathOf (afterP1 4).node (afterP1 4).root.toNat pathB3 ∧
    ∀ j, j < (afterP1 4).nleaf.toNat → (standardCode (afterP1 4) (pathB3 j)).length ≤ (afterP1 4).cfg.lenMax :=
  ⟨p1_tree 4 [], by decide, pathB3_paths, by decide⟩

/-- V-W16, `LEN_MAX` = 1: leaf 0 is the least offender. -/
theorem witness_DeriveReportsLeastLongCode :
    let s := { afterP1 4 with cfg := ⟨16, 1⟩ }
    TreeState s ∧ s.nnode ≠ 0 ∧ PathOf s.node s.root.toNat pathB3 ∧ 0 < s.nleaf.toNat ∧
      s.cfg.lenMax < (standardCode s (pathB3 0)).length ∧
      ∀ i, i < 0 → (standardCode s (pathB3 i)).length ≤ s.cfg.lenMax :=
  ⟨.inr ⟨treeB3_inv, rfl, rfl⟩, by decide, pathB3_paths, by decide, by decide, by decide⟩

theorem witness_DeriveSingleLeafPolicy :
    (let s : State := { withTree 1 [.leaf 0x61 4] with slz := true };
      s.cfg.wf ∧ s.node = [.leaf 0x61 4] ∧ s.nleaf = 1 ∧ s.nnode = 1 ∧ s.root = 0) ∧
    2 ≤ (afterP1 4).nleaf.toNat ∧ nextIs (exec .derive (afterP1 4)) (fun _ => true) = true := by decide

theorem witness_DeriveTableIsPrefixFree : TreeState (afterP1 4) ∧
    ∃ t, exec .derive (afterP1 4) = .next t ∧ t.stDone = true :=
  ⟨p1_tree 4 [], exists_of_nextIs (p := fun t => t.stDone) (by decide)⟩

/-- Three leaves, the boundary of two, and one. -/
theorem witness_DeriveLengthsMeetKraft : ((afterP1 4).cfg.wf ∧ TreeState (afterP1 4) ∧
      (∃ t, exec .derive (afterP1 4) = .next t ∧ t.stDone = true) ∧ 2 ≤ (afterP1 4).nleaf.toNat) ∧
    (TreeState (withTree 2 treeTwo) ∧ (∃ t, exec .derive (withTree 2 treeTwo) = .next t ∧ t.stDone = true) ∧
      (withTree 2 treeTwo).nleaf.toNat = 2) ∧
    (TreeState (withTree 1 [.leaf 0x61 4]) ∧
      (∃ t, exec .derive (withTree 1 [.leaf 0x61 4]) = .next t ∧ t.stDone = true) ∧
      (withTree 1 [.leaf 0x61 4]).nleaf.toNat = 1) :=
  ⟨⟨by decide, p1_tree 4 [], exists_of_nextIs (p := fun t => t.stDone) (by decide), by decide⟩,
    ⟨.inr ⟨treeTwo_inv, rfl, rfl⟩, exists_of_nextIs (p := fun t => t.stDone) (by decide), rfl⟩,
    .inr ⟨treeB1_inv, rfl, rfl⟩, exists_of_nextIs (p := fun t => t.stDone) (by decide), rfl⟩

theorem witness_CanonEmptyTableFaults : State.reset.scnt = 0 := rfl

theorem witness_CanonConservesLengths : CodeTable (afterP1 5).scode ∧
    (afterP1 5).scnt.toNat = (afterP1 5).scode.length ∧ (afterP1 5).scnt ≠ 0 ∧
    (∀ e ∈ (afterP1 5).scode, e.2.len ≤ (afterP1 5).cfg.lenMax) ∧
    kraftSum (afterP1 5).cfg.lenMax (afterP1 5).scode ≤ 2 ^ (afterP1 5).cfg.lenMax :=
  ⟨codesE2_table, by decide, by decide, by decide, by decide⟩

/-- The second standard table of V-C9: a = "01", b = "1", c = "00"; the same lengths as V-W4, other codes. -/
def codesC9 : Memory Code := [(0x61, ⟨2, 1⟩), (0x62, ⟨1, 1⟩), (0x63, ⟨2, 0⟩)]

theorem witness_CanonDependsOnLengthsOnly :
    let s := { State.reset with scode := codesC9, scnt := 3 }
    CodeTable (afterP1 5).scode ∧ CodeTable s.scode ∧
      (∀ sym, (cellAt (afterP1 5).scode sym).map Code.len = (cellAt s.scode sym).map Code.len) ∧
      (∃ t, exec .canon (afterP1 5) = .next t ∧ t.stDone = true) ∧ ∃ t, exec .canon s = .next t ∧ t.stDone = true :=
  ⟨codesE2_table, ⟨by decide, by decide⟩, fun sym => by
      show (cellAt codesE2 sym).map Code.len = (cellAt codesC9 sym).map Code.len
      simp only [codesE2, codesC9, cellAt]; repeat' split
      all_goals rfl,
    exists_of_nextIs (p := fun t => t.stDone) (by decide), exists_of_nextIs (p := fun t => t.stDone) (by decide)⟩

/-- Entries 'b' (length 1) and 'a', 'c' (length 2) in R97's order. -/
theorem witness_CanonValueFormula : CodeTable (afterP1 5).scode ∧
    (∀ e ∈ (afterP1 5).scode, e.2.len ≤ (afterP1 5).cfg.lenMax) ∧
    ∃ t, exec .canon (afterP1 5) = .next t ∧ t.stDone = true ∧ cellAt t.ccode 0x62 = some ⟨1, 0⟩ ∧
      cellAt t.ccode 0x61 = some ⟨2, 2⟩ ∧ cellAt t.ccode 0x63 = some ⟨2, 3⟩ := by
  obtain ⟨t, h, hp⟩ := exists_of_nextIs (o := exec .canon (afterP1 5))
    (p := fun t => t.stDone && decide (t.ccode = codesE2)) (by decide)
  simp only [Bool.and_eq_true, decide_eq_true_eq] at hp
  exact ⟨codesE2_table, by decide, t, h, hp.1, by rw [hp.2]; decide⟩

theorem witness_CanonTableIsPrefixFree : CodeTable (afterP1 5).scode ∧
    ∃ t, exec .canon (afterP1 5) = .next t ∧ t.stDone = true :=
  ⟨codesE2_table, exists_of_nextIs (p := fun t => t.stDone) (by decide)⟩

theorem witness_EncodeConcatenatesCodes :
    (TableSel.canonical = .canonical ∧ codesE2 = (afterP1 0x106).ccode) ∧ BoundsInv (afterP1 0x106) ∧
    ∀ x ∈ readText (afterP1 0x106), cellAt codesE2 x.toNat ≠ none :=
  ⟨⟨rfl, rfl⟩, p1_bounds' _, fun x hx => by
    have := List.all_eq_true.1 (by decide : (readText (afterP1 0x106)).all (fun x => (cellAt codesE2 x.toNat).isSome) = true) x hx
    exact Option.isSome_iff_ne_none.1 this⟩

/-- V-G6: "abd". -/
theorem witness_EncodeReportsFirstMissing :
    let s := { withText [0x61, 0x62, 0x64] with ccode := codesE2 }
    (TableSel.canonical = .canonical ∧ codesE2 = s.ccode) ∧ (readText s)[2]? = some 0x64 ∧
      cellAt codesE2 (0x64#16).toNat = none ∧
      ∀ (k : Nat) y, k < 2 → (readText s)[k]? = some y → cellAt codesE2 y.toNat ≠ none := by
  refine ⟨⟨rfl, rfl⟩, by decide, by decide, ?_⟩
  intro k y hk hy
  match k, hk, hy with
  | 0, _, hy => cases hy; decide
  | 1, _, hy => cases hy; decide

theorem witness_EncodeLengthIsSum :
    (TableSel.standard = .standard ∧ codesE2 = (afterP1 6).scode) ∧
    (∃ t, exec (.encode .standard) (afterP1 6) = .next t ∧ t.stDone = true) ∧
    (readText (afterP1 6))[2]? = some 0x62 ∧ cellAt codesE2 (0x62#16).toNat = some ⟨1, 0⟩ :=
  ⟨⟨rfl, rfl⟩, exists_of_nextIs (p := fun t => t.stDone) (by decide), by decide, by decide⟩

end Sys2Proof.Tests
end

section
/-! The invariants of 10_state.md R30: what a step can do to the tables and registers they speak of is said once
(`Change`, `step_change`), each invariant is shown to survive every such change, and the flags and the fault record have a
step lemma of their own. -/

namespace Sys2Proof.Machine

/-! ### A recorded fault and the flags (R25, R30 items 7 and 8) -/

/-- Same `FAULT` flag and same fault record. -/
def SameFaultRecord (s t : State) : Prop :=
  t.stFault = s.stFault ∧ t.fcode = s.fcode ∧ t.finfo0 = s.finfo0 ∧ t.finfo1 = s.finfo1

/-- What a completing command does to the flags and the fault record (R65, R119, R121): a fault, a completion that leaves the
record alone, or the completion of CLRF. -/
theorem exec_status {i : Instr} {s t : State} (h : exec i s = .next t) :
    (∃ c i₀ i₁ u, t = takeFault c i₀ i₁ u) ∨
      (i ≠ .clrf ∧ ∃ u, t = completeOk u ∧ SameFaultRecord s u) ∨
      (i = .clrf ∧ t = completeOk (clearFault s)) := by
  have ok : ∀ {u}, i ≠ .clrf → t = completeOk u → SameFaultRecord s u →
      (∃ c i₀ i₁ u, t = takeFault c i₀ i₁ u) ∨ (i ≠ .clrf ∧ ∃ u, t = completeOk u ∧ SameFaultRecord s u) ∨
        (i = .clrf ∧ t = completeOk (clearFault s)) := fun hi ht hu => .inr (.inl ⟨hi, _, ht, hu⟩)
  rcases exec_next h with ⟨rfl, ht⟩ | ⟨rfl, ht⟩ | ⟨rfl, ht⟩ | ⟨rfl, h⟩ | ⟨rfl, h⟩ | ⟨rfl, h⟩ | ⟨tsel, rfl, h⟩ | ⟨rfl, ht⟩
  · exact ok nofun ht ⟨rfl, rfl, rfl, rfl⟩
  · exact ok nofun ht ⟨rfl, rfl, rfl, rfl⟩
  · exact ok nofun ht ⟨rfl, rfl, rfl, rfl⟩
  · rcases execBuild_next h with ⟨-, ht⟩ | ⟨-, ht⟩
    · exact .inl ⟨_, _, _, _, ht⟩
    · exact ok nofun ht ⟨rfl, rfl, rfl, rfl⟩
  · rcases execDerive_next h with ⟨-, ht⟩ | ⟨-, vs, -, ht⟩
    · exact .inl ⟨_, _, _, _, ht⟩
    · rcases deriveFrom_cases (applySlz s vs) s with ⟨v, -, hd⟩ | ⟨-, hd⟩
      · exact .inl ⟨_, _, _, _, ht.trans hd⟩
      · exact ok nofun (ht.trans hd) ⟨rfl, rfl, rfl, rfl⟩
  · rcases execCanon_next h with ⟨-, ht⟩ | ⟨-, -, ht⟩
    · exact .inl ⟨_, _, _, _, ht⟩
    · exact ok nofun ht ⟨rfl, rfl, rfl, rfl⟩
  · rcases execEncode_next h with ⟨_, _, -, ht⟩ | ⟨_, -, ht⟩
    · exact .inl ⟨_, _, _, _, ht⟩
    · exact ok nofun ht ⟨rfl, rfl, rfl, rfl⟩
  · exact .inr (.inr ⟨rfl, ht⟩)

/-- No host write touches the fault record (R44, R120). -/
theorem busWrite_sameFaultRecord (a : Addr) (v : Word) (s : State) : SameFaultRecord s (busWrite a v s) := by
  rcases busWrite_cases a v s with h | ⟨-, ⟨-, h⟩ | h | ⟨-, h⟩ | ⟨i, -, h⟩ | ⟨k, -, h⟩⟩ <;>
    exact h ▸ ⟨rfl, rfl, rfl, rfl⟩

/-- With a fault recorded only CLRF's word is in flight, and it decodes to CLRF (R30 item 7, R120). -/
theorem StatusInv.decode_of_fault {s : State} (h : StatusInv s) (hb : s.stBusy = true) (hf : s.stFault = true) :
    decode s.cmdlat = some .clrf := by
  rw [h.clrf hb hf]; decide

theorem StatusInv.reset (s : State) : StatusInv (applyReset s) :=
  ⟨nofun, nofun, nofun, fun _ => ⟨rfl, rfl, rfl⟩, nofun⟩

/-- A fault just taken has one of the six codes of R112. -/
theorem StatusInv.fault_taken (c : Cause) (i j : Word) (s : State) : StatusInv (takeFault c i j s) where
  busy _ := rfl
  fault _ := rfl
  clrf := nofun
  noRecord := nofun
  record _ := by
    rw [takeFault_fcode]
    cases c <;> decide

theorem StatusInv.completed {s : State} (hf : s.stFault = false) (hr : s.fcode = 0 ∧ s.finfo0 = 0 ∧ s.finfo1 = 0) :
    StatusInv (completeOk s) where
  busy := nofun
  fault h := absurd (hf.symm.trans h) nofun
  clrf := nofun
  noRecord _ := hr
  record h := absurd (hf.symm.trans h) nofun

/-- What may be issued keeps R30 item 7: while a fault is recorded, only CLRF's word (R64, R120). -/
theorem StatusInv.issued {s : State} (h : StatusInv s) {w : Word} (hi : issueAllowed w s = true) :
    StatusInv (issue w s) where
  busy _ := rfl
  fault _ := rfl
  clrf _ hf := by
    rw [issue_stFault] at hf
    simp only [issueAllowed, hf, Bool.and_eq_true, Bool.or_eq_true, beq_iff_eq, Bool.not_true] at hi
    exact hi.2.resolve_left nofun
  noRecord := h.noRecord
  record := h.record

theorem StatusInv.busWrite {s : State} (h : StatusInv s) (a : Addr) (v : Word) : StatusInv (busWrite a v s) := by
  rcases busWrite_cases a v s with ht | ⟨-, ⟨hi, ht⟩ | ht | ⟨-, ht⟩ | ⟨i, -, ht⟩ | ⟨k, -, ht⟩⟩ <;> rw [ht]
  case inr.inl => exact h.issued hi
  all_goals exact { h with }

theorem StatusInv.complete {s t : State} (h : StatusInv s) (hb : s.stBusy = true)
    (hc : Machine.complete s = .next t) : StatusInv t := by
  rcases complete_next hc with ⟨i, hd, he⟩ | ⟨-, rfl⟩
  · rcases exec_status he with ⟨c, i₀, i₁, u, rfl⟩ | ⟨hi, u, rfl, hf, hcode, h0, h1⟩ | ⟨-, rfl⟩
    · exact .fault_taken c i₀ i₁ u
    · have hs : s.stFault = false := by
        by_contra hs
        rw [h.decode_of_fault hb (by simpa using hs)] at hd
        exact hi (Option.some.inj hd).symm
      exact .completed (hf.trans hs) (by rw [hcode, h0, h1]; exact h.noRecord hs)
    · exact .completed rfl ⟨rfl, rfl, rfl⟩
  · exact .fault_taken _ _ _ _

theorem StatusInv.step {s t : State} (h : StatusInv s) (hs : Machine.step s = .next t) : StatusInv t := by
  rcases step_next hs with ⟨a, rest, -, rfl⟩ | ⟨a, v, rest, -, rfl⟩ | ⟨rest, -, rfl⟩ | ⟨-, -, rfl⟩ | ⟨-, hb, hc⟩
  · exact { h with }
  · exact StatusInv.busWrite (s := { s with agenda := rest }) { h with } a v
  · exact .reset _
  · exact { h with }
  · exact StatusInv.complete (s := popAgenda s) { h with } hb hc

/-- Settles O4: a write issues only what R120 allows, and every completion ends in a fault taken, in a completion without a
fault recorded before it, or in CLRF's. -/
theorem stepKeepsFlagsAndFaultRecord : Obligations.StepKeepsFlagsAndFaultRecord :=
  fun _ _ h hs => h.step hs

/-- Settles O21: reads, writes and idle instants leave the record, and what completes while a fault is recorded is CLRF. -/
theorem faultEndsOnlyByClrfOrReset : Obligations.FaultEndsOnlyByClrfOrReset := by
  intro s t h hf hs
  rcases step_next hs with ⟨a, rest, -, rfl⟩ | ⟨a, v, rest, -, rfl⟩ | ⟨rest, ha, -⟩ | ⟨-, -, rfl⟩ | ⟨he, hb, -⟩
  · exact .inl ⟨hf, rfl, rfl, rfl⟩
  · obtain ⟨h1, hrec⟩ := busWrite_sameFaultRecord a v { s with agenda := rest }
    exact .inl ⟨h1.trans hf, hrec⟩
  · exact .inr (.inr ⟨rest, ha⟩)
  · exact .inl ⟨hf, rfl, rfl, rfl⟩
  · exact .inr (.inl ⟨he, hb, h.clrf hb hf⟩)

/-! ### What a step can do to the tables -/

/-- The part of a state that the invariants of R30 items 1 to 6 speak of: the flags, `CMDLAT`, `CTRL`, the fault record and
the model's own fields are wiped. -/
def dataOf (s : State) : State :=
  { s with
    stBusy := false, stDone := false, stFault := false, stDrop := false, cmdlat := 0, slz := false
    fcode := 0, finfo0 := 0, finfo1 := 0, agenda := [], reads := [], freeIx := 0 }

/-- The changes one act can make to the tables and their registers: those of reset, of the commands that complete without a
fault, and of the host's writes (R72, R47, R48, R128). -/
inductive Change (s : State) : State → Prop where
  | none : Change s s
  | reset : Change s (applyReset s)
  | clear : Change s (emptyTables s)
  | freq : Change s (putFreq (countSymbols (readText s)) s)
  | build (hne : s.freq ≠ []) : Change s (putTree (buildTree s.freq) s.freq.length s)
  | derive {vs : List Visit} (hn : s.nnode ≠ 0) (hw : walk s.node s.node.length s.root.toNat [] = some vs)
      (hfit : ∀ v ∈ applySlz s vs, v.path.length ≤ s.cfg.lenMax) :
      Change s (putScode (standardTable (applySlz s vs)) s.nleaf s)
  | canon (hfit : codesFit (canonicalCodes s.scode) = true) :
      Change s (putCcode (tableOf (canonicalCodes s.scode)) (BitVec.ofNat 17 (canonicalCodes s.scode).length) s)
  | encode {tsel : TableSel} {b : BitString} (hb : encodeText (selectTable tsel s) 0 (readText s) = .bits b) :
      Change s (putOut b s)
  | tlen {v : Word} (hv : v.toNat ≤ s.cfg.textMax) : Change s (putTlen (v.setWidth 21) s)
  | txtCell {i : Nat} (sym : Symbol) (hi : i < s.cfg.textMax) : Change s (putTxtCell i sym s)
  | freqCell {k : Nat} (c : Count) (hk : k < numSymbols) : Change s (putFreqCell k c s)

theorem exec_change {i : Instr} {s t : State} (h : exec i s = .next t) :
    ∃ u, Change s u ∧ dataOf t = dataOf u := by
  rcases exec_next h with ⟨-, rfl⟩ | ⟨-, rfl⟩ | ⟨-, rfl⟩ | ⟨-, h⟩ | ⟨-, h⟩ | ⟨-, h⟩ | ⟨tsel, -, h⟩ | ⟨-, rfl⟩
  · exact ⟨_, .none, rfl⟩
  · exact ⟨_, .clear, rfl⟩
  · exact ⟨_, .freq, rfl⟩
  · rcases execBuild_next h with ⟨-, rfl⟩ | ⟨hne, rfl⟩
    · exact ⟨_, .none, rfl⟩
    · exact ⟨_, .build hne, rfl⟩
  · rcases execDerive_next h with ⟨-, rfl⟩ | ⟨hn, vs, hw, rfl⟩
    · exact ⟨_, .none, rfl⟩
    · rcases deriveFrom_cases (applySlz s vs) s with ⟨v, -, hd⟩ | ⟨hfit, hd⟩ <;> rw [hd]
      · exact ⟨_, .none, rfl⟩
      · exact ⟨_, .derive hn hw hfit, rfl⟩
  · rcases execCanon_next h with ⟨-, rfl⟩ | ⟨-, hfit, rfl⟩
    · exact ⟨_, .none, rfl⟩
    · exact ⟨_, .canon hfit, rfl⟩
  · rcases execEncode_next h with ⟨_, _, -, rfl⟩ | ⟨b, hb, rfl⟩
    · exact ⟨_, .none, rfl⟩
    · exact ⟨_, .encode hb, rfl⟩
  · exact ⟨_, .none, rfl⟩

theorem busWrite_change (a : Addr) (v : Word) (s : State) :
    ∃ u, Change s u ∧ dataOf (busWrite a v s) = dataOf u := by
  rcases busWrite_cases a v s with h | ⟨-, ⟨-, h⟩ | h | ⟨hv, h⟩ | ⟨i, hi, h⟩ | ⟨k, hk, h⟩⟩ <;> rw [h]
  · exact ⟨_, .none, rfl⟩
  · exact ⟨_, .none, rfl⟩
  · exact ⟨_, .none, rfl⟩
  · exact ⟨_, .tlen hv, rfl⟩
  · exact ⟨_, .txtCell _ (locate_txt hi), rfl⟩
  · exact ⟨_, .freqCell _ (locate_freq hk), rfl⟩

/-- All that one step does to the tables: one change, from the state with the act taken off the agenda. -/
theorem step_change {s t : State} (h : step s = .next t) :
    ∃ s' u, dataOf s' = dataOf s ∧ Change s' u ∧ dataOf t = dataOf u := by
  rcases step_next h with ⟨a, rest, -, rfl⟩ | ⟨a, v, rest, -, rfl⟩ | ⟨rest, -, rfl⟩ | ⟨-, -, rfl⟩ | ⟨-, -, hc⟩
  · exact ⟨s, s, rfl, .none, rfl⟩
  · obtain ⟨u, hu, ht⟩ := busWrite_change a v { s with agenda := rest }
    exact ⟨{ s with agenda := rest }, u, rfl, hu, ht⟩
  · exact ⟨{ s with agenda := rest }, _, rfl, .reset, rfl⟩
  · exact ⟨s, s, rfl, .none, rfl⟩
  · rcases complete_next hc with ⟨i, -, he⟩ | ⟨-, rfl⟩
    · obtain ⟨u, hu, ht⟩ := exec_change he
      exact ⟨popAgenda s, u, rfl, hu, ht⟩
    · exact ⟨s, s, rfl, .none, rfl⟩

/-- A predicate on the tables that every change keeps is kept by every step. -/
theorem step_keeps {P : State → Prop} (hP : ∀ s, P (dataOf s) ↔ P s) (hc : ∀ s u, P s → Change s u → P u) {s t : State}
    (hs : P s) (h : step s = .next t) : P t := by
  obtain ⟨s', u, hs', hu, ht⟩ := step_change h
  have hPs' : P s' := (hP s').1 (hs' ▸ (hP s).2 hs)
  exact (hP t).1 (ht ▸ (hP u).2 (hc s' u hPs' hu))

/-! ### Canonical memories -/

theorem TextTable.empty (textMax : Nat) : TextTable textMax [] := ⟨List.Pairwise.nil, by simp⟩

theorem TextTable.set {textMax : Nat} {m : Memory Symbol} (h : TextTable textMax m) {i : Nat} (hi : i < textMax)
    (sym : Symbol) : TextTable textMax (setCell m i sym) where
  wf := setCell_wf h.wf i sym
  cell e he := by
    rcases mem_setCell he with rfl | he
    · exact hi
    · exact h.cell e he

/-- The entry of a visited leaf in the standard table (R88). -/
theorem mem_standardTable {vs : List Visit} {e : Nat × Code} (he : e ∈ standardTable vs) :
    ∃ v ∈ vs, e = (v.sym.toNat, codeOf v.path) := by
  obtain ⟨v, hv, rfl⟩ := List.mem_map.1 (mem_of_mem_tableOf he)
  exact ⟨v, hv, rfl⟩

theorem standardTable_codeTable (vs : List Visit) : CodeTable (standardTable vs) where
  wf := tableOf_wf _
  sym e he := by
    obtain ⟨v, -, rfl⟩ := mem_standardTable he
    exact v.sym.isLt

theorem canonicalTable_codeTable {m : Memory Code} (h : CodeTable m) : CodeTable (tableOf (canonicalCodes m)) where
  wf := tableOf_wf _
  sym e he := by
    obtain ⟨c, hc, -⟩ := mem_canonicalCodes (mem_of_mem_tableOf he)
    exact h.sym (e.1, c) hc

theorem MemoryInv.reset (s : State) : MemoryInv (applyReset s) :=
  ⟨.empty _, .empty, .empty, .empty⟩

theorem MemoryInv.change {s u : State} (h : MemoryInv s) (hc : Change s u) : MemoryInv u := by
  cases hc with
  | none => exact h
  | reset => exact .reset s
  | clear => exact ⟨h.txt, .empty, .empty, .empty⟩
  | freq => exact { h with freq := countSymbols_freqTable _ }
  | derive => exact { h with scode := standardTable_codeTable _ }
  | canon => exact { h with ccode := canonicalTable_codeTable h.scode }
  | txtCell sym hi => exact { h with txt := h.txt.set hi sym }
  | freqCell c hk => exact { h with freq := h.freq.set hk c }
  | build | encode | tlen => exact { h with }

theorem memoryInv_dataOf (s : State) : MemoryInv (dataOf s) ↔ MemoryInv s :=
  ⟨fun h => { h with }, fun h => { h with }⟩

/-- Settles O5: every change makes or keeps canonical memories. -/
theorem stepKeepsMemoriesCanonical : Obligations.StepKeepsMemoriesCanonical :=
  fun _ _ => step_keeps memoryInv_dataOf fun _ _ => MemoryInv.change

/-! ### Bounds (R30 items 1, 4 and 6) -/

theorem CodesFit.empty (lenMax : Nat) : CodesFit lenMax [] := by simp [CodesFit]

theorem standardTable_fit {M : Nat} {vs : List Visit} (h : ∀ v ∈ vs, v.path.length ≤ M) :
    CodesFit M (standardTable vs) := by
  intro e he
  obtain ⟨v, hv, rfl⟩ := mem_standardTable he
  exact ⟨h v hv, bitsVal_lt v.path⟩

theorem canonicalTable_fit {M : Nat} {m : Memory Code} (h : CodesFit M m) (hfit : codesFit (canonicalCodes m) = true) :
    CodesFit M (tableOf (canonicalCodes m)) := by
  intro e he
  have hem := mem_of_mem_tableOf he
  obtain ⟨c, hc, hlen⟩ := mem_canonicalCodes hem
  exact ⟨hlen ▸ (h _ hc).1, codesFit_mem hfit hem⟩

theorem BoundsInv.selectTable_fit {s : State} (h : BoundsInv s) (tsel : TableSel) :
    CodesFit s.cfg.lenMax (Machine.selectTable tsel s) := by
  cases tsel with
  | standard => exact h.scode
  | canonical => exact h.ccode

/-- R107: what ENCODE emits is within `OUT_MAX`. -/
theorem BoundsInv.encoded_le {s : State} (h : BoundsInv s) {tsel : TableSel} {b : BitString}
    (hb : encodeText (Machine.selectTable tsel s) 0 (readText s) = .bits b) : b.length ≤ s.cfg.outMax :=
  calc b.length
    _ ≤ (readText s).length * s.cfg.lenMax := encodeText_length_le (fun e he => (h.selectTable_fit tsel e he).1) hb
    _ ≤ s.cfg.textMax * s.cfg.lenMax := Nat.mul_le_mul_right _ (by rw [readText_length]; exact h.tlen)

/-- R7: `OUT_MAX` fits the 27 bits of `OUTLEN`. -/
theorem outMax_lt_of_wf {cfg : Config} (h : cfg.wf) : cfg.outMax < 2 ^ 27 := by
  obtain ⟨-, htext, -, hlen⟩ := h
  have : cfg.outMax ≤ 1048576 * 64 := Nat.mul_le_mul htext hlen
  omega

theorem BoundsInv.reset {s : State} (h : s.cfg.wf) : BoundsInv (applyReset s) :=
  ⟨h, Nat.zero_le _, .empty _, .empty _, rfl, Nat.zero_le _⟩

theorem BoundsInv.change {s u : State} (h : BoundsInv s) (hc : Change s u) : BoundsInv u := by
  cases hc with
  | none => exact h
  | reset => exact .reset h.cfg
  | clear => exact ⟨h.cfg, h.tlen, .empty _, .empty _, rfl, Nat.zero_le _⟩
  | derive _ _ hfit => exact { h with scode := standardTable_fit hfit }
  | canon hfit => exact { h with ccode := canonicalTable_fit h.scode hfit }
  | @encode tsel b hb =>
    have hle := h.encoded_le hb
    refine { h with out := hle, outlen := ?_ }
    rw [putOut_outlen, BitVec.toNat_ofNat]
    exact Nat.mod_eq_of_lt (Nat.lt_of_le_of_lt hle (outMax_lt_of_wf h.cfg))
  | @tlen v hv =>
    refine { h with tlen := ?_ }
    rw [putTlen_tlen, BitVec.toNat_setWidth]
    exact (Nat.mod_le _ _).trans hv
  | freq | build | txtCell | freqCell => exact { h with }

theorem boundsInv_dataOf (s : State) : BoundsInv (dataOf s) ↔ BoundsInv s :=
  ⟨fun h => { h with }, fun h => { h with }⟩

/-- Settles O6: the codes DERIVE and CANON record fit, and ENCODE emits at most one longest code per symbol of the text. -/
theorem stepKeepsBounds : Obligations.StepKeepsBounds :=
  fun _ _ => step_keeps boundsInv_dataOf fun _ _ => BoundsInv.change

/-! ### The tree (R30 item 2) -/

theorem TreeState.none {s : State} (hl : s.nleaf = 0) (hn : s.nnode = 0) (hr : s.root = 0) (h : s.node = []) :
    TreeState s := .inl ⟨hl, hn, hr, h⟩

/-- With a tree of R21 of `n` leaves, the registers BUILD writes are those of R20. -/
theorem TreeState.putTree {nodes : List Node} {n : Nat} (h : TreeInv nodes n) (s : State) :
    TreeState (putTree nodes n s) := by
  have hle := h.le
  have small : ∀ k, k < 131072 → (BitVec.ofNat 17 k).toNat = k := fun k hk => by
    rw [BitVec.toNat_ofNat, Nat.mod_eq_of_lt hk]
  refine .inr ?_
  rw [putTree_nleaf, putTree_nnode, putTree_root, small n (by omega), small _ (by omega), small _ (by omega)]
  exact ⟨h, rfl, rfl⟩

theorem TreeState.change {s u : State} (hm : MemoryInv s) (h : TreeState s) (hc : Change s u) : TreeState u := by
  cases hc with
  | none => exact h
  | reset | clear => exact .none rfl rfl rfl rfl
  | build hne => exact .putTree (buildTree_treeInv hm.freq hne) s
  | freq | derive | canon | encode | tlen | txtCell | freqCell => exact h

/-- Settles O7: only reset, CLEAR and BUILD change the tree, and BUILD makes one of R21 from a canonical table. -/
theorem stepKeepsTree : Obligations.StepKeepsTree := by
  intro s t hm h hs
  refine (step_keeps (P := fun s => MemoryInv s ∧ TreeState s) (fun s => ?_) (fun s u hs hc => ?_) ⟨hm, h⟩ hs).2
  · exact and_congr (memoryInv_dataOf s) Iff.rfl
  · exact ⟨hs.1.change hc, hs.2.change hs.1 hc⟩

/-! ### The codes DERIVE records (R93, R94) -/

/-- The root of a machine that holds a tree (R20). -/
theorem TreeState.treeInv {s : State} (h : TreeState s) (hn : s.nnode ≠ 0) :
    TreeInv s.node s.nleaf.toNat ∧ s.root.toNat = 2 * s.nleaf.toNat - 2 := by
  rcases h with ⟨-, h0, -⟩ | ⟨hT, -, hroot⟩
  · exact absurd h0 hn
  · exact ⟨hT, hroot⟩

theorem walk_sym {nodes : List Node} {fuel k : Nat} {p : BitString} {vs : List Visit}
    (hw : walk nodes fuel k p = some vs) {v : Visit} (hv : v ∈ vs) : symOf nodes v.ix = v.sym.toNat := by
  obtain ⟨f, hf⟩ := walk_entry hw v hv
  simp [symOf, hf, nodeSym]

/-- The leaves of a tree have different symbols. -/
theorem TreeInv.symOf_inj {nodes : List Node} {n i j : Nat} (h : TreeInv nodes n) (hi : i < n) (hj : j < n)
    (he : symOf nodes i = symOf nodes j) : i = j := by
  rcases Nat.lt_trichotomy i j with hlt | heq | hlt
  · exact absurd he (Nat.ne_of_lt (h.symOf_lt hlt hj))
  · exact heq
  · exact absurd he.symm (Nat.ne_of_lt (h.symOf_lt hlt hi))

/-- Visits of different leaves of a tree are of different symbols. -/
theorem TreeInv.visits_sym_nodup {nodes : List Node} {n fuel k : Nat} {p : BitString} {vs : List Visit}
    (h : TreeInv nodes n) (hw : walk nodes fuel k p = some vs) (hp : (vs.map Visit.ix).Perm (List.range n)) :
    (vs.map Visit.sym).Nodup := by
  have hix : (vs.map Visit.ix).Nodup := hp.nodup_iff.2 List.nodup_range
  have hlt : ∀ v ∈ vs, v.ix < n := fun v hv => List.mem_range.1 (hp.mem_iff.1 (List.mem_map_of_mem hv))
  rw [List.Nodup, List.pairwise_map] at hix ⊢
  refine hix.imp_of_mem fun {u v} hu hv hne hsym => hne ?_
  exact h.symOf_inj (hlt u hu) (hlt v hv) (by rw [walk_sym hw hu, walk_sym hw hv, hsym])

/-- What the policy of R90 can do: nothing, or it gives the only leaf the code "0". -/
theorem applySlz_cases (s : State) (vs : List Visit) :
    applySlz s vs = vs ∨ (s.nleaf.toNat = 1 ∧ applySlz s vs = vs.map (fun v => { v with path := [false] })) := by
  unfold applySlz
  split
  · next h => exact .inr ⟨by simp_all, rfl⟩
  · exact .inl rfl

theorem applySlz_map_sym (s : State) (vs : List Visit) : (applySlz s vs).map Visit.sym = vs.map Visit.sym := by
  rcases applySlz_cases s vs with h | ⟨-, h⟩ <;> simp [h, Function.comp_def]

theorem applySlz_length (s : State) (vs : List Visit) : (applySlz s vs).length = vs.length := by
  simpa using congrArg List.length (applySlz_map_sym s vs)

/-- With different symbols the standard table has one entry per visit. -/
theorem standardTable_perm {vs : List Visit} (h : (vs.map Visit.sym).Nodup) :
    (standardTable vs).Perm (vs.map (fun v => (v.sym.toNat, codeOf v.path))) := by
  refine tableOf_perm ?_
  have := h.map (f := BitVec.toNat) fun _ _ => BitVec.eq_of_toNat_eq
  simpa [Function.comp_def] using this

theorem standardTable_kraft {vs : List Visit} (h : (vs.map Visit.sym).Nodup) (M : Nat) :
    kraftSum M (standardTable vs) = (vs.map (fun v => 2 ^ (M - v.path.length))).sum := by
  rw [kraftSum, ((standardTable_perm h).map _).sum_eq, List.map_map]
  rfl

/-- R93, from the paths to the table. -/
theorem standardTable_prefixFree {vs : List Visit}
    (h : vs.Pairwise (fun u v => ¬ u.path <+: v.path ∧ ¬ v.path <+: u.path)) : PrefixFree (standardTable vs) := by
  intro a b c d hab hc hd
  obtain ⟨u, hu, hcu⟩ := mem_standardTable (mem_of_cellAt hc)
  obtain ⟨v, hv, hdv⟩ := mem_standardTable (mem_of_cellAt hd)
  cases hcu
  cases hdv
  have hne : u ≠ v := fun he => hab (he ▸ rfl)
  have symm : Std.Symm (fun u v : Visit => ¬ u.path <+: v.path ∧ ¬ v.path <+: u.path) := ⟨fun _ _ hxy => hxy.symm⟩
  simpa [CodesApart] using h.forall hu hv hne

section Derive

variable {s : State} {vs : List Visit} (h : TreeState s) (hn : s.nnode ≠ 0)
  (hw : walk s.node s.node.length s.root.toNat [] = some vs)

include h hn hw

/-- DERIVE's walk visits every leaf once (R88). -/
theorem derive_visits_perm : (vs.map Visit.ix).Perm (List.range s.nleaf.toNat) := by
  obtain ⟨hT, hroot⟩ := h.treeInv hn
  have hpos := hT.pos
  rw [hroot] at hw
  exact hT.walk_perm (by rw [hT.length]; omega) hw

theorem derive_visits_length : (applySlz s vs).length = s.nleaf.toNat := by
  have := (derive_visits_perm h hn hw).length_eq
  rwa [List.length_map, List.length_range, ← applySlz_length s] at this

theorem derive_visits_sym_nodup : ((applySlz s vs).map Visit.sym).Nodup := by
  rw [applySlz_map_sym]
  exact (h.treeInv hn).1.visits_sym_nodup hw (derive_visits_perm h hn hw)

/-- The only visit of a tree of one leaf. -/
theorem derive_visits_singleton (h1 : s.nleaf.toNat = 1) : ∃ v, vs = [v] := by
  have := derive_visits_length h hn hw
  rw [applySlz_length, h1] at this
  exact List.length_eq_one_iff.1 this

/-- R88: one entry per leaf. -/
theorem derive_length : (standardTable (applySlz s vs)).length = s.nleaf.toNat := by
  rw [(standardTable_perm (derive_visits_sym_nodup h hn hw)).length_eq, List.length_map, derive_visits_length h hn hw]

/-- R93: the standard table DERIVE makes. The policy of R90 changes only the code of a leaf that has no other beside it. -/
theorem derive_prefixFree : PrefixFree (standardTable (applySlz s vs)) := by
  refine standardTable_prefixFree ?_
  rcases applySlz_cases s vs with he | ⟨h1, he⟩ <;> rw [he]
  · exact walk_prefixFree hw
  · obtain ⟨v, rfl⟩ := derive_visits_singleton h hn hw h1
    exact List.pairwise_singleton _ _

/-- R94: the Kraft sum of the standard table DERIVE makes is at most 1. -/
theorem derive_kraft_le {M : Nat} (hfit : ∀ v ∈ applySlz s vs, v.path.length ≤ M) :
    kraftSum M (standardTable (applySlz s vs)) ≤ 2 ^ M := by
  rw [standardTable_kraft (derive_visits_sym_nodup h hn hw)]
  rcases applySlz_cases s vs with he | ⟨h1, he⟩
  · rw [he] at hfit ⊢
    exact (walk_kraft hw hfit).le
  · obtain ⟨v, rfl⟩ := derive_visits_singleton h hn hw h1
    simpa [he] using Nat.pow_le_pow_right (by decide) (Nat.sub_le M 1)

end Derive

/-! ### The codes CANON records (R101, R104) -/

/-- R101: CANON keeps the number of entries. -/
theorem canonicalTable_length {m : Memory Code} (h : Memory.wf m) : (tableOf (canonicalCodes m)).length = m.length := by
  rw [(tableOf_perm (canonicalCodes_nodup h)).length_eq, canonicalCodes_length]

/-- R104: of two codes the one that comes first in R97's order is no initial part of the other, nor the other of it. -/
theorem canonicalTable_prefixFree {m : Memory Code} (h : Memory.wf m) (hfit : codesFit (canonicalCodes m) = true) :
    PrefixFree (tableOf (canonicalCodes m)) := by
  have inOrder : ∀ {a b : Nat} {c d : Code}, (a, c) ∈ canonicalCodes m → (b, d) ∈ canonicalCodes m →
      (c.len < d.len ∨ (c.len = d.len ∧ a < b)) → CodesApart c d := fun hc hd hlt =>
    codesApart_of_mono (codesFit_mem hfit hc) (codesFit_mem hfit hd) (by omega) (canonicalCodes_ineq h hc hd hlt)
  intro a b c d hab hc hd
  have hc := mem_of_mem_tableOf (mem_of_cellAt hc)
  have hd := mem_of_mem_tableOf (mem_of_cellAt hd)
  by_cases hlt : c.len < d.len ∨ (c.len = d.len ∧ a < b)
  · exact inOrder hc hd hlt
  · exact (inOrder hd hc (by omega)).symm

/-! ### The machine invariant -/

/-- `MachineInv` but for the flags and the fault record, which a change of the tables does not determine. -/
structure DataInv (s : State) : Prop where
  memory : MemoryInv s
  bounds : BoundsInv s
  tree : TreeState s
  scnt : s.scnt.toNat = s.scode.length
  ccnt : s.ccnt.toNat = s.ccode.length
  sprefix : PrefixFree s.scode
  cprefix : PrefixFree s.ccode
  kraft : kraftSum s.cfg.lenMax s.scode ≤ 2 ^ s.cfg.lenMax

theorem machineInv_iff (s : State) : MachineInv s ↔ StatusInv s ∧ DataInv s :=
  ⟨fun h => ⟨h.status, { h with }⟩, fun ⟨hs, hd⟩ => { hd with status := hs }⟩

theorem PrefixFree.empty : PrefixFree [] := nofun

theorem kraftSum_empty_le (M : Nat) : kraftSum M [] ≤ 2 ^ M := Nat.zero_le _

theorem DataInv.reset {s : State} (h : s.cfg.wf) : DataInv (applyReset s) :=
  ⟨.reset s, .reset h, .none rfl rfl rfl rfl, rfl, rfl, .empty, .empty, kraftSum_empty_le _⟩

theorem DataInv.change {s u : State} (h : DataInv s) (hc : Change s u) : DataInv u := by
  have hm := h.memory.change hc
  have hb := h.bounds.change hc
  have ht := h.tree.change h.memory hc
  cases hc with
  | none => exact h
  | reset => exact .reset h.bounds.cfg
  | clear => exact ⟨hm, hb, ht, rfl, rfl, .empty, .empty, kraftSum_empty_le _⟩
  | derive hn hw hfit =>
    exact { h with
      memory := hm, bounds := hb, tree := ht
      scnt := (derive_length h.tree hn hw).symm
      sprefix := derive_prefixFree h.tree hn hw
      kraft := derive_kraft_le h.tree hn hw hfit }
  | canon hfit =>
    have hwf := h.memory.scode.wf
    have hle := length_le_numSymbols hwf h.memory.scode.sym
    refine { h with memory := hm, bounds := hb, tree := ht, ccnt := ?_, cprefix := canonicalTable_prefixFree hwf hfit }
    rw [putCcode_ccnt, putCcode_ccode, canonicalTable_length hwf, canonicalCodes_length, BitVec.toNat_ofNat]
    exact Nat.mod_eq_of_lt (Nat.lt_of_le_of_lt hle (by decide))
  | freq | build | encode | tlen | txtCell | freqCell => exact { h with memory := hm, bounds := hb, tree := ht }

theorem dataInv_dataOf (s : State) : DataInv (dataOf s) ↔ DataInv s := by
  constructor <;> intro h
  · exact { h with memory := (memoryInv_dataOf s).1 h.memory, bounds := (boundsInv_dataOf s).1 h.bounds }
  · exact { h with memory := (memoryInv_dataOf s).2 h.memory, bounds := (boundsInv_dataOf s).2 h.bounds }

theorem MachineInv.step {s t : State} (h : MachineInv s) (hs : Machine.step s = .next t) : MachineInv t := by
  obtain ⟨hst, hd⟩ := (machineInv_iff s).1 h
  exact (machineInv_iff t).2 ⟨hst.step hs, step_keeps dataInv_dataOf (fun _ _ => DataInv.change) hd hs⟩

theorem MachineInv.reset {s : State} (h : s.cfg.wf) : MachineInv (applyReset s) :=
  (machineInv_iff _).2 ⟨.reset s, .reset h⟩

/-- Settles O8: the flags by `StatusInv.step`, the rest by what each change does to the tables. -/
theorem stepKeepsMachineInvariant : Obligations.StepKeepsMachineInvariant :=
  fun _ _ h hs => h.step hs

/-- Settles O3: the state is what a reset event makes of itself. -/
theorem resetMeetsMachineInvariant : Obligations.ResetMeetsMachineInvariant :=
  fun cfg agenda h => MachineInv.reset (s := { State.reset with cfg := cfg, agenda := agenda }) h

/-- What every step keeps holds of every state a run reaches. -/
theorem run_keeps {M : Host.Core} {P : M.State → Prop} (hP : ∀ s t, P s → M.step s = .next t → P t) {k : Nat}
    {s t : M.State} (hs : P s) (h : Host.Core.run M k s = .next t) : P t := by
  induction k generalizing s with
  | zero => exact Host.Outcome.next.inj h ▸ hs
  | succ k ih =>
    obtain ⟨s', hs', hr⟩ := run_succ_next h
    exact ih (hP s s' hs hs') hr

/-- Settles O9: the invariant holds at reset and every step keeps it. -/
theorem reachableStatesMeetMachineInvariant : Obligations.ReachableStatesMeetMachineInvariant :=
  fun cfg agenda _ _ hcfg h =>
    run_keeps (M := Sys2Proof.core) stepKeepsMachineInvariant (resetMeetsMachineInvariant cfg agenda hcfg) h

/-! ### Reset and the text -/

/-- Settles O1: the values of R33, read off the reset state, and an idle machine with nothing to do stays as it is. -/
theorem resetLeavesEverythingEmpty : Obligations.ResetLeavesEverythingEmpty := by
  have hstep : step State.reset = .next State.reset := rfl
  exact ⟨⟨rfl, rfl, rfl, rfl⟩, rfl, rfl, rfl, ⟨rfl, rfl, rfl⟩, ⟨rfl, rfl, rfl, rfl⟩, fun _ => rfl, fun _ => ⟨rfl, rfl⟩,
    rfl, rfl, rfl, rfl, fun _ => rfl, hstep⟩

/-- A written cell is read as its symbol, whichever free value would stand in its place. -/
theorem readTxt_written {m : Memory Symbol} {i : Nat} {sym : Symbol} (h : cellAt m i = some sym) (n : Nat) :
    readTxt m n i = sym := by simp [readTxt, h]

/-- Settles O37: the text is read position by position. -/
theorem textReadsWrittenCells : Obligations.TextReadsWrittenCells := by
  refine fun s => ⟨readText_length s, fun i sym hi hc => ?_⟩
  rw [readText_getElem?, if_pos hi, readTxt_written hc]

end Sys2Proof.Machine
end

section
/-! The host bus (20_memory.md R38 to R48): what a read of each window returns while idle, the words it is made of, and
which writes are dropped, each said once of the address; then the statements about the host's transactions. -/

namespace Sys2Proof.Machine

theorem textMax_le_of_wf {cfg : Config} (h : cfg.wf) : cfg.textMax ≤ 1048576 := h.2.1

/-! ### Reads while idle -/

@[simp] theorem memRead_status (s : State) : memRead s 0x000001#23 = statusWord s := if_pos rfl

/-- A read of the word address `n`, while idle, returns the view of the location there (R39). -/
theorem memRead_at {s : State} (hb : s.stBusy = false) {n : Nat} (hn : n < 8388608) (h1 : n ≠ 1) {l : Location}
    (hl : locate s.cfg (BitVec.ofNat 23 n) = l) : memRead s (BitVec.ofNat 23 n) = view s l := by
  rw [memRead_idle hb (addr_ne_status hn h1), hl]

theorem memRead_reg_at {s : State} (hb : s.stBusy = false) {n : Nat} (hn : n < 16) (h1 : n ≠ 1) :
    memRead s (BitVec.ofNat 23 n) = regView s (regAt n) :=
  memRead_at hb (by omega) h1 (locate_reg_at s.cfg hn)

/-- A register of up to 32 bits is read zero-extended (R40). -/
theorem toNat_memRead_reg_at {s : State} (hb : s.stBusy = false) {n w : Nat} {x : BitVec w} (hn : n < 16) (h1 : n ≠ 1)
    (hw : w ≤ 32) (hx : regView s (regAt n) = x.setWidth 32) : (memRead s (BitVec.ofNat 23 n)).toNat = x.toNat := by
  rw [memRead_reg_at hb hn h1, hx, toNat_setWidth32 x hw]

theorem memRead_freq_at {s : State} (hb : s.stBusy = false) {k : Nat} (hk : k < 65536) :
    memRead s (BitVec.ofNat 23 (0x010000 + k)) = freqAt s.freq k :=
  memRead_at hb (by omega) (by omega) (locate_freq_at s.cfg hk)

/-- A `TXT` cell is read as a symbol, zero-extended (R45). -/
theorem toNat_memRead_txt_at {s : State} (hc : s.cfg.wf) (hb : s.stBusy = false) {i : Nat} (hi : i < s.cfg.textMax) :
    (memRead s (BitVec.ofNat 23 (0x200000 + i))).toNat = (readTxt s.txt s.freeIx i).toNat := by
  have hmax : s.cfg.textMax ≤ 1048576 := textMax_le_of_wf hc
  rw [memRead_at hb (by omega) (by omega) (locate_txt_at hc hi)]
  exact toNat_setWidth32 _ (by decide)

theorem memRead_txt_past {s : State} (hb : s.stBusy = false) {i : Nat} (hi : s.cfg.textMax ≤ i) (hlt : i < 0x100000) :
    memRead s (BitVec.ofNat 23 (0x200000 + i)) = 0 :=
  memRead_at hb (by omega) (by omega) (locate_txt_past s.cfg hi hlt)

/-- Both code tables are read alike, each from its own base (R42). -/
theorem memRead_code_at {s : State} (hb : s.stBusy = false) {base : Nat} {table : Memory Code}
    (ht : (base = 0x040000 ∧ table = s.scode) ∨ (base = 0x080000 ∧ table = s.ccode)) {k w : Nat} (hk : k < 65536)
    (hw : w < 4) : memRead s (BitVec.ofNat 23 (base + 4 * k + w)) = codeView (cellAt table k) w := by
  rcases ht with ⟨rfl, rfl⟩ | ⟨rfl, rfl⟩
  · exact memRead_at hb (by omega) (by omega) (locate_scode_at s.cfg hk hw)
  · exact memRead_at hb (by omega) (by omega) (locate_ccode_at s.cfg hk hw)

theorem memRead_node_at {s : State} (hb : s.stBusy = false) {k w : Nat} (hk : k < 131072) (hw : w < 8) :
    memRead s (BitVec.ofNat 23 (0x100000 + 8 * k + w)) = nodeView (nodeEntry s k) w :=
  memRead_at hb (by omega) (by omega) (locate_node_at s.cfg hk hw)

theorem memRead_out_at {s : State} (hb : s.stBusy = false) {j : Nat} (hj : j < 2097152) :
    memRead s (BitVec.ofNat 23 (0x400000 + j)) = outView s j :=
  memRead_at hb (by omega) (by omega) (locate_out_at s.cfg hj)

/-- The acts to come are nothing the host can read. -/
theorem view_withAgenda (s : State) (rest : List Event) (l : Location) : view { s with agenda := rest } l = view s l := by
  cases l with
  | reg r => cases r <;> rfl
  | freq | scode | ccode | node | txt | out | unmapped => rfl

/-! ### The words the host reads -/

/-- A word put together from two parts: its value. -/
theorem toNat_append_eq {m n : Nat} (x : BitVec m) (y : BitVec n) : (x ++ y).toNat = 2 ^ n * x.toNat + y.toNat := by
  rw [BitVec.toNat_append, ← Nat.shiftLeft_add_eq_or_of_lt y.isLt, Nat.shiftLeft_eq, Nat.mul_comm]

/-- The flags stand in the four low bits of `STATUS`, `BUSY` lowest (R40). -/
theorem statusWord_getLsbD (s : State) (p : Nat) : (statusWord s).getLsbD p =
    ((decide (p = 0) && s.stBusy) || (decide (p = 1) && s.stDone) || (decide (p = 2) && s.stFault) ||
      (decide (p = 3) && s.stDrop)) := by
  have hw : (statusWord s).getLsbD p = BitVec.getLsbD (w := 28 + 1 + 1 + 1 + 1)
      (0#28 ++ flagBit s.stDrop ++ flagBit s.stFault ++ flagBit s.stDone ++ flagBit s.stBusy) p := rfl
  simp only [hw, BitVec.getLsbD_append, flagBit]
  match p with
  | 0 => simp
  | 1 => simp
  | 2 => simp
  | 3 => simp
  | p + 4 => simp

theorem ctrlWord_eq (s : State) : ctrlWord s = if s.slz then 1 else 0 := by
  unfold ctrlWord
  cases s.slz <;> rfl

/-- Word 0 of a present code entry: `VALID` and the length, which fits its seven bits (R42). -/
theorem toNat_codeView_zero {c : Code} (h : c.len ≤ 64) : (codeView (some c) 0).toNat = 2 ^ 31 + c.len := by
  have hlen : (BitVec.ofNat 7 c.len).toNat = c.len := by
    rw [BitVec.toNat_ofNat, Nat.mod_eq_of_lt (by omega)]
  calc (codeView (some c) 0).toNat
      = 2 ^ 7 * (1#1 ++ 0#24).toNat + (BitVec.ofNat 7 c.len).toNat := toNat_append_eq _ _
    _ = 2 ^ 31 + c.len := by rw [hlen]; rfl

/-- Words 1 and 2 of a present code entry: the two halves of its value (R42). -/
theorem codeView_value {c : Code} (hl : c.len ≤ 64) (hv : c.val < 2 ^ c.len) :
    (codeView (some c) 1).toNat + 2 ^ 32 * (codeView (some c) 2).toNat = c.val := by
  have h64 : c.val < 2 ^ 64 := hv.trans_le (Nat.pow_le_pow_right (by decide) hl)
  simp only [codeView, BitVec.toNat_ofNat]
  omega

/-- Word 0 of a leaf: `VALID`, `LEAF` and the symbol (R43). -/
theorem toNat_nodeView_leaf_zero (sym : Symbol) (f : NodeFreq) :
    (nodeView (some (.leaf sym f)) 0).toNat = 2 ^ 31 + 2 ^ 30 + sym.toNat :=
  toNat_append_eq (1#1 ++ 1#1 ++ 0#14) sym

/-- The two halves of a 48-bit frequency, as words 1 and 2 of a node's entry hold them (R43). -/
theorem nodeFreq_halves (f : NodeFreq) :
    (f.setWidth 32 : Word).toNat + 2 ^ 32 * (0#16 ++ f.extractLsb' 32 16 : Word).toNat = f.toNat := by
  have hhi : (0#16 ++ f.extractLsb' 32 16 : Word).toNat = f.toNat / 2 ^ 32 := by
    refine (toNat_append_eq 0#16 (f.extractLsb' 32 16)).trans ?_
    rw [BitVec.extractLsb'_toNat, Nat.shiftRight_eq_div_pow, Nat.mod_eq_of_lt (by omega)]
    simp
  rw [hhi, BitVec.toNat_setWidth, Nat.mod_add_div]

/-- The words past a leaf's frequency (R43). -/
theorem nodeView_leaf_past (sym : Symbol) (f : NodeFreq) {w : Nat} (hw : 3 ≤ w) : nodeView (some (.leaf sym f)) w = 0 := by
  obtain ⟨d, rfl⟩ := Nat.exists_eq_add_of_le' hw
  rfl

/-- The words past an internal node's children (R43). -/
theorem nodeView_internal_past (f : NodeFreq) (l r : NodeIx) {w : Nat} (hw : 5 ≤ w) :
    nodeView (some (.internal f l r)) w = 0 := by
  obtain ⟨d, rfl⟩ := Nat.exists_eq_add_of_le' hw
  rfl

theorem nodeEntry_of_le {s : State} {k : Nat} (h : s.nnode.toNat ≤ k) : nodeEntry s k = none := if_neg (by omega)

theorem nodeEntry_of_lt {s : State} {k : Nat} (h : k < s.nnode.toNat) : nodeEntry s k = s.node[k]? := if_pos h

/-- Bit `p` of a word made of 32 bits, the first of them in bit 31. -/
theorem wordOfBits_getLsbD {b : BitString} (hb : b.length = 32) {p : Nat} (hp : p < 32) :
    (wordOfBits b).getLsbD p = b.getD (31 - p) false := by
  rw [wordOfBits, BitVec.getLsbD_ofNat, testBit_bitsVal, hb]
  simp [hp]

theorem outView_getLsbD (s : State) (j : Nat) {p : Nat} (hp : p < 32) :
    (outView s j).getLsbD p = outBit s (32 * j + (31 - p)) := by
  have hi : 31 - p < 32 := by omega
  rw [outView, wordOfBits_getLsbD (by simp) hp]
  simp [hi]

/-- With `OUTLEN` the length of `OUT` (R30 item 6), a stream bit is `OUT`'s, and 0 past its end. -/
theorem outBit_eq {s : State} (h : s.outlen.toNat = s.out.length) (t : Nat) : outBit s t = s.out[t]?.getD false := by
  rw [outBit, h, List.getD_eq_getElem?_getD]
  by_cases ht : t < s.out.length <;> simp [ht]

/-! ### Writes -/

theorem busWrite_busy {s : State} (hb : s.stBusy = true) (a : Addr) (v : Word) : busWrite a v s = dropWrite s := if_pos hb

/-- The step of a host write, while idle, is the write to the location there. -/
theorem step_write_idle {s : State} (hb : s.stBusy = false) {a : Addr} {v : Word} {rest : List Event}
    (h : s.agenda = .write a v :: rest) {l : Location} (hl : locate s.cfg a = l) :
    step s = .next (writeLocation l v { s with agenda := rest }) := by
  subst hl
  exact (step_write h).trans (congrArg _ (busWrite_idle (s := { s with agenda := rest }) hb a v))

/-- The addresses of the writable locations of R44: `CMD`, `CTRL`, `TLEN`, the `FREQ` window, the `TXT` window below
`TEXT_MAX`. -/
def WritableAddr (cfg : Config) (a : Addr) : Prop :=
  a.toNat = 0 ∨ a.toNat = 2 ∨ a.toNat = 3 ∨ (0x010000 ≤ a.toNat ∧ a.toNat ≤ 0x01FFFF) ∨
    (0x200000 ≤ a.toNat ∧ a.toNat < 0x200000 + cfg.textMax)

/-- The unmapped addresses of R38. -/
def UnmappedAddr (cfg : Config) (a : Addr) : Prop :=
  (0x000010 ≤ a.toNat ∧ a.toNat ≤ 0x00FFFF) ∨ (0x020000 ≤ a.toNat ∧ a.toNat ≤ 0x03FFFF) ∨
    (0x0C0000 ≤ a.toNat ∧ a.toNat ≤ 0x0FFFFF) ∨ (0x300000 ≤ a.toNat ∧ a.toNat ≤ 0x3FFFFF) ∨
    (0x600000 ≤ a.toNat ∧ a.toNat ≤ 0x7FFFFF) ∨ (0x200000 + cfg.textMax ≤ a.toNat ∧ a.toNat ≤ 0x2FFFFF)

theorem locate_unmapped {cfg : Config} {a : Addr} (h : UnmappedAddr cfg a) : locate cfg a = .unmapped := by
  rw [locate_eq]
  rcases h with h | h | h | h | h | h <;> simp (disch := omega) only [if_pos, if_neg]

theorem UnmappedAddr.ne_status {cfg : Config} {a : Addr} (h : UnmappedAddr cfg a) : a ≠ 0x000001#23 := by
  have hge : 16 ≤ a.toNat := by
    unfold UnmappedAddr at h
    omega
  rintro rfl
  exact absurd hge (by decide)

theorem UnmappedAddr.not_writable {cfg : Config} (hc : cfg.wf) {a : Addr} (h : UnmappedAddr cfg a) :
    ¬ WritableAddr cfg a := by
  have hmax : cfg.textMax ≤ 1048576 := textMax_le_of_wf hc
  unfold UnmappedAddr at h
  unfold WritableAddr
  omega

/-- The windows of the two code tables, of the nodes and of the bitstream drop every write (R44). -/
theorem writeLocation_readOnly {cfg : Config} {a : Addr}
    (h : (0x040000 ≤ a.toNat ∧ a.toNat < 0x080000) ∨ (0x080000 ≤ a.toNat ∧ a.toNat < 0x0C0000) ∨
      (0x100000 ≤ a.toNat ∧ a.toNat < 0x200000) ∨ (0x400000 ≤ a.toNat ∧ a.toNat < 0x600000)) (v : Word) (s : State) :
    writeLocation (locate cfg a) v s = dropWrite s := by
  rw [locate_eq]
  rcases h with h | h | h | h <;> simp (disch := omega) only [if_pos, if_neg, writeLocation]

/-- An address that is not writable is a read-only register's, or is unmapped, or is in a read-only window (R38, R44). -/
theorem writeLocation_not_writable {cfg : Config} {a : Addr} (h : ¬ WritableAddr cfg a) (v : Word) (s : State) :
    writeLocation (locate cfg a) v s = dropWrite s := by
  have hlt := a.isLt
  unfold WritableAddr at h
  by_cases hreg : a.toNat < 16
  · rw [locate_eq, if_pos hreg]
    exact writeReg_drop v s (by omega)
  · by_cases hun : UnmappedAddr cfg a
    · rw [locate_unmapped hun]; rfl
    · unfold UnmappedAddr at hun
      exact writeLocation_readOnly (by omega) v s

/-- R44: the writes that are dropped. -/
theorem busWrite_dropped {s : State} {a : Addr} (h : s.stBusy = true ∨ ¬ WritableAddr s.cfg a) (v : Word) :
    busWrite a v s = dropWrite s := by
  cases hb : s.stBusy with
  | true => exact busWrite_busy hb a v
  | false =>
    rw [busWrite_idle hb, writeLocation_not_writable (h.resolve_left (by simp [hb]))]

theorem step_write_dropped {s : State} {a : Addr} {v : Word} {rest : List Event} (h : s.agenda = .write a v :: rest)
    (hd : s.stBusy = true ∨ ¬ WritableAddr s.cfg a) : step s = .next { s with agenda := rest, stDrop := true } :=
  (step_write h).trans (congrArg _ (busWrite_dropped (s := { s with agenda := rest }) hd v))

/-! ### The statements about the host's transactions -/

/-- Settles O22: whichever location a write reaches, it is none of the tables a command produced (R44). -/
theorem hostActsLeaveProducedTables : Obligations.HostActsLeaveProducedTables := by
  rintro s t (⟨a, ha⟩ | ⟨a, v, ha⟩) hs <;> obtain ⟨rest, hr⟩ := List.head?_eq_some_iff.1 ha
  · cases (step_read hr).symm.trans hs
    rfl
  · cases (step_write hr).symm.trans hs
    rcases busWrite_cases a v { s with agenda := rest } with h | ⟨-, ⟨-, h⟩ | h | ⟨-, h⟩ | ⟨i, -, h⟩ | ⟨k, -, h⟩⟩ <;>
      rw [h] <;> rfl

/-- Settles O23: with a command in flight a read records a word and a write is dropped. -/
theorem busyFreezesState : Obligations.BusyFreezesState := by
  intro s t hb he hr hs
  rcases step_next hs with ⟨a, rest, ha, rfl⟩ | ⟨a, v, rest, ha, rfl⟩ | ⟨rest, ha, -⟩ | ⟨he', -⟩ | ⟨he', -⟩
  · exact ⟨rfl, by rw [ha]; rfl⟩
  · rw [busWrite_busy (s := { s with agenda := rest }) hb]
    exact ⟨rfl, by rw [ha]; rfl⟩
  · exact absurd (by rw [ha]; rfl) hr
  · exact absurd (he.symm.trans he') nofun
  · exact absurd (he.symm.trans he') nofun

/-- Settles O27: the word recorded is `memRead`'s. -/
theorem readReturnsViewAndChangesNothing : Obligations.ReadReturnsViewAndChangesNothing := by
  intro s a rest h
  refine ⟨_, _, step_read h, rfl, rfl, rfl, ?_, fun ha hb => ?_⟩
  · rintro rfl
    exact memRead_status _
  · exact (memRead_idle hb ha).trans (view_withAgenda s rest _)

/-- Settles O28: each register's address, and the flags bit by bit. -/
theorem registerViews : Obligations.RegisterViews := by
  refine fun s => ⟨statusWord_getLsbD s, fun hb => ?_⟩
  have word {n : Nat} (hn : n < 16) (h1 : n ≠ 1) := memRead_reg_at hb hn h1
  have value {n w : Nat} {x : BitVec w} (hn : n < 16) (h1 : n ≠ 1) (hw : w ≤ 32)
      (hx : regView s (regAt n) = x.setWidth 32) := toNat_memRead_reg_at hb hn h1 hw hx
  refine ⟨word (by decide) (by decide), (word (by decide) (by decide)).trans (ctrlWord_eq s), ?_, ?_,
    word (by decide) (by decide), word (by decide) (by decide), ?_, ?_, ?_, ?_, ?_, ?_,
    word (by decide) (by decide), word (by decide) (by decide), word (by decide) (by decide)⟩
  all_goals exact value (by decide) (by decide) (by decide) rfl

/-- Settles O29, window by window. -/
theorem freqAndTextViews : Obligations.FreqAndTextViews := by
  intro s hc hb
  refine ⟨fun sym => memRead_freq_at hb sym.isLt, fun i sym hi hcell => ?_, fun i hi => ?_,
    fun i hi hlt => memRead_txt_past hb hi hlt⟩
  · rw [toNat_memRead_txt_at hc hb hi, readTxt_written hcell]
  · rw [toNat_memRead_txt_at hc hb hi]
    exact BitVec.isLt _

/-- Settles O30: both tables show an entry by `codeView`. -/
theorem codeEntryView : Obligations.CodeEntryView := by
  intro s base table sym hb ht
  have hread {w : Nat} (hw : w < 4) := memRead_code_at hb ht sym.isLt hw
  refine ⟨fun hnone w hw => ?_, fun c hc hl hv => ?_⟩
  · rw [hread hw, hnone]
    rfl
  · rw [hc] at hread
    have h0 := hread (w := 0) (by decide)
    rw [Nat.add_zero] at h0
    rw [h0, hread (w := 1) (by decide), hread (w := 2) (by decide), hread (w := 3) (by decide)]
    exact ⟨toNat_codeView_zero hl, codeView_value hl hv, rfl⟩

/-- Settles O31: the entries below `NNODE` are shown by `nodeView`, the others as absent. -/
theorem nodeEntryView : Obligations.NodeEntryView := by
  intro s k hb hk
  have hread {w : Nat} (hw : w < 8) := memRead_node_at hb hk hw
  have hread0 : memRead s (BitVec.ofNat 23 (0x100000 + 8 * k)) = nodeView (nodeEntry s k) 0 := hread (w := 0) (by decide)
  refine ⟨fun hle w hw => ?_, fun sym f hlt hn => ?_, fun f l r hlt hn => ?_⟩
  · rw [hread hw, nodeEntry_of_le hle]
    rfl
  · rw [nodeEntry_of_lt hlt, hn] at hread hread0
    rw [hread0, hread (w := 1) (by decide), hread (w := 2) (by decide)]
    refine ⟨toNat_nodeView_leaf_zero sym f, nodeFreq_halves f, fun w h3 hw => ?_⟩
    exact (hread hw).trans (nodeView_leaf_past sym f h3)
  · rw [nodeEntry_of_lt hlt, hn] at hread hread0
    rw [hread0, hread (w := 1) (by decide), hread (w := 2) (by decide), hread (w := 3) (by decide),
      hread (w := 4) (by decide)]
    refine ⟨rfl, nodeFreq_halves f, toNat_setWidth32 l (by decide), toNat_setWidth32 r (by decide), fun w h5 hw => ?_⟩
    exact (hread hw).trans (nodeView_internal_past f l r h5)

/-- Settles O32: the window shows the stream bits in order, and those from `OUTLEN` on are past the end of `OUT`. -/
theorem outViewBitByBit : Obligations.OutViewBitByBit := by
  intro s j p hb hlen hj hp
  rw [memRead_out_at hb hj, outView_getLsbD s j hp, outBit_eq hlen]

/-- Settles O33: the address leads to no location, and no unmapped address is a writable one. -/
theorem unmappedAddresses : Obligations.UnmappedAddresses := by
  intro s a hc (h : UnmappedAddr s.cfg a)
  refine ⟨fun hb => ?_, busWrite_dropped (.inr (h.not_writable hc))⟩
  rw [memRead_idle hb h.ne_status, locate_unmapped h]
  rfl

/-- Settles O34: every address outside the writable ones leads to a location whose writes are dropped. -/
theorem writesDropped : Obligations.WritesDropped :=
  fun _ _ _ _ _ h hd => step_write_dropped h hd

/-- Settles O35: `CTRL` and `TLEN` by their addresses; the other registers' addresses are not writable. -/
theorem registerWrites : Obligations.RegisterWrites := by
  intro s v rest hc hb
  have hmax : s.cfg.textMax ≤ 1048576 := textMax_le_of_wf hc
  refine ⟨fun h => step_write_idle hb h (locate_reg_at s.cfg (by decide)), fun h => ?_, fun a ha h => ?_⟩
  · have hstep := step_write_idle hb h (locate_reg_at s.cfg (by decide))
    refine ⟨fun hv => ⟨v.setWidth 21, ?_, hstep.trans (congrArg _ (if_pos hv))⟩,
      fun hv => hstep.trans (congrArg _ (if_neg (by exact Nat.not_le.2 hv)))⟩
    rw [BitVec.toNat_setWidth, Nat.mod_eq_of_lt (by omega)]
  · refine step_write_dropped h (.inr ?_)
    unfold WritableAddr
    omega

/-- Settles O36: the address leads to the one cell, and a cell is read after a write to it and to another. -/
theorem textAndFreqCellWrites : Obligations.TextAndFreqCellWrites := by
  intro s v rest hc hb
  refine ⟨fun i hi h => ?_, fun sym h => ?_⟩
  · exact ⟨_, step_write_idle hb h (locate_txt_at hc hi), cellAt_setCell_self _ _ _,
      fun j hj => cellAt_setCell_ne hj _ _, rfl, rfl⟩
  · refine ⟨_, step_write_idle hb h (locate_freq_at s.cfg sym.isLt), ?_, fun j hj => ?_, rfl, rfl⟩
    · exact (freqAt_setFreq _ _ _ _).trans (if_pos rfl)
    · exact (freqAt_setFreq _ _ _ _).trans (if_neg hj)

end Sys2Proof.Machine
end

section
/-! The encoding of 30_encoding.md: a word is its three fields (R54), so whatever `decode` answers has that word as its
encoding, and the statements about the decoder follow from its being the encoder's inverse. Then the completion of a word
that does not decode (R57, R113). -/

namespace Sys2Proof

/-! ### The fields of a word (R54) -/

/-- A word is its fields put together. -/
theorem fields_append (w : Word) : reservedOf w ++ BitVec.ofBool (tselOf w) ++ opcodeOf w = w := by
  have htsel : BitVec.ofBool (tselOf w) = w.extractLsb' 8 1 := by
    ext p hp
    simp [tselOf, Nat.lt_one_iff.1 hp]
  rw [htsel, reservedOf, opcodeOf, BitVec.extractLsb'_append_extractLsb'_eq_extractLsb' (by rfl),
    BitVec.extractLsb'_append_extractLsb'_eq_extractLsb' (by rfl)]
  exact BitVec.extractLsb'_eq_self

/-- A word with a command's fields is the command's encoding. -/
theorem encode_eq_of_fields {w : Word} {i : Instr} (hr : reservedOf w = 0) (ht : BitVec.ofBool (tselOf w) = tselBit i)
    (ho : opcodeOf w = opcodeNumber i) : encode i = w := by
  rw [← fields_append w, hr, ht, ho]
  rfl

theorem tselBit_tableSelOf (b : Bool) : tselBit (.encode (tableSelOf b)) = BitVec.ofBool b := by
  cases b <;> rfl

/-- Every opcode up to 0x07 is a command's, with `TSEL` 0 (R55). -/
theorem exists_opcodeNumber {o : BitVec 8} (h : o.toNat ≤ 0x07) : ∃ i, opcodeNumber i = o ∧ tselBit i = 0 := by
  obtain ⟨n, hn, rfl⟩ : ∃ n ≤ 7, o = BitVec.ofNat 8 n := ⟨o.toNat, h, by simp⟩
  match n, hn with
  | 0, _ => exact ⟨.nop, rfl, rfl⟩
  | 1, _ => exact ⟨.clear, rfl, rfl⟩
  | 2, _ => exact ⟨.freq, rfl, rfl⟩
  | 3, _ => exact ⟨.build, rfl, rfl⟩
  | 4, _ => exact ⟨.derive, rfl, rfl⟩
  | 5, _ => exact ⟨.canon, rfl, rfl⟩
  | 6, _ => exact ⟨.encode .standard, rfl, rfl⟩
  | 7, _ => exact ⟨.clrf, rfl, rfl⟩

/-! ### The decoder and the encoder are inverse to each other (R59) -/

theorem decode_encode (i : Instr) : decode (encode i) = some i := by
  cases i with
  | encode tsel => cases tsel <;> rfl
  | _ => rfl

/-- Each branch of the decoder has tested all three fields of the command it answers. -/
theorem encode_of_decode {w : Word} {i : Instr} (h : decode w = some i) : encode i = w := by
  unfold decode at h
  split_ifs at h with hr hop ht <;> cases h
  · exact encode_eq_of_fields (not_not.1 hr) (tselBit_tableSelOf _).symm hop
  all_goals
    have hbit : BitVec.ofBool (tselOf w) = 0 := congrArg BitVec.ofBool (eq_false_of_ne_true ht)
    exact encode_eq_of_fields (not_not.1 hr) hbit ‹_›

theorem decode_eq_some_iff {w : Word} {i : Instr} : decode w = some i ↔ w = encode i :=
  ⟨fun h => (encode_of_decode h).symm, fun h => h ▸ decode_encode i⟩

/-! ### The legal words (R57) -/

theorem encode_legal (i : Instr) : Word.legal (encode i) := by
  cases i with
  | nop => exact Laws.EncodeLegal.nop
  | clear => exact Laws.EncodeLegal.clear
  | freq => exact Laws.EncodeLegal.freq
  | build => exact Laws.EncodeLegal.build
  | derive => exact Laws.EncodeLegal.derive
  | canon => exact Laws.EncodeLegal.canon
  | encode tsel => exact Laws.EncodeLegal.encode tsel
  | clrf => exact Laws.EncodeLegal.clrf

/-- With `TSEL` 0 the opcode of a legal word names the command, and with ENCODE's opcode `TSEL` is the operand. -/
theorem exists_encode_of_legal {w : Word} (h : Word.legal w) : ∃ i, encode i = w := by
  obtain ⟨hr, hop, ht | h6⟩ := h
  · obtain ⟨i, ho, hi⟩ := exists_opcodeNumber hop
    have hbit : BitVec.ofBool (tselOf w) = 0 := congrArg BitVec.ofBool ht
    exact ⟨i, encode_eq_of_fields hr (hbit.trans hi.symm) ho.symm⟩
  · exact ⟨_, encode_eq_of_fields hr (tselBit_tableSelOf _).symm h6⟩

theorem decode_isSome_iff_legal {w : Word} : (decode w).isSome = true ↔ Word.legal w := by
  rw [Option.isSome_iff_exists]
  constructor
  · rintro ⟨i, hi⟩
    exact encode_of_decode hi ▸ encode_legal i
  · intro h
    obtain ⟨i, rfl⟩ := exists_encode_of_legal h
    exact ⟨i, decode_encode i⟩

theorem decode_eq_none_of_not_legal {w : Word} (h : ¬ Word.legal w) : decode w = none :=
  Option.not_isSome_iff_eq_none.1 (mt decode_isSome_iff_legal.1 h)

/-! ### The statements about the encoding -/

/-- Settles O12: the fields the decoder tested are the encoding's. -/
theorem encodeInvertsDecode : Obligations.EncodeInvertsDecode := fun _ _ => encode_of_decode

/-- Settles O13: R57's legal words are the commands' encodings, and these are what decodes. -/
theorem decodeAcceptsExactlyLegalWords : Obligations.DecodeAcceptsExactlyLegalWords := fun _ => decode_isSome_iff_legal

/-- Settles O14: a word decodes to a command exactly when it is the command's encoding, and the nine encodings are R63's. -/
theorem nineWordsAreLegal : Obligations.NineWordsAreLegal := by
  intro w i
  rw [decode_eq_some_iff]
  cases i with
  | encode tsel => cases tsel <;> simp [encode, tselBit, opcodeNumber]
  | _ => simp [encode, tselBit, opcodeNumber]

/-- Settles O11, command by command: each encoding is a closed word. -/
theorem decodeInvertsEncode : Obligations.DecodeInvertsEncode := fun i _ => decode_encode i

/-- Settles O15: the first three words are the commands' encodings, the others break R57. -/
theorem sampleWordsDecode : Obligations.SampleWordsDecode :=
  ⟨decode_encode .build, decode_encode (.encode .canonical), decode_encode .clrf,
    decode_eq_none_of_not_legal (by decide), decode_eq_none_of_not_legal (by decide),
    decode_eq_none_of_not_legal (by decide)⟩

end Sys2Proof

namespace Sys2Proof.Machine

/-! ### The engine's instant (R65) -/

theorem popAgenda_of_nil {s : State} (h : s.agenda = []) : popAgenda s = s := by
  cases s
  cases h
  rfl

/-- When the engine moves next, the step is its instant, taken off the agenda. -/
theorem step_of_engineNext {s : State} (h : engineNext s = true) : step s = engineAct (popAgenda s) := by
  unfold step advance
  unfold engineNext at h
  cases ha : s.agenda with
  | nil => rw [popAgenda_of_nil ha]
  | cons e rest =>
    rw [ha] at h
    cases e with
    | engine => rw [popAgenda, ha]; rfl
    | read | write | rst => cases h

/-- With a command in flight the engine's instant is its completion. -/
theorem step_eq_complete {s : State} (hb : s.stBusy = true) (h : engineNext s = true) :
    step s = complete (popAgenda s) :=
  (step_of_engineNext h).trans (if_pos hb)

theorem complete_of_decode_none {s : State} (h : decode s.cmdlat = none) :
    complete s = .next (takeFault .illegalCommand s.cmdlat 0 s) := by
  rw [complete, h]

/-- Settles O17: the completion takes the fault ILLEGAL_COMMAND, with the latched word as its information. -/
theorem illegalWordRaisesIllegalCommand : Obligations.IllegalWordRaisesIllegalCommand :=
  fun s hb he hd => (step_eq_complete hb he).trans (complete_of_decode_none (s := popAgenda s) hd)

end Sys2Proof.Machine
end

section
/-! The execution of a command (40_command_execution_and_control.md): what issues it, what its completion can do
(`Faulted`, `Wrote`, `exec_completes`), and that under the invariant every step has a next state. -/

namespace Sys2Proof.Machine

/-! ### Issue (R64, R120) -/

theorem issueAllowed_iff {w : Word} {s : State} :
    issueAllowed w s = true ↔ s.stBusy = false ∧ (s.stFault = false ∨ w = 0x00000007#32) := by
  simp [issueAllowed]

/-- A write to `CMD`: with a command in flight none may be issued, and the write is dropped as any other is. -/
theorem busWrite_cmd (w : Word) (s : State) :
    busWrite 0x000000#23 w s = if issueAllowed w s then issue w s else dropWrite s := by
  cases hb : s.stBusy with
  | true =>
    have hi : issueAllowed w s ≠ true := by simp [issueAllowed_iff, hb]
    rw [busWrite_busy hb, if_neg hi]
  | false =>
    rw [busWrite_idle hb, locate_reg_at s.cfg (by decide : 0 < 16)]
    rfl

/-- Settles O18: what `issueAllowed` tests is the condition of R64. -/
theorem commandWriteIssuesOrIsDropped : Obligations.CommandWriteIssuesOrIsDropped := by
  intro s w rest h
  have hstep := (step_write h).trans (congrArg _ (busWrite_cmd w { s with agenda := rest }))
  constructor <;> intro hi
  · exact hstep.trans (congrArg _ (if_pos (issueAllowed_iff.2 hi)))
  · exact hstep.trans (congrArg _ (if_neg (mt issueAllowed_iff.1 hi)))

/-! ### The engine's instant runs the latched command (R65) -/

theorem complete_of_decode_some {s : State} {i : Instr} (h : decode s.cmdlat = some i) : complete s = exec i s := by
  rw [complete, h]

theorem engineAct_idle {s : State} (hb : s.stBusy = false) : engineAct s = .next s := by
  simp [engineAct, hb]

/-- Settles O16: the engine's instant is the completion while `BUSY` is set, and nothing while it is clear. -/
theorem stepRunsDecodedCommand : Obligations.StepRunsDecodedCommand :=
  ⟨fun s _ hb he hd => (step_eq_complete hb he).trans (complete_of_decode_some (s := popAgenda s) hd),
    fun s hb he => (step_of_engineNext he).trans (engineAct_idle (s := popAgenda s) hb)⟩

/-! ### The control commands (R68 to R70) -/

/-- Settles O24: NOP is `completeOk`, which sets the two flags. -/
theorem nopOnlyCompletes : Obligations.NopOnlyCompletes := fun _ => rfl

/-- Settles O25: the next state is `emptyTables` completed; with `NNODE` 0 no node exists. -/
theorem clearEmptiesTables : Obligations.ClearEmptiesTables := fun s =>
  ⟨completeOk (emptyTables s), rfl, rfl, rfl, fun _ => ⟨rfl, rfl, rfl⟩, rfl, rfl, rfl,
    fun k => nodeEntry_of_le (Nat.zero_le k), rfl, rfl, rfl, rfl, rfl⟩

/-- Settles O26: CLRF is `clearFault`, completed. -/
theorem clrfClearsFaultRecord : Obligations.ClrfClearsFaultRecord := fun _ => rfl

/-! ### The completion of a command (R67, R72, R112) -/

/-- The faults a command can complete with, each with its cause and, where the rule fixes it, its information (R112,
R122). -/
inductive Faulted (s : State) : Instr → State → Prop where
  | emptyFreq : Faulted s .build (takeFault .emptyFreq 0 0 s)
  | noTree : Faulted s .derive (takeFault .noTree 0 0 s)
  | lenOverflow (i j : Word) : Faulted s .derive (takeFault .lenOverflow i j s)
  | emptyCodes : Faulted s .canon (takeFault .emptyCodes 0 0 s)
  | missingSymbol (tsel : TableSel) (i j : Word) : Faulted s (.encode tsel) (takeFault .missingSymbol i j (afterText s))

/-- R72's table: the outputs each command replaces when it completes without fault, whatever their values. -/
inductive Wrote (s : State) : Instr → State → Prop where
  | nop : Wrote s .nop s
  | clear : Wrote s .clear (emptyTables s)
  | freq (m : Memory Count) : Wrote s .freq (putFreq m (afterText s))
  | build (nodes : List Node) (n : Nat) : Wrote s .build (putTree nodes n s)
  | derive (m : Memory Code) (n : BitVec 17) : Wrote s .derive (putScode m n s)
  | canon (m : Memory Code) (n : BitVec 17) : Wrote s .canon (putCcode m n s)
  | encode (tsel : TableSel) (b : BitString) : Wrote s (.encode tsel) (putOut b (afterText s))
  | clrf : Wrote s .clrf (clearFault s)

/-- A command that answers a next state takes one of its own faults, or replaces its own outputs and completes. -/
theorem exec_completes {i : Instr} {s t : State} (h : exec i s = .next t) :
    Faulted s i t ∨ ∃ u, Wrote s i u ∧ t = completeOk u := by
  rcases exec_next h with ⟨rfl, ht⟩ | ⟨rfl, ht⟩ | ⟨rfl, ht⟩ | ⟨rfl, h⟩ | ⟨rfl, h⟩ | ⟨rfl, h⟩ | ⟨tsel, rfl, h⟩ | ⟨rfl, ht⟩
  · exact .inr ⟨_, .nop, ht⟩
  · exact .inr ⟨_, .clear, ht⟩
  · exact .inr ⟨_, .freq _, ht⟩
  · rcases execBuild_next h with ⟨-, rfl⟩ | ⟨-, ht⟩
    · exact .inl .emptyFreq
    · exact .inr ⟨_, .build _ _, ht⟩
  · rcases execDerive_next h with ⟨-, rfl⟩ | ⟨-, vs, -, rfl⟩
    · exact .inl .noTree
    · rcases deriveFrom_cases (applySlz s vs) s with ⟨v, -, hd⟩ | ⟨-, hd⟩
      · exact .inl (hd ▸ .lenOverflow _ _)
      · exact .inr ⟨_, .derive _ _, hd⟩
  · rcases execCanon_next h with ⟨-, rfl⟩ | ⟨-, -, ht⟩
    · exact .inl .emptyCodes
    · exact .inr ⟨_, .canon _ _, ht⟩
  · rcases execEncode_next h with ⟨_, _, -, rfl⟩ | ⟨_, -, ht⟩
    · exact .inl (.missingSymbol _ _ _)
    · exact .inr ⟨_, .encode _ _, ht⟩
  · exact .inr ⟨_, .clrf, ht⟩

theorem Faulted.flags {i : Instr} {s t : State} (h : Faulted s i t) :
    t.stBusy = false ∧ t.stDone = false ∧ t.stFault = true := by
  cases h <;> exact ⟨rfl, rfl, rfl⟩

theorem Faulted.sameButFaultRecord {i : Instr} {s t : State} (h : Faulted s i t) : SameButFaultRecord s t := by
  cases h <;> rfl

/-- What a command writes never raises `FAULT`: only CLRF touches it. -/
theorem Wrote.fault_of_fault {i : Instr} {s u : State} (h : Wrote s i u) (hf : u.stFault = true) : s.stFault = true := by
  cases h
  case clrf => cases hf
  all_goals exact hf

/-- Settles O19: a fault is `takeFault` of one of the command's own causes, and no other completion raises one. -/
theorem completionIsOkOrCleanFault : Obligations.CompletionIsOkOrCleanFault := by
  intro i s t h
  rcases exec_completes h with hf | ⟨u, hu, rfl⟩
  · obtain ⟨hbusy, hdone, hfault⟩ := hf.flags
    refine ⟨hbusy, .inr ⟨hdone, hfault, hf.sameButFaultRecord, ?_⟩⟩
    cases hf with
    | emptyFreq => exact .inl ⟨rfl, rfl, rfl, rfl⟩
    | noTree => exact .inr (.inl ⟨rfl, rfl, rfl, rfl⟩)
    | lenOverflow => exact .inr (.inr (.inl ⟨rfl, rfl⟩))
    | emptyCodes => exact .inr (.inr (.inr (.inl ⟨rfl, rfl, rfl, rfl⟩)))
    | missingSymbol tsel => exact .inr (.inr (.inr (.inr ⟨tsel, rfl, rfl⟩)))
  · exact ⟨rfl, .inl ⟨rfl, hu.fault_of_fault⟩⟩

/-- Settles O20: a fault writes no table, and R72's table is read off each command's outputs. -/
theorem commandsWriteOnlyTheirOutputs : Obligations.CommandsWriteOnlyTheirOutputs := by
  intro i s t h
  rcases exec_completes h with hf | ⟨u, hu, rfl⟩
  · cases hf <;> simp
  · cases hu <;> simp

/-! ### Under the invariant nothing hangs (R53, R66, R99) -/

theorem exists_execBuild (s : State) : ∃ t, execBuild s = .next t := by
  unfold execBuild
  split <;> exact ⟨_, rfl⟩

/-- With no tree DERIVE faults; on a tree of R21 the walk reaches its end. -/
theorem exists_execDerive {s : State} (h : TreeState s) : ∃ t, execDerive s = .next t := by
  unfold execDerive
  split
  · exact ⟨_, rfl⟩
  · next hn =>
    obtain ⟨hT, hroot⟩ := h.treeInv hn
    have hpos := hT.pos
    obtain ⟨vs, hvs⟩ := hT.walk_some (k := s.root.toNat) (fuel := s.node.length) (by omega) (by rw [hT.length]; omega) []
    exact ⟨_, by rw [hvs]⟩

/-- R99: with a Kraft sum of at most 1 every canonical value fits, and CANON is never refused. -/
theorem exists_execCanon {s : State} (h : DataInv s) : ∃ t, execCanon s = .next t := by
  have hfit := canonicalCodes_fit h.memory.scode.wf (fun e he => (h.bounds.scode e he).1) h.kraft
  unfold execCanon
  rw [if_pos hfit]
  split <;> exact ⟨_, rfl⟩

theorem exists_execEncode (tsel : TableSel) (s : State) : ∃ t, execEncode tsel s = .next t := by
  unfold execEncode
  split <;> exact ⟨_, rfl⟩

theorem exists_exec {s : State} (h : DataInv s) (i : Instr) : ∃ t, exec i s = .next t := by
  cases i with
  | nop | clear | freq | clrf => exact ⟨_, rfl⟩
  | build => exact exists_execBuild s
  | derive => exact exists_execDerive h.tree
  | canon => exact exists_execCanon h
  | encode tsel => exact exists_execEncode tsel s

theorem exists_complete {s : State} (h : DataInv s) : ∃ t, complete s = .next t := by
  cases hd : decode s.cmdlat with
  | none => exact ⟨_, complete_of_decode_none hd⟩
  | some i => rw [complete_of_decode_some hd]; exact exists_exec h i

theorem exists_engineAct {s : State} (h : DataInv s) : ∃ t, engineAct s = .next t := by
  unfold engineAct
  split
  · exact exists_complete h
  · exact ⟨_, rfl⟩

/-- Host transactions and resets always have a next state; the engine's instant has one under the invariant. -/
theorem exists_step {s : State} (h : DataInv s) : ∃ t, step s = .next t := by
  cases ha : s.agenda with
  | nil => rw [step, advance, ha]; exact exists_engineAct h
  | cons e rest =>
    rw [step, advance, ha]
    cases e with
    | read | write | rst => exact ⟨_, rfl⟩
    | engine => exact exists_engineAct ((dataInv_dataOf { s with agenda := rest }).1 ((dataInv_dataOf s).2 h))

/-- Every completion clears `BUSY` and sets `DONE` or `FAULT` (R65, R119). -/
theorem complete_flags {s t : State} (h : complete s = .next t) :
    t.stBusy = false ∧ (t.stDone = true ∨ (t.stDone = false ∧ t.stFault = true)) := by
  rcases complete_next h with ⟨i, -, he⟩ | ⟨-, rfl⟩
  · rcases exec_completes he with hf | ⟨u, -, rfl⟩
    · obtain ⟨hbusy, hflags⟩ := hf.flags
      exact ⟨hbusy, .inr hflags⟩
    · exact ⟨rfl, .inl rfl⟩
  · exact ⟨rfl, .inr ⟨rfl, rfl⟩⟩

/-- Settles O10: a step exists by `exists_step`; after a completion the invariant excludes `DONE` with `FAULT`. -/
theorem nothingHangs : Obligations.NothingHangs := by
  intro s h
  obtain ⟨t, ht⟩ := exists_step ((machineInv_iff s).1 h).2
  refine ⟨t, ht, fun hb he => ?_⟩
  obtain ⟨hbusy, hdone | ⟨hdone, hfault⟩⟩ := complete_flags ((step_eq_complete hb he).symm.trans ht)
  · have hfault : t.stFault ≠ true := fun hf => absurd (((h.step ht).status.fault hf).symm.trans hdone) nofun
    exact ⟨hbusy, by simp [hdone, hfault]⟩
  · exact ⟨hbusy, by simp [hdone, hfault]⟩

end Sys2Proof.Machine
end

section
/-! The frequency counter (41_frequency_counter.md R74, R75): a text that is shorter than 2^32 is counted exactly, and
what its counts add up to. -/

namespace Sys2Proof.Machine

section Counts

variable {text : List Symbol} (hlen : text.length < 2 ^ 32)

include hlen

/-- No count wraps: a symbol occurs at most as often as the text is long (R74). -/
theorem toNat_freqAt_countSymbols (sym : Symbol) :
    (freqAt (countSymbols text) sym.toNat).toNat = text.count sym := by
  have hle : text.count sym ≤ text.length := List.count_le_length
  rw [freqAt_countSymbols, BitVec.toNat_ofNat, Nat.mod_eq_of_lt (by omega)]

/-- A symbol has an entry exactly when it occurs (R75 (b)). -/
theorem freqAt_countSymbols_ne_zero_iff (sym : Symbol) :
    freqAt (countSymbols text) sym.toNat ≠ 0 ↔ sym ∈ text := by
  rw [BitVec.toNat_ne, toNat_freqAt_countSymbols hlen]
  exact Nat.pos_iff_ne_zero.symm.trans List.count_pos_iff

/-- The counts by cell: the text is counted as the numbers of its symbols. -/
theorem toNat_freqAt_countSymbols_cell {k : Nat} (hk : k < numSymbols) :
    (freqAt (countSymbols text) k).toNat = (text.map BitVec.toNat).count k := by
  have hsym : (BitVec.ofNat 16 k).toNat = k := Nat.mod_eq_of_lt hk
  calc (freqAt (countSymbols text) k).toNat
      = text.count (BitVec.ofNat 16 k) := by
        rw [← toNat_freqAt_countSymbols hlen, hsym]
    _ = (text.map BitVec.toNat).count (BitVec.ofNat 16 k).toNat :=
        (List.count_map_of_injective text _ BitVec.toNat_injective _).symm
    _ = (text.map BitVec.toNat).count k := by rw [hsym]

/-- Every position is counted once (R75 (a)). -/
theorem sum_freqAt_countSymbols :
    ∑ k ∈ Finset.range numSymbols, (freqAt (countSymbols text) k).toNat = text.length := by
  have hcells : ∀ k ∈ (text.map BitVec.toNat : Multiset Nat), k ∈ Finset.range numSymbols := by
    intro k hk
    obtain ⟨sym, -, rfl⟩ := List.mem_map.1 (Multiset.mem_coe.1 hk)
    exact Finset.mem_range.2 sym.isLt
  calc ∑ k ∈ Finset.range numSymbols, (freqAt (countSymbols text) k).toNat
      = ∑ k ∈ Finset.range numSymbols, (text.map BitVec.toNat : Multiset Nat).count k :=
        Finset.sum_congr rfl fun k hk =>
          (toNat_freqAt_countSymbols_cell hlen (Finset.mem_range.1 hk)).trans (Multiset.coe_count _ _).symm
    _ = (text.map BitVec.toNat : Multiset Nat).card := Multiset.sum_count_eq_card hcells
    _ = text.length := by simp

end Counts

/-- The cells that are not 0 are at most as many as their sum. -/
theorem card_freqAt_ne_zero_le_sum (m : Memory Count) (cells : Finset Nat) :
    (cells.filter (fun k => freqAt m k ≠ 0)).card ≤ ∑ k ∈ cells, (freqAt m k).toNat := by
  rw [Finset.card_filter]
  refine Finset.sum_le_sum fun k _ => ?_
  split
  · next h => exact Nat.pos_of_ne_zero (BitVec.toNat_ne.1 h)
  · exact Nat.zero_le _

/-! ### The statements about FREQ -/

/-- `TLEN` has 21 bits (R17). -/
theorem readText_length_lt (s : State) : (readText s).length < 2 ^ 32 := by
  rw [readText_length]
  omega

/-- All that FREQ does, in every state (R74). -/
theorem exec_freq (s : State) :
    exec .freq s = .next (completeOk (putFreq (countSymbols (readText s)) (afterText s))) := rfl

/-- Settles O38: FREQ is `putFreq` of the counts, completed, and no count of a text wraps. -/
theorem freqCountsTheText : Obligations.FreqCountsTheText := fun s =>
  ⟨_, exec_freq s, rfl, rfl, toNat_freqAt_countSymbols (readText_length_lt s), rfl⟩

/-- Settles O39: the sum and the entries of the counted text; each entry adds at least 1 to the sum. -/
theorem freqTableSumsToTextLength : Obligations.FreqTableSumsToTextLength := by
  intro s t h
  obtain rfl := Host.Outcome.next.inj ((exec_freq s).symm.trans h)
  have hlen := readText_length_lt s
  have hsum := (sum_freqAt_countSymbols hlen).trans (readText_length s)
  refine ⟨hsum, freqAt_countSymbols_ne_zero_iff hlen, Nat.le_min.2 ⟨?_, ?_⟩⟩
  · exact (card_freqAt_ne_zero_le_sum _ _).trans hsum.le
  · exact (Finset.card_filter_le _ _).trans (Finset.card_range numSymbols).le

end Sys2Proof.Machine
end

section
/-! The tree builder (42_tree_builder.md): the least key of a queue of distinct nodes, the table BUILD reads as a set of
symbols with counts, and the claims of R85 read off the invariant with which the merge loop ends. -/

namespace Sys2Proof.Machine

/-! ### The queue (R78) -/

/-- Where the queue's nodes are distinct the extracted key is below every key left: no two keys tie. -/
theorem extractMin_lt {q r : List QEntry} {a : QEntry} (hq : (q.map QEntry.ix).Nodup) (h : extractMin q = some (a, r)) :
    ∀ x ∈ r, keyLt a x = true := by
  intro x hx
  have hperm := extractMin_perm h
  have hnd : (a.ix :: r.map QEntry.ix).Nodup := (hperm.map QEntry.ix).nodup_iff.1 hq
  have hne : a.ix ≠ x.ix := fun he => (List.nodup_cons.1 hnd).1 (he ▸ List.mem_map_of_mem hx)
  have hle : ¬ keyLt x a = true :=
    Bool.eq_false_iff.1 ((extractMin_spec h).2.2 x (hperm.mem_iff.2 (List.mem_cons_of_mem a hx)))
  rw [keyLt_iff] at hle ⊢
  omega

/-- Settles O40: the extracted node and the rest are the queue, and no key of the rest ties with it. -/
theorem extractMinTakesLeastKey : Obligations.ExtractMinTakesLeastKey := by
  intro q hne hq
  cases h : extractMin q with
  | none => exact absurd (extractMin_none h) hne
  | some p => exact ⟨p.1, p.2, rfl, extractMin_perm h, fun x hx => (keyLt_iff _ _).1 (extractMin_lt hq h x hx)⟩

/-! ### A canonical frequency table as a set of symbols with counts (R18, R79) -/

section Table

variable {m : Memory Count} (h : FreqTable m)

include h

/-- The entries are the symbols whose count is not 0. -/
theorem FreqTable.mem_iff {k : Nat} {c : Count} : (k, c) ∈ m ↔ freqAt m k = c ∧ c ≠ 0 := by
  constructor
  · intro hm
    exact ⟨by rw [freqAt, cellAt_of_mem h.wf hm]; rfl, h.nonzero _ hm⟩
  · rintro ⟨rfl, hne⟩
    cases hc : cellAt m k with
    | none => exact absurd (by rw [freqAt, hc]; rfl) hne
    | some c => rw [freqAt, hc]; exact mem_of_cellAt hc

theorem FreqTable.freqAt_of_mem {e : Nat × Count} (he : e ∈ m) : freqAt m e.1 = e.2 := (h.mem_iff.1 he).1

theorem FreqTable.mem_map_fst_iff {k : Nat} : k ∈ m.map Prod.fst ↔ freqAt m k ≠ 0 := by
  constructor
  · intro hk
    obtain ⟨e, he, rfl⟩ := List.mem_map.1 hk
    exact h.freqAt_of_mem he ▸ h.nonzero e he
  · exact fun hk => List.mem_map.2 ⟨_, h.mem_iff.2 ⟨rfl, hk⟩, rfl⟩

/-- The table is empty exactly when every count is 0 (R86). -/
theorem FreqTable.ne_nil_iff : m ≠ [] ↔ ∃ k, freqAt m k ≠ 0 := by
  simp only [← h.mem_map_fst_iff]
  rw [← not_forall_not, ← List.eq_nil_iff_forall_not_mem, List.map_eq_nil_iff]

theorem FreqTable.length_le : m.length ≤ numSymbols := length_le_numSymbols h.wf h.sym

/-- The symbols with a count, as a set of cells. -/
theorem FreqTable.filter_ne_zero_eq :
    (Finset.range numSymbols).filter (fun k => freqAt m k ≠ 0) = (m.map Prod.fst).toFinset := by
  ext k
  rw [Finset.mem_filter, List.mem_toFinset, h.mem_map_fst_iff, Finset.mem_range, and_iff_right_iff_imp]
  exact fun hk => h.sym _ (h.mem_iff.2 ⟨rfl, hk⟩)

theorem FreqTable.card_filter_ne_zero :
    ((Finset.range numSymbols).filter (fun k => freqAt m k ≠ 0)).card = m.length := by
  rw [h.filter_ne_zero_eq, List.toFinset_card_of_nodup (wf_nodup h.wf), List.length_map]

/-- The cells' counts add up to those of the entries: a cell without an entry adds 0. -/
theorem FreqTable.sum_freqAt :
    ∑ k ∈ Finset.range numSymbols, (freqAt m k).toNat = (m.map (fun e => e.2.toNat)).sum := by
  calc ∑ k ∈ Finset.range numSymbols, (freqAt m k).toNat
      = ∑ k ∈ (Finset.range numSymbols).filter (fun k => freqAt m k ≠ 0), (freqAt m k).toNat :=
        (Finset.sum_filter_of_ne fun k _ hk => BitVec.toNat_ne.2 hk).symm
    _ = ((m.map Prod.fst).map (fun k => (freqAt m k).toNat)).sum := by
        rw [h.filter_ne_zero_eq, List.sum_toFinset _ (wf_nodup h.wf)]
    _ = (m.map (fun e => e.2.toNat)).sum := by
        rw [List.map_map]
        exact congrArg List.sum (List.map_congr_left fun e he => congrArg BitVec.toNat (h.freqAt_of_mem he))

/-- The leaves of the tree BUILD makes are the entries (R79, R85 (c)). -/
theorem FreqTable.leaf_buildTree_iff {sym : Symbol} {f : NodeFreq} :
    (∃ j, j < m.length ∧ (buildTree m)[j]? = some (.leaf sym f)) ↔ ∃ c, (sym.toNat, c) ∈ m ∧ f.toNat = c.toNat := by
  have hleaf : ∀ e ∈ m, Node.leaf (BitVec.ofNat 16 e.1) (e.2.setWidth 48) = .leaf sym f ↔
      e.1 = sym.toNat ∧ f.toNat = e.2.toNat := by
    intro e he
    have hsym : e.1 % 2 ^ 16 = e.1 := Nat.mod_eq_of_lt (h.sym e he)
    rw [Node.leaf.injEq, ← BitVec.toNat_inj, ← BitVec.toNat_inj, BitVec.toNat_ofNat, hsym, leaf_freq,
      eq_comm (a := f.toNat)]
  constructor
  · rintro ⟨j, hj, hn⟩
    rw [buildTree_leaf hj, Option.some.injEq, hleaf _ (List.getElem_mem hj)] at hn
    exact ⟨m[j].2, by rw [← hn.1]; exact List.getElem_mem hj, hn.2⟩
  · rintro ⟨c, hc, hf⟩
    obtain ⟨j, hj, he⟩ := List.mem_iff_getElem.1 hc
    refine ⟨j, hj, ?_⟩
    rw [buildTree_leaf hj, Option.some.injEq, hleaf _ (List.getElem_mem hj), he]
    exact ⟨rfl, hf⟩

end Table

/-- The leaves' frequencies, in order, are the counts of the entries. -/
theorem map_leafFreq_buildTree (m : Memory Count) :
    (List.range m.length).map (freqOf (buildTree m)) = m.map (fun e => e.2.toNat) := by
  refine List.ext_getElem (by simp) fun j _ hj => ?_
  rw [List.getElem_map, List.getElem_map, List.getElem_range]
  exact buildTree_leafFreq (by simpa using hj)

/-! ### The command (R80, R86) -/

theorem exec_build_of_nil {s : State} (h : s.freq = []) : exec .build s = .next (takeFault .emptyFreq 0 0 s) :=
  if_pos (by rw [h]; rfl)

theorem exec_build_of_ne_nil {s : State} (h : s.freq ≠ []) :
    exec .build s = .next (completeOk (putTree (buildTree s.freq) s.freq.length s)) :=
  if_neg fun h0 => h (List.length_eq_zero_iff.1 h0)

/-- With `DONE` set BUILD met an entry and has replaced the tree. -/
theorem exec_build_done {s t : State} (h : exec .build s = .next t) (hd : t.stDone = true) :
    s.freq ≠ [] ∧ t = completeOk (putTree (buildTree s.freq) s.freq.length s) := by
  rcases execBuild_next h with ⟨-, rfl⟩ | hb
  · cases hd
  · exact hb

/-- The tree's registers do not wrap (R20). -/
theorem putTree_toNat {n : Nat} (h : n ≤ 65536) (nodes : List Node) (s : State) :
    (putTree nodes n s).nleaf.toNat = n ∧ (putTree nodes n s).nnode.toNat = 2 * n - 1 ∧
      (putTree nodes n s).root.toNat = 2 * n - 2 := by
  simp only [putTree_nleaf, putTree_nnode, putTree_root, BitVec.toNat_ofNat]
  omega

/-- Settles O41: a canonical table of zero counts lists nothing. -/
theorem buildEmptyTableFaults : Obligations.BuildEmptyTableFaults := fun _ h h0 =>
  exec_build_of_nil (by_contra fun hne => (h.ne_nil_iff.1 hne).elim fun sym hs => hs (h0 sym))

/-- Settles O42: the loop's tree is one of R21 with a leaf per entry. -/
theorem buildMakesTheTree : Obligations.BuildMakesTheTree := by
  intro s h hex
  have hne := h.ne_nil_iff.2 hex
  obtain ⟨hleaf, hnode, hroot⟩ := putTree_toNat h.length_le (buildTree s.freq) s
  refine ⟨_, exec_build_of_ne_nil hne, rfl, rfl, ?_⟩
  simp only [completeOk_node, completeOk_nleaf, completeOk_nnode, completeOk_root, hleaf, hnode, hroot, putTree_node,
    h.card_filter_ne_zero]
  exact ⟨buildTree_treeInv h hne, trivial, trivial, trivial, rfl⟩

/-- Settles O43: the leaves are the entries, and the entries the symbols with a count. -/
theorem buildLeavesAreTheSymbols : Obligations.BuildLeavesAreTheSymbols := by
  intro s t h hs hd sym f
  obtain ⟨-, rfl⟩ := exec_build_done hs hd
  rw [completeOk_nleaf, completeOk_node, (putTree_toNat h.length_le _ s).1, putTree_node, h.leaf_buildTree_iff]
  simp only [h.mem_iff, and_assoc, exists_eq_left']

/-- Settles O44: the loop's invariant records of every node made that its pass took the two least keys. -/
theorem buildMergesTheTwoLeast : Obligations.BuildMergesTheTwoLeast := by
  intro s t h hs hd k f l r hk
  obtain ⟨hne, rfl⟩ := exec_build_done hs hd
  obtain ⟨x, hx⟩ := buildTree_spec h hne
  exact ⟨(keyLt_iff _ _).1 (hx.ordered k f l r hk),
    fun j hj hc hl hr => (keyLt_iff _ _).1 (hx.greedy k f l r hk j hj hc hl hr)⟩

/-- Settles O45: the root weighs what the leaves do, and by the loop's invariant internal frequencies never fall. -/
theorem buildFrequenciesAddUp : Obligations.BuildFrequenciesAddUp := by
  intro s t h hs hd
  obtain ⟨hne, rfl⟩ := exec_build_done hs hd
  obtain ⟨x, hx⟩ := buildTree_spec h hne
  obtain ⟨hleaf, -, hroot⟩ := putTree_toNat h.length_le (buildTree s.freq) s
  rw [completeOk_node, completeOk_root, completeOk_nleaf, hleaf, hroot, putTree_node]
  have hinv := buildTree_treeInv h hne
  refine ⟨?_, fun k hnk hk => hx.mono k hnk (by rw [hinv.length]; omega)⟩
  rw [hinv.sum_leaves _ hinv.sum, map_leafFreq_buildTree, h.sum_freqAt]

end Sys2Proof.Machine
end

section
/-! The deriver (43_code_derivation.md): R89's path as the labels of the edges down from the root, what DERIVE's walk
visits in terms of it, and the claims of R90 to R94 read off the visits. -/

namespace Sys2Proof.Machine

/-! ### Edges and paths of a tree (R89) -/

/-- Node `c` is the child of the internal node `k` on the edge labelled `b`: left on '0', right on '1' (R89). -/
def Edge (nodes : List Node) (k : Nat) (b : Bool) (c : Nat) : Prop :=
  ∃ f l r, nodes[k]? = some (.internal f l r) ∧ c = (bif b then r else l).toNat

/-- The way down from `root` to a node, with the labels of its edges. -/
inductive Descends (nodes : List Node) (root : Nat) : Nat → BitString → Prop where
  | root : Descends nodes root root []
  | edge {k c : Nat} {b : Bool} {p : BitString} (hd : Descends nodes root k p) (he : Edge nodes k b c) :
      Descends nodes root c (p ++ [b])

theorem Edge.mem_kidsOf {nodes : List Node} {k c : Nat} {b : Bool} (he : Edge nodes k b c) : c ∈ kidsOf nodes k := by
  obtain ⟨f, l, r, hk, rfl⟩ := he
  rw [kidsOf_internal hk]
  cases b <;> simp

theorem PathOf.edge {nodes : List Node} {root k c : Nat} {b : Bool} {path : Nat → BitString}
    (hp : PathOf nodes root path) (he : Edge nodes k b c) : path c = path k ++ [b] := by
  obtain ⟨f, l, r, hk, rfl⟩ := he
  cases b with
  | false => exact hp.left k f l r hk
  | true => exact hp.right k f l r hk

/-- A path function gives the labels of the way down, whichever it is. -/
theorem PathOf.eq_of_descends {nodes : List Node} {root k : Nat} {path : Nat → BitString} {p : BitString}
    (hp : PathOf nodes root path) (hd : Descends nodes root k p) : path k = p := by
  induction hd with
  | root => exact hp.root
  | edge _ he ih => rw [hp.edge he, ih]

section Tree

variable {nodes : List Node} {n : Nat} (h : TreeInv nodes n)

include h

/-- An edge leads from a node of the tree to one of lower index (R21 item 2). -/
theorem TreeInv.edge_lt {k c : Nat} {b : Bool} (he : Edge nodes k b c) : c < k ∧ k < 2 * n - 1 := by
  have hmem := he.mem_kidsOf
  obtain ⟨f, l, r, hk, -⟩ := he
  have hlt := h.lt_length hk
  exact ⟨h.below k hlt c hmem, hlt⟩

/-- At most one edge leads to a node (R21 item 3). -/
theorem TreeInv.edge_unique {k k' c : Nat} {b b' : Bool} (he : Edge nodes k b c) (he' : Edge nodes k' b' c) :
    k = k' ∧ b = b' := by
  obtain rfl := h.parent_unique he.mem_kidsOf he'.mem_kidsOf
  refine ⟨rfl, ?_⟩
  have hapart := h.apart k (h.edge_lt he).2
  obtain ⟨f, l, r, hk, rfl⟩ := he
  obtain ⟨f', l', r', hk', heq⟩ := he'
  obtain ⟨-, rfl, rfl⟩ : f = f' ∧ l = l' ∧ r = r' := by simpa [hk] using hk'
  have hlr : l.toNat ≠ r.toNat := by simpa [kidsOf_internal hk] using hapart
  cases b <;> cases b'
  · rfl
  · exact absurd heq hlr
  · exact absurd heq.symm hlr
  · rfl

/-- An edge leads to every node but the root, from an internal node (R21 item 3). -/
theorem TreeInv.exists_edge {c : Nat} (hc : c < 2 * n - 2) : ∃ k b, Edge nodes k b c ∧ n ≤ k := by
  obtain ⟨k, f, l, r, hk, hnk, -, -, rfl | rfl⟩ := h.parent hc
  · exact ⟨k, false, ⟨f, l, r, hk, rfl⟩, hnk⟩
  · exact ⟨k, true, ⟨f, l, r, hk, rfl⟩, hnk⟩

/-- A way leads down to every node: by descending index, through its parent. -/
theorem TreeInv.exists_descends {k : Nat} (hk : k < 2 * n - 1) : ∃ p, Descends nodes (2 * n - 2) k p := by
  induction hd : 2 * n - 2 - k using Nat.strongRecOn generalizing k with
  | _ d ih =>
    rcases Nat.lt_or_ge k (2 * n - 2) with hlt | hge
    · obtain ⟨k', b, he, -⟩ := h.exists_edge hlt
      obtain ⟨hkk', hk'⟩ := h.edge_lt he
      obtain ⟨p, hp⟩ := ih (2 * n - 2 - k') (by omega) hk' rfl
      exact ⟨p ++ [b], hp.edge he⟩
    · obtain rfl : k = 2 * n - 2 := by omega
      exact ⟨[], .root⟩

/-- Only one way leads down to a node: no edge leads to the root, and one to every other node. -/
theorem TreeInv.descends_unique {k : Nat} {p q : BitString} (hp : Descends nodes (2 * n - 2) k p)
    (hq : Descends nodes (2 * n - 2) k q) : p = q := by
  have root_top : ∀ {k : Nat} {b : Bool}, ¬ Edge nodes k b (2 * n - 2) := fun he => by
    have := h.edge_lt he
    omega
  induction hp generalizing q with
  | root =>
    cases hq with
    | root => rfl
    | edge _ he => exact absurd he root_top
  | edge _ he ih =>
    cases hq with
    | root => exact absurd he root_top
    | edge hd' he' =>
      obtain ⟨rfl, rfl⟩ := h.edge_unique he he'
      rw [ih hd']

/-- R89's equations have a solution: the labels of the way down to each node. -/
theorem TreeInv.exists_pathOf : ∃ path, PathOf nodes (2 * n - 2) path := by
  have hway : ∀ k, ∃ p, k < 2 * n - 1 → Descends nodes (2 * n - 2) k p := fun k => by
    by_cases hk : k < 2 * n - 1
    · exact (h.exists_descends hk).imp fun _ hp _ => hp
    · exact ⟨[], fun hk' => absurd hk' hk⟩
  choose path hpath using hway
  have hedge : ∀ {k c : Nat} {b : Bool}, Edge nodes k b c → path c = path k ++ [b] := fun {k c b} he => by
    obtain ⟨hck, hk⟩ := h.edge_lt he
    exact h.descends_unique (hpath c (by omega)) ((hpath k hk).edge he)
  have hpos := h.pos
  exact ⟨path,
    { root := h.descends_unique (hpath _ (by omega)) .root
      left := fun k f l r hk => hedge ⟨f, l, r, hk, rfl⟩
      right := fun k f l r hk => hedge ⟨f, l, r, hk, rfl⟩ }⟩

/-- In a tree of two leaves or more a leaf lies one edge below an internal node, so at depth 1 to n - 1 (R94). -/
theorem TreeInv.leaf_path_length {path : Nat → BitString} (hp : PathOf nodes (2 * n - 2) path) (hn : 2 ≤ n) {j : Nat}
    (hj : j < n) : 1 ≤ (path j).length ∧ (path j).length ≤ n - 1 := by
  obtain ⟨k, b, he, hnk⟩ := h.exists_edge (c := j) (by omega)
  have hk := h.path_length hp (h.edge_lt he).2
  rw [hp.edge he, List.length_append, List.length_singleton]
  omega

end Tree

/-- Settles O47: every node has exactly one way down from the root. -/
theorem treesHaveOnePathFunction : Obligations.TreesHaveOnePathFunction := by
  intro nodes n h
  refine ⟨h.exists_pathOf, fun p q hp hq k hk => ?_⟩
  obtain ⟨b, hb⟩ := h.exists_descends hk
  rw [hp.eq_of_descends hb, hq.eq_of_descends hb]

/-! ### The single-leaf policy (R90) -/

/-- The policy gives every visited leaf the code of R90. -/
theorem applySlz_eq_map (s : State) (vs : List Visit) :
    applySlz s vs = vs.map (fun v => { v with path := standardCode s v.path }) := by
  unfold applySlz standardCode
  split <;> simp

theorem applySlz_of_two_le {s : State} (h : 2 ≤ s.nleaf.toNat) (vs : List Visit) : applySlz s vs = vs :=
  (applySlz_cases s vs).resolve_right fun h1 => by omega

theorem standardCode_of_two_le {s : State} (h : 2 ≤ s.nleaf.toNat) (p : BitString) : standardCode s p = p := by
  have h1 : s.nleaf.toNat ≠ 1 := by omega
  simp [standardCode, h1]

/-- What DERIVE does with the visits does not depend on `SLZ`. -/
theorem deriveFrom_putSlz (b : Bool) (vs : List Visit) (s : State) :
    deriveFrom vs (putSlz b s) = putSlz b (deriveFrom vs s) := by
  unfold deriveFrom
  rw [putSlz_cfg]
  split <;> rfl

theorem standardCode_length_le (s : State) (p : BitString) : (standardCode s p).length ≤ p.length + 1 := by
  unfold standardCode
  split <;> simp

/-! ### What DERIVE does (R88) -/

/-- DERIVE once its walk has reached its end. -/
theorem exec_derive_of_walk {s : State} {vs : List Visit} (hn : s.nnode ≠ 0)
    (hw : walk s.node s.node.length s.root.toNat [] = some vs) :
    exec .derive s = .next (deriveFrom (applySlz s vs) s) := by
  change execDerive s = _
  rw [execDerive, if_neg hn, hw]

theorem deriveFrom_of_fit {vs : List Visit} {s : State} (hfit : ∀ v ∈ vs, v.path.length ≤ s.cfg.lenMax) :
    deriveFrom vs s = completeOk (putScode (standardTable vs) s.nleaf s) := by
  rw [deriveFrom, leastOffender_none.2 hfit]

/-- With `DONE` set DERIVE met a tree whose codes fit and has replaced the standard table. -/
theorem exec_derive_done {s t : State} (h : exec .derive s = .next t) (hd : t.stDone = true) :
    s.nnode ≠ 0 ∧ ∃ vs, walk s.node s.node.length s.root.toNat [] = some vs ∧
      (∀ v ∈ applySlz s vs, v.path.length ≤ s.cfg.lenMax) ∧ t.scode = standardTable (applySlz s vs) := by
  rcases execDerive_next h with ⟨-, rfl⟩ | ⟨hn, vs, hw, rfl⟩
  · cases hd
  · rcases deriveFrom_cases (applySlz s vs) s with ⟨v, -, he⟩ | ⟨hfit, he⟩
    · rw [he] at hd
      cases hd
    · exact ⟨hn, vs, hw, hfit, by rw [he]; rfl⟩

theorem eq_codeOf_iff (c : Code) (b : BitString) : c = codeOf b ↔ c.len = b.length ∧ c.val = bitsVal b := by
  cases c
  simp [codeOf]

/-- With different symbols the table's cells are the visits' entries. -/
theorem cellAt_standardTable {vs : List Visit} (h : (vs.map Visit.sym).Nodup) (k : Nat) (c : Code) :
    cellAt (standardTable vs) k = some c ↔ ∃ v ∈ vs, v.sym.toNat = k ∧ codeOf v.path = c := by
  rw [cellAt_iff_mem (standardTable_codeTable vs).wf, (standardTable_perm h).mem_iff]
  simp

/-- DERIVE's visits in terms of a path function: each leaf once, with its symbol and its code. -/
structure LeafVisits (s : State) (path : Nat → BitString) (vs : List Visit) : Prop where
  perm : (vs.map Visit.ix).Perm (List.range s.nleaf.toNat)
  nodup : (vs.map Visit.sym).Nodup
  sym : ∀ v ∈ vs, symOf s.node v.ix = v.sym.toNat
  code : ∀ v ∈ vs, standardCode s (path v.ix) = v.path

section Visits

variable {s : State} {path : Nat → BitString} {vs : List Visit} (h : LeafVisits s path vs)

include h

theorem LeafVisits.ix_lt {v : Visit} (hv : v ∈ vs) : v.ix < s.nleaf.toNat :=
  List.mem_range.1 (h.perm.mem_iff.1 (List.mem_map_of_mem hv))

theorem LeafVisits.exists_visit {j : Nat} (hj : j < s.nleaf.toNat) : ∃ v ∈ vs, v.ix = j :=
  List.mem_map.1 (h.perm.mem_iff.2 (List.mem_range.2 hj))

/-- The table's cells, leaf by leaf. -/
theorem LeafVisits.cellAt_iff (k : Nat) (c : Code) : cellAt (standardTable vs) k = some c ↔
    ∃ j, j < s.nleaf.toNat ∧ symOf s.node j = k ∧ c = codeOf (standardCode s (path j)) := by
  rw [cellAt_standardTable h.nodup]
  constructor
  · rintro ⟨v, hv, hsym, hcode⟩
    exact ⟨v.ix, h.ix_lt hv, (h.sym v hv).trans hsym, by rw [h.code v hv, hcode]⟩
  · rintro ⟨j, hj, hsym, hcode⟩
    obtain ⟨v, hv, rfl⟩ := h.exists_visit hj
    exact ⟨v, hv, (h.sym v hv).symm.trans hsym, by rw [← h.code v hv, hcode]⟩

/-- Where leaf `j` is the least whose code is too long, its visit is the one reported (R91). -/
theorem LeafVisits.deriveFrom_of_long {j : Nat} (hj : j < s.nleaf.toNat)
    (hlong : s.cfg.lenMax < (standardCode s (path j)).length)
    (hleast : ∀ i, i < j → (standardCode s (path i)).length ≤ s.cfg.lenMax) :
    deriveFrom vs s = takeFault .lenOverflow (BitVec.ofNat 32 (symOf s.node j))
      (BitVec.ofNat 32 (standardCode s (path j)).length) s := by
  obtain ⟨u, hu, rfl⟩ := h.exists_visit hj
  rw [h.code u hu] at hlong
  rcases deriveFrom_cases vs s with ⟨v, hv, hd⟩ | ⟨hfit, -⟩
  · obtain ⟨hmem, hvlong, hmin⟩ := leastOffender_some hv
    have hge : ¬ v.ix < u.ix := fun hlt => by
      have := hleast v.ix hlt
      rw [h.code v hmem] at this
      omega
    have hix : v.ix = u.ix := Nat.le_antisymm (hmin u hu hlong) (Nat.not_lt.1 hge)
    rw [hd, ← hix, h.sym v hmem, h.code v hmem, BitVec.ofNat_toNat]
  · exact absurd (hfit u hu) (Nat.not_le.2 hlong)

end Visits

/-- What the walk visits on a tree, after the policy of R90. -/
theorem TreeState.leafVisits {s : State} {path : Nat → BitString} {vs : List Visit} (h : TreeState s) (hn : s.nnode ≠ 0)
    (hp : PathOf s.node s.root.toNat path) (hw : walk s.node s.node.length s.root.toNat [] = some vs) :
    LeafVisits s path (applySlz s vs) where
  perm := by
    rw [applySlz_eq_map, List.map_map]
    exact derive_visits_perm h hn hw
  nodup := derive_visits_sym_nodup h hn hw
  sym v hv := by
    rw [applySlz_eq_map] at hv
    obtain ⟨u, hu, rfl⟩ := List.mem_map.1 hv
    exact walk_sym (v := u) hw hu
  code v hv := by
    rw [applySlz_eq_map] at hv
    obtain ⟨u, hu, rfl⟩ := List.mem_map.1 hv
    exact congrArg (standardCode s) (walk_path hp (hp.root ▸ hw) u hu).symm

/-- On a tree DERIVE's walk reaches its end, and DERIVE goes by what it visited. -/
theorem TreeState.exec_derive {s : State} {path : Nat → BitString} (h : TreeState s) (hn : s.nnode ≠ 0)
    (hp : PathOf s.node s.root.toNat path) :
    ∃ vs, LeafVisits s path vs ∧ exec .derive s = .next (deriveFrom vs s) := by
  obtain ⟨t, ht⟩ := exists_execDerive h
  rcases execDerive_next ht with ⟨h0, -⟩ | ⟨-, vs, hw, -⟩
  · exact absurd h0 hn
  · exact ⟨_, h.leafVisits hn hp hw, exec_derive_of_walk hn hw⟩

/-! ### The statements about DERIVE -/

/-- Settles O46: without a tree DERIVE is `takeFault` of NO_TREE. -/
theorem deriveWithoutTreeFaults : Obligations.DeriveWithoutTreeFaults := fun _ h => if_pos h

/-- Settles O48: the visits are the leaves with their codes, and when all fit the table is made of them. -/
theorem deriveRecordsPaths : Obligations.DeriveRecordsPaths := by
  intro s path h hn hp hfit
  obtain ⟨vs, hvs, hex⟩ := h.exec_derive hn hp
  rw [deriveFrom_of_fit fun v hv => hvs.code v hv ▸ hfit v.ix (hvs.ix_lt hv)] at hex
  refine ⟨_, hex, rfl, rfl, rfl, fun k c => ?_, rfl⟩
  simpa only [completeOk_scode, putScode_scode, eq_codeOf_iff] using hvs.cellAt_iff k c

/-- Settles O49: the visit of leaf `j` is the one reported, and a path is shorter than 2n. -/
theorem deriveReportsLeastLongCode : Obligations.DeriveReportsLeastLongCode := by
  intro s path j h hn hp hj hlong hleast
  obtain ⟨vs, hvs, hex⟩ := h.exec_derive hn hp
  obtain ⟨hT, hroot⟩ := h.treeInv hn
  constructor
  · rw [hex, hvs.deriveFrom_of_long hj hlong hleast]
    rfl
  · have hle := hT.le
    have hcode := standardCode_length_le s (path j)
    have hpath := hT.path_length (k := j) (hroot ▸ hp) (by omega)
    omega

/-- Settles O50: the walk of one leaf visits it with the empty path, and `SLZ` enters DERIVE through the policy alone,
which leaves two visits or more as they are. -/
theorem deriveSingleLeafPolicy : Obligations.DeriveSingleLeafPolicy := by
  constructor
  · intro s sym f hcfg hnode hleaf hnnode hroot
    have hw : walk s.node s.node.length s.root.toNat [] = some [⟨0, sym, []⟩] := by rw [hnode, hroot]; rfl
    have hvs : applySlz s [⟨0, sym, []⟩] = [⟨0, sym, if s.slz then [false] else []⟩] := by
      simp [applySlz_eq_map, standardCode, hleaf]
    have hfit : ∀ v ∈ applySlz s [⟨0, sym, []⟩], v.path.length ≤ s.cfg.lenMax := by
      obtain ⟨-, -, hpos, -⟩ := hcfg
      rw [hvs]
      cases s.slz <;> simp [hpos]
    have hex := exec_derive_of_walk (by rw [hnnode]; decide) hw
    rw [deriveFrom_of_fit hfit, hvs] at hex
    refine ⟨_, hex, hleaf, ?_, fun k hk => cellAt_cons_ne hk _ _⟩
    cases hs : s.slz <;> exact cellAt_cons_self _ _ _
  · intro s t b h2 h
    rcases execDerive_next h with ⟨h0, rfl⟩ | ⟨hn, vs, hw, rfl⟩
    · exact if_pos h0
    · change exec .derive (putSlz b s) = .next (putSlz b (deriveFrom (applySlz s vs) s))
      rw [exec_derive_of_walk (s := putSlz b s) hn hw, applySlz_of_two_le (s := putSlz b s) h2, applySlz_of_two_le h2,
        deriveFrom_putSlz]

/-- Settles O51: the table of a completed DERIVE is that of the visits. -/
theorem deriveTableIsPrefixFree : Obligations.DeriveTableIsPrefixFree := by
  intro s t h ht hd
  obtain ⟨hn, vs, hw, -, hscode⟩ := exec_derive_done ht hd
  rw [hscode]
  exact derive_prefixFree h hn hw

/-- Settles O52: the visits' weights add up to the root's, and a leaf's depth is bounded by the internal nodes above it. -/
theorem deriveLengthsMeetKraft : Obligations.DeriveLengthsMeetKraft := by
  intro s t hcfg h ht hd
  obtain ⟨hn, vs, hw, hfit, hscode⟩ := exec_derive_done ht hd
  obtain ⟨hT, hroot⟩ := h.treeInv hn
  rw [hscode, standardTable_kraft (derive_visits_sym_nodup h hn hw)]
  refine ⟨fun h2 => ⟨?_, fun e he => ?_⟩, fun h1 => ?_⟩
  · rw [applySlz_of_two_le h2] at hfit ⊢
    exact walk_kraft hw hfit
  · obtain ⟨v, hv, rfl⟩ := mem_standardTable he
    obtain ⟨path, hp⟩ := hT.exists_pathOf
    have hvs := h.leafVisits hn (hroot.symm ▸ hp) hw
    rw [codeOf_len, ← hvs.code v hv, standardCode_of_two_le h2]
    exact hT.leaf_path_length hp h2 (hvs.ix_lt hv)
  · obtain ⟨v, rfl⟩ := derive_visits_singleton h hn hw h1
    cases hs : s.slz with
    | false =>
      have hvs : applySlz s [v] = [v] := by simp [applySlz, hs]
      rw [hvs] at hfit ⊢
      simpa using walk_kraft hw hfit
    | true =>
      have hvs : applySlz s [v] = [{ v with path := [false] }] := by simp [applySlz, h1, hs]
      obtain ⟨-, -, hpos, -⟩ := hcfg
      simpa [hvs] using mul_pow_sub_one (by omega) 2

end Sys2Proof.Machine
end

section
/-! The canonical-code indexer (44_canonicalizer.md): what CANON does, the lengths it keeps and goes by, and the values it
assigns, as facts about the tables a host sees. -/

namespace Sys2Proof.Machine

/-! ### What CANON does (R96, R99) -/

/-- CANON completes on a table whose canonical values fit their lengths. -/
theorem exec_canon_of_fit {s : State} (hn : s.scnt ≠ 0) (hfit : codesFit (canonicalCodes s.scode) = true) :
    exec .canon s = .next (completeOk
      (putCcode (tableOf (canonicalCodes s.scode)) (BitVec.ofNat 17 (canonicalCodes s.scode).length) s)) := by
  change execCanon s = _
  rw [execCanon, if_neg hn, if_pos hfit]

/-- With `DONE` set CANON has met values that fit and has replaced the canonical table. -/
theorem exec_canon_done {s t : State} (h : exec .canon s = .next t) (hd : t.stDone = true) :
    codesFit (canonicalCodes s.scode) = true ∧ t.ccode = tableOf (canonicalCodes s.scode) := by
  rcases execCanon_next h with ⟨-, rfl⟩ | ⟨-, hfit, rfl⟩
  · cases hd
  · exact ⟨hfit, rfl⟩

theorem mem_canonicalCodes_of_cellAt {m : Memory Code} {k : Nat} {c : Code}
    (h : cellAt (tableOf (canonicalCodes m)) k = some c) : (k, c) ∈ canonicalCodes m :=
  mem_of_mem_tableOf (mem_of_cellAt h)

/-! ### The lengths (R101, R102) -/

/-- The entries of the code length table are the lengths of the present codes (R96 step 1). -/
theorem mem_lengthsOf {m : Memory Code} (h : Memory.wf m) (x : LenEntry) :
    x ∈ lengthsOf m ↔ (cellAt m x.sym).map Code.len = some x.len := by
  obtain ⟨k, len⟩ := x
  simp [lengthsOf, cellAt_iff_mem h]

/-- R101: the canonical table has the code length table of the standard one. -/
theorem lengthsOf_canonicalTable_perm {m : Memory Code} (h : Memory.wf m) :
    (lengthsOf (tableOf (canonicalCodes m))).Perm (lengthsOf m) := by
  have hperm : (lengthsOf (tableOf (canonicalCodes m))).Perm (lengthsOf (canonicalCodes m)) :=
    (tableOf_perm (canonicalCodes_nodup h)).map _
  have hlens : lengthsOf (canonicalCodes m) = sortByLen (lengthsOf m) := canonicalCodes_lens m
  rw [hlens] at hperm
  exact hperm.trans (sortByLen_perm _)

/-- R101, symbol by symbol. -/
theorem cellAt_canonicalTable_len {m : Memory Code} (h : Memory.wf m) (k : Nat) :
    (cellAt (tableOf (canonicalCodes m)) k).map Code.len = (cellAt m k).map Code.len := by
  ext len
  rw [← mem_lengthsOf (tableOf_wf _) ⟨k, len⟩, ← mem_lengthsOf h ⟨k, len⟩, (lengthsOf_canonicalTable_perm h).mem_iff]

/-- Tables in canonical form that give each symbol the same length have the same code length table. -/
theorem lengthsOf_eq {m n : Memory Code} (hm : Memory.wf m) (hn : Memory.wf n)
    (h : ∀ k, (cellAt m k).map Code.len = (cellAt n k).map Code.len) : lengthsOf m = lengthsOf n := by
  have rising : ∀ {t : Memory Code}, Memory.wf t → (lengthsOf t).Pairwise (LenEntry.sym ⁻¹'o (· < ·)) :=
    fun ht => List.pairwise_map.2 ht
  refine (rising hm).eq_of_mem_iff (rising hn) fun x => ?_
  rw [mem_lengthsOf hm, mem_lengthsOf hn, h]

/-- R102: the canonical codes are computed from the code length table. -/
theorem canonicalCodes_congr {m n : Memory Code} (h : lengthsOf m = lengthsOf n) :
    canonicalCodes m = canonicalCodes n := by
  rw [canonicalCodes, canonicalCodes, h]

/-! ### The values (R97 to R99) -/

theorem lenLt_eq_decide (x y : LenEntry) : lenLt x y = decide (x.len < y.len ∨ (x.len = y.len ∧ x.sym < y.sym)) := by
  rw [Bool.eq_iff_iff, lenLt_iff, decide_eq_true_iff]

/-- The value formula of a whole table in canonical form: the running value starts at 0, and the sort only reorders the
sum. -/
theorem canonicalCodes_val {m : Memory Code} {M : Nat} (h : Memory.wf m) (hM : ∀ e ∈ m, e.2.len ≤ M) {k : Nat} {c : Code}
    (hc : (k, c) ∈ canonicalCodes m) :
    c.val * 2 ^ (M - c.len) =
      ((m.filter (fun e => decide (e.2.len < c.len ∨ (e.2.len = c.len ∧ e.1 < k)))).map
        (fun e => 2 ^ (M - e.2.len))).sum := by
  obtain ⟨cur, hcur, hcodes⟩ := canonicalCodes_eq h
  have hMs : ∀ x ∈ sortByLen (lengthsOf m), x.len ≤ M := fun x hx => by
    obtain ⟨e, he, rfl⟩ := List.mem_map.1 ((sortByLen_perm _).mem_iff.1 hx)
    exact hM e he
  rw [hcodes] at hc
  have hval := assignCodes_val (sortByLen_lengthsOf_sorted h) hcur hMs _ hc
  rw [Nat.zero_mul, Nat.zero_add, (((sortByLen_perm (lengthsOf m)).filter _).map _).sum_eq, lengthsOf, List.filter_map,
    List.map_map] at hval
  simpa only [Function.comp_def, lenLt_eq_decide] using hval

/-! ### The statements about CANON -/

/-- Settles O53: on the empty table CANON is `takeFault` of EMPTY_CODES. -/
theorem canonEmptyTableFaults : Obligations.CanonEmptyTableFaults := fun _ h => if_pos h

/-- Settles O54: the Kraft sum makes every value fit, so that CANON completes, and its table has the standard one's code
length table. -/
theorem canonConservesLengths : Obligations.CanonConservesLengths := by
  intro s htable hcount hn hM hkraft
  have hfit := canonicalCodes_fit htable.wf hM hkraft
  refine ⟨_, exec_canon_of_fit hn hfit, rfl, rfl, cellAt_canonicalTable_len htable.wf, fun k c hc => ?_, ?_, rfl⟩
  · exact codesFit_mem hfit (mem_canonicalCodes_of_cellAt hc)
  · rw [completeOk_ccnt, putCcode_ccnt, canonicalCodes_length, ← hcount, BitVec.ofNat_toNat, BitVec.setWidth_eq]

/-- Settles O55: equal lengths make equal code length tables, from which alone the canonical codes are computed. -/
theorem canonDependsOnLengthsOnly : Obligations.CanonDependsOnLengthsOnly := by
  intro s₁ s₂ t₁ t₂ h₁ h₂ hlen ht₁ hd₁ ht₂ hd₂
  rw [(exec_canon_done ht₁ hd₁).2, (exec_canon_done ht₂ hd₂).2, canonicalCodes_congr (lengthsOf_eq h₁.wf h₂.wf hlen)]

/-- Settles O56: the cells of the canonical table are the assigned codes, of which the value formula and R103 hold. -/
theorem canonValueFormula : Obligations.CanonValueFormula := by
  intro s t htable hM ht hd
  obtain ⟨-, hccode⟩ := exec_canon_done ht hd
  rw [hccode]
  exact ⟨fun k c hc => canonicalCodes_val htable.wf hM (mem_canonicalCodes_of_cellAt hc), fun a b c d hc hd =>
    canonicalCodes_ineq htable.wf (mem_canonicalCodes_of_cellAt hc) (mem_canonicalCodes_of_cellAt hd)⟩

/-- Settles O57: the table of a completed CANON is that of values that fit. -/
theorem canonTableIsPrefixFree : Obligations.CanonTableIsPrefixFree := by
  intro s t htable ht hd
  obtain ⟨hfit, hccode⟩ := exec_canon_done ht hd
  rw [hccode]
  exact canonicalTable_prefixFree htable.wf hfit

end Sys2Proof.Machine
end

section
/-! The encoder (45_encoder.md): which text ENCODE completes on and which it faults on, both ways, and where in the
bitstream each code lies. -/

namespace Sys2Proof.Machine

/-! ### The bits a table gives a symbol (R105, R109) -/

/-- The code of `x` in table `m`, as bits; empty where `x` has no entry. -/
def symbolBits (m : Memory Code) (x : Symbol) : BitString := ((cellAt m x.toNat).map codeBits).getD []

theorem symbolBits_of_cellAt {m : Memory Code} {x : Symbol} {c : Code} (h : cellAt m x.toNat = some c) :
    symbolBits m x = codeBits c := by
  rw [symbolBits, h]
  rfl

@[simp] theorem symbolBits_length (m : Memory Code) (x : Symbol) :
    (symbolBits m x).length = ((cellAt m x.toNat).map Code.len).getD 0 := by
  cases h : cellAt m x.toNat with
  | none => simp [symbolBits, h]
  | some c => simp [symbolBits, h]

theorem map_length_symbolBits (m : Memory Code) (text : List Symbol) :
    (text.map (symbolBits m)).map List.length =
      text.map (fun x => ((cellAt m x.toNat).map Code.len).getD 0) := by
  simp [Function.comp_def]

/-- In a concatenation the part at index `i` lies behind the lengths of the parts before it. -/
theorem take_drop_sum_flatten {α : Type} {parts : List (List α)} {i : Nat} {part : List α} (h : parts[i]? = some part) :
    (parts.flatten.drop ((parts.map List.length).take i).sum).take part.length = part := by
  obtain ⟨hi, rfl⟩ := List.getElem?_eq_some_iff.1 h
  rw [List.drop_sum_flatten, List.drop_eq_getElem_cons hi, List.flatten_cons, List.take_left]

/-! ### The loop (R105, R108) -/

/-- When every symbol of the text has an entry, the loop ends with the codes in text order. -/
theorem encodeText_of_present {m : Memory Code} {text : List Symbol} (i : Nat)
    (h : ∀ x ∈ text, cellAt m x.toNat ≠ none) : encodeText m i text = .bits (text.map (symbolBits m)).flatten := by
  cases he : encodeText m i text with
  | missing j y =>
    obtain ⟨-, hy, habs, -⟩ := encodeText_missing he
    exact absurd habs (h y (List.mem_of_getElem? hy))
  | bits b => exact congrArg Encoded.bits (encodeText_bits he).2

/-- When the first symbol without an entry is `x` at position `i`, the loop reports them: of two first positions neither
is below the other. -/
theorem encodeText_of_first_missing {m : Memory Code} {text : List Symbol} {i : Nat} {x : Symbol}
    (hx : text[i]? = some x) (habs : cellAt m x.toNat = none)
    (hfirst : ∀ (k : Nat) y, k < i → text[k]? = some y → cellAt m y.toNat ≠ none) :
    encodeText m 0 text = .missing i x := by
  cases he : encodeText m 0 text with
  | bits b => exact absurd habs ((encodeText_bits he).1 x (List.mem_of_getElem? hx))
  | missing j y =>
    obtain ⟨-, hy, hyabs, hbefore⟩ := encodeText_missing he
    rw [Nat.sub_zero] at hy hbefore
    rcases Nat.lt_trichotomy j i with hlt | rfl | hgt
    · exact absurd hyabs (hfirst j y hlt hy)
    · obtain rfl := Option.some.inj (hy.symm.trans hx)
      rfl
    · exact absurd habs (hbefore i hgt x hx)

/-! ### The command (R105, R106, R108) -/

/-- R106: the table `TSEL` names is the selected one. -/
theorem eq_selectTable {s : State} {tsel : TableSel} {table : Memory Code}
    (h : (tsel = .standard ∧ table = s.scode) ∨ (tsel = .canonical ∧ table = s.ccode)) : table = selectTable tsel s := by
  rcases h with ⟨rfl, rfl⟩ | ⟨rfl, rfl⟩ <;> rfl

theorem exec_encode_of_bits {s : State} {tsel : TableSel} {b : BitString}
    (h : encodeText (selectTable tsel s) 0 (readText s) = .bits b) :
    exec (.encode tsel) s = .next (completeOk (putOut b (afterText s))) := by
  change execEncode tsel s = _
  rw [execEncode, h]

theorem exec_encode_of_missing {s : State} {tsel : TableSel} {i : Nat} {x : Symbol}
    (h : encodeText (selectTable tsel s) 0 (readText s) = .missing i x) :
    exec (.encode tsel) s =
      .next (takeFault .missingSymbol (BitVec.ofNat 32 i) (x.setWidth 32) (afterText s)) := by
  change execEncode tsel s = _
  rw [execEncode, h]

/-- With `DONE` set ENCODE has replaced the bitstream by the codes in text order. -/
theorem exec_encode_done {s t : State} {tsel : TableSel} (h : exec (.encode tsel) s = .next t) (hd : t.stDone = true) :
    t.out = ((readText s).map (symbolBits (selectTable tsel s))).flatten := by
  rcases execEncode_next h with ⟨_, _, -, rfl⟩ | ⟨b, hb, rfl⟩
  · cases hd
  · exact (encodeText_bits hb).2

/-! ### The statements about ENCODE -/

/-- Settles O58: the loop meets an entry at every position, and R30 items 4 and 6 bound what it emits. -/
theorem encodeConcatenatesCodes : Obligations.EncodeConcatenatesCodes := by
  intro s tsel table htable hs hpresent
  obtain rfl := eq_selectTable htable
  have hbits := encodeText_of_present 0 hpresent
  have hafter : BoundsInv (putOut _ s) := hs.change (.encode hbits)
  exact ⟨_, exec_encode_of_bits hbits, rfl, rfl, rfl, hafter.outlen, hafter.out, rfl⟩

/-- Settles O59: the loop reports the first missing symbol, and neither it nor its position is cut by the 32 bits of its
register. -/
theorem encodeReportsFirstMissing : Obligations.EncodeReportsFirstMissing := by
  intro s tsel table i x htable hx habs hfirst
  obtain rfl := eq_selectTable htable
  have hi : i < 2 ^ 32 := (List.getElem?_eq_some_iff.1 hx).1.trans (readText_length_lt s)
  refine ⟨_, exec_encode_of_missing (encodeText_of_first_missing hx habs hfirst), rfl, rfl, rfl, rfl, ?_, ?_, rfl⟩
  · rw [takeFault_finfo0, BitVec.toNat_ofNat, Nat.mod_eq_of_lt hi]
  · rw [takeFault_finfo1, BitVec.toNat_setWidth_of_le (by decide)]

/-- Settles O60: the bitstream is the concatenation of the codes, and each is found behind those before it. -/
theorem encodeLengthIsSum : Obligations.EncodeLengthIsSum := by
  intro s t tsel table htable ht hd
  obtain rfl := eq_selectTable htable
  rw [exec_encode_done ht hd]
  refine ⟨?_, fun i x c hx hc => ?_⟩
  · rw [List.length_flatten, map_length_symbolBits]
  · have hpart : ((readText s).map (symbolBits (selectTable tsel s)))[i]? = some (codeBits c) := by
      rw [List.getElem?_map, hx, Option.map_some, symbolBits_of_cellAt hc]
    have hplace := take_drop_sum_flatten hpart
    rwa [map_length_symbolBits, ← List.map_take, codeBits_length] at hplace

end Sys2Proof.Machine
end

section
/-! The reset event (70_reset_and_hazards.md R128): the step a reset on the agenda makes, and the statement about it. -/

namespace Sys2Proof.Machine

/-- The step of a reset does not look at `BUSY`: a command in flight is abandoned before it writes anything. -/
theorem step_rst {s : State} {rest : List Event} (h : s.agenda = .rst :: rest) :
    step s = .next (applyReset { s with agenda := rest }) := by simp [step, advance, h, act]

/-- Settles O2: `applyReset` keeps only the instance and the three fields that are the model's own, and the agenda it keeps
is the one the reset has been taken off. -/
theorem resetEventRestoresResetState : Obligations.ResetEventRestoresResetState := by
  intro s rest h
  rw [step_rst h, applyReset]

end Sys2Proof.Machine
end
